-- ==== Sys2Proof/Word.lean ====
section
/-! DEFINITION. The word types of the block: every operand width of R8, R89 and R100 (decision D27) under the spec's name for it.
All quantities are unsigned (R11). -/

namespace Sys2Proof

/-- A storage byte, a codeword, or the byte operand B8 (R51, R81, R89). -/
abbrev Byte := BitVec 8

/-- A message or a syndrome (R80, R83). -/
abbrev Nibble := BitVec 4

/-- A matrix dimension or a row or column index (R26, R89). -/
abbrev Half := BitVec 16

/-- A vector length, a bit index, or a response VALUE (R25, R89, R100). -/
abbrev Word := BitVec 32

/-- A handle operand HA or HB: 0 is the null handle (R50, R89). -/
abbrev Handle := BitVec 8

/-- A command word, and the width of the status port's widest register (R34, R88). -/
abbrev CmdWord := BitVec 64

end Sys2Proof
end

