-- ==== Sys2Proof/Config.lean ====
section
/-! DEFINITION. What the spec leaves to the implementation (R8): the two capacities of the storage pool, which the
machine carries as plain data, and the four parameters of the host's drivers, which the host driver takes as an argument. -/

namespace Sys2Proof

/-- The block's open parameters (R8, decisions D7 and D8).  They are not state of the block (R38): `State` carries one
`Config` that no step changes, so that a statement about every state is a statement about every capacity. -/
structure Config where
  /-- NUM_HANDLES: the number of object slots. -/
  numHandles : Nat
  /-- STORAGE_BYTES: the bytes of bit storage that live objects may hold together. -/
  storageBytes : Nat
  deriving DecidableEq, Repr

/-- The legal ranges of R8: NUM_HANDLES in 1..255 and STORAGE_BYTES in 0..2^32-1. -/
def Config.legal (c : Config) : Bool :=
  decide (1 ≤ c.numHandles) && decide (c.numHandles ≤ 255) && decide (c.storageBytes < 2 ^ 32)

/-- DESIGN CHOICE (log entry 1): the capacities that `State.reset` carries.  The spec leaves both open.  These are the
values its own test vectors start from (95_test_vectors.md, conventions), and no statement rests on them. -/
def Config.reference : Config := { numHandles := 8, storageBytes := 64 }

/-- HOST_ODD_TAIL (R8, R257): what the host decoder does with a trailing codeword byte that has no partner. -/
inductive OddTail where
  | drop
  | fault
  deriving DecidableEq, Repr

/-- HOST_BYTES_COUNTED (R8, R259): what the statistic of processed bytes counts. -/
inductive BytesCounted where
  | inputCodewordBytes
  | outputBytes
  deriving DecidableEq, Repr

/-- The host drivers' open parameters (R8, decisions D23, D28, D29, D34).  A lane's initial value `none` is the spec's
`undefined`.  A rate `none` is a reported value that is no number. -/
structure HostConfig where
  msgInitLo    : Option Nibble
  msgInitHi    : Option Nibble
  oddTail      : OddTail
  bytesCounted : BytesCounted
  rateZero     : Option Rat
  deriving DecidableEq, Repr

/-- FREE VALUE (log entry 9): the nibble the host happens to send as MI for the `n`-th codeword it decodes, when that
codeword's lane is `undefined` and has not been written (R258).  It has no body, so no proof can see a value of it. -/
opaque HostConfig.unwrittenLane : Nat → Nibble

end Sys2Proof
end

