-- ==== Sys2Proof/Syntax.lean ====
section
/-! DEFINITION. The commands of the block: one constructor per row of spec/opcode_table.json (R93), with the operands its
format reads (R89, R91) at the width of the field that carries them. -/

namespace Sys2Proof

/-- The twelve formats of R91. -/
inductive Format where
  | Z | H | HH | N | HN | HNB | RC | HRC | BN | B | S | D
  deriving DecidableEq, Repr

/-- The commands (R93).  `ha`, `hb` are the handle operands, `b8` the byte operand, `n` a length or bit index, `r` and
`c` a row and a column.  The operands of `syndLookup` and `hcDecode` are written here at the width of the whole field
(B8 and N), of which the format reads the low four bits and reserves the rest (R92): `wellFormed` says which terms
leave the reserved bits clear. -/
inductive Instr where
  -- bitvector_storage
  | bvCreate (n : Word)
  | bvDelete (ha : Handle)
  | bvLength (ha : Handle)
  | bvSet (ha : Handle) (n : Word)
  | bvClear (ha : Handle) (n : Word)
  | bvGet (ha : Handle) (n : Word)
  | bvXor (ha : Handle) (n : Word) (b8 : Byte)
  | bvDump (ha : Handle)
  -- bitmatrix_gf2_mult
  | bmCreate (r c : Half)
  | bmDelete (ha : Handle)
  | bmRows (ha : Handle)
  | bmCols (ha : Handle)
  | bmSet (ha : Handle) (r c : Half)
  | bmClear (ha : Handle) (r c : Half)
  | bmGet (ha : Handle) (r c : Half)
  | bmFromData (b8 : Byte) (n : Word)
  | bmToData (ha : Handle)
  | bmMultiply (ha hb : Handle)
  | bmDump (ha : Handle)
  -- syndrome_lookup_table
  | syndLookup (b8 : Byte)
  -- hamming_8_4_encoder and hamming_8_4_decoder
  | hcLoadG
  | hcLoadHt
  | hcEncode (b8 : Byte)
  | hcDecode (b8 : Byte) (mi : Word)
  deriving DecidableEq, Repr

end Sys2Proof
end

