-- ==== Sys2Proof/WellFormed.lean ====
section
/-! DEFINITION. When a command term is one that its format can carry with every reserved bit 0 (R92).  Two formats reserve
the high bits of a field they read: S reserves B8[7:4], so a syndrome is at most 15, and D reserves N[31:4], so a
message-in is at most 15.  Every other format reads its fields whole. -/

namespace Sys2Proof

/-- The reserved bits of the command's word are all 0 (R91, R92). -/
def Instr.wellFormed : Instr → Bool
  | .syndLookup b8 => decide (b8.toNat < 16)
  | .hcDecode _ mi => decide (mi.toNat < 16)
  | .bvCreate _ => true
  | .bvDelete _ => true
  | .bvLength _ => true
  | .bvSet _ _ => true
  | .bvClear _ _ => true
  | .bvGet _ _ => true
  | .bvXor _ _ _ => true
  | .bvDump _ => true
  | .bmCreate _ _ => true
  | .bmDelete _ => true
  | .bmRows _ => true
  | .bmCols _ => true
  | .bmSet _ _ _ => true
  | .bmClear _ _ _ => true
  | .bmGet _ _ _ => true
  | .bmFromData _ _ => true
  | .bmToData _ => true
  | .bmMultiply _ _ => true
  | .bmDump _ => true
  | .hcLoadG => true
  | .hcLoadHt => true
  | .hcEncode _ => true

end Sys2Proof
end

