-- ==== Sys2Proof/Decode.lean ====
section
/-! DEFINITION. The command word (R88 to R95): its fields, the formats' masks, the opcode map, the decoder, the encoder, and
the assembler's view of a command (R103 to R105). -/

namespace Sys2Proof

/-! ### Fields of the command word (R89, R90) -/

def fieldOP (w : CmdWord) : Byte := w.extractLsb' 56 8
def fieldHA (w : CmdWord) : Handle := w.extractLsb' 48 8
def fieldHB (w : CmdWord) : Handle := w.extractLsb' 40 8
def fieldB8 (w : CmdWord) : Byte := w.extractLsb' 32 8
def fieldN (w : CmdWord) : Word := w.extractLsb' 0 32
def fieldR (w : CmdWord) : Half := w.extractLsb' 16 16
def fieldC (w : CmdWord) : Half := w.extractLsb' 0 16

/-- The command word with these fields (R89): OP 63:56, HA 55:48, HB 47:40, B8 39:32, N 31:0. -/
def packWord (op : Byte) (ha hb : Handle) (b8 : Byte) (n : Word) : CmdWord :=
  op ++ ha ++ hb ++ b8 ++ n

/-- The field N that overlaps a row R in bits 31:16 and a column C in bits 15:0 (R89). -/
def packRC (r c : Half) : Word := r ++ c

/-! ### Formats (R91) -/

/-- The `mask` column of R91: the bits that the opcode and the format's reserved fields fix. -/
def Format.mask : Format → CmdWord
  | .Z   => 0xFFFFFFFFFFFFFFFF#64
  | .H   => 0xFF00FFFFFFFFFFFF#64
  | .HH  => 0xFF0000FFFFFFFFFF#64
  | .N   => 0xFFFFFFFF00000000#64
  | .HN  => 0xFF00FFFF00000000#64
  | .HNB => 0xFF00FF0000000000#64
  | .RC  => 0xFFFFFFFF00000000#64
  | .HRC => 0xFF00FFFF00000000#64
  | .BN  => 0xFFFFFF0000000000#64
  | .B   => 0xFFFFFF00FFFFFFFF#64
  | .S   => 0xFFFFFFF0FFFFFFFF#64
  | .D   => 0xFFFFFF00FFFFFFF0#64

/-- The bits of a word outside OP. -/
def operandBits : CmdWord := 0x00FFFFFFFFFFFFFF#64

/-- No bit that the format reserves is set (R92). -/
def Format.reservedClear (f : Format) (w : CmdWord) : Bool :=
  decide (w &&& (f.mask &&& operandBits) = 0#64)

/-! ### The opcode map (R93) -/

/-- One row of R93: the opcode, the format, and how the row's command reads the operand fields. -/
structure OpRow where
  op     : Byte
  format : Format
  read   : CmdWord → Instr

/-- `match` of R91: OP in bits 63:56, every other bit 0. -/
def OpRow.pattern (r : OpRow) : CmdWord := packWord r.op 0#8 0#8 0#8 0#32

/-- The rows of bitvector_storage. -/
def bitVectorRows : List OpRow :=
  [ ⟨0x01#8, .N,   fun w => .bvCreate (fieldN w)⟩,
    ⟨0x02#8, .H,   fun w => .bvDelete (fieldHA w)⟩,
    ⟨0x03#8, .H,   fun w => .bvLength (fieldHA w)⟩,
    ⟨0x04#8, .HN,  fun w => .bvSet (fieldHA w) (fieldN w)⟩,
    ⟨0x05#8, .HN,  fun w => .bvClear (fieldHA w) (fieldN w)⟩,
    ⟨0x06#8, .HN,  fun w => .bvGet (fieldHA w) (fieldN w)⟩,
    ⟨0x07#8, .HNB, fun w => .bvXor (fieldHA w) (fieldN w) (fieldB8 w)⟩,
    ⟨0x08#8, .H,   fun w => .bvDump (fieldHA w)⟩ ]

/-- The rows of bitmatrix_gf2_mult. -/
def bitMatrixRows : List OpRow :=
  [ ⟨0x10#8, .RC,  fun w => .bmCreate (fieldR w) (fieldC w)⟩,
    ⟨0x11#8, .H,   fun w => .bmDelete (fieldHA w)⟩,
    ⟨0x12#8, .H,   fun w => .bmRows (fieldHA w)⟩,
    ⟨0x13#8, .H,   fun w => .bmCols (fieldHA w)⟩,
    ⟨0x14#8, .HRC, fun w => .bmSet (fieldHA w) (fieldR w) (fieldC w)⟩,
    ⟨0x15#8, .HRC, fun w => .bmClear (fieldHA w) (fieldR w) (fieldC w)⟩,
    ⟨0x16#8, .HRC, fun w => .bmGet (fieldHA w) (fieldR w) (fieldC w)⟩,
    ⟨0x17#8, .BN,  fun w => .bmFromData (fieldB8 w) (fieldN w)⟩,
    ⟨0x18#8, .H,   fun w => .bmToData (fieldHA w)⟩,
    ⟨0x19#8, .HH,  fun w => .bmMultiply (fieldHA w) (fieldHB w)⟩,
    ⟨0x1A#8, .H,   fun w => .bmDump (fieldHA w)⟩ ]

/-- The rows of syndrome_lookup_table, hamming_8_4_encoder and hamming_8_4_decoder. -/
def codecRows : List OpRow :=
  [ ⟨0x20#8, .S, fun w => .syndLookup (fieldB8 w)⟩,
    ⟨0x21#8, .Z, fun _ => .hcLoadG⟩,
    ⟨0x22#8, .Z, fun _ => .hcLoadHt⟩,
    ⟨0x30#8, .B, fun w => .hcEncode (fieldB8 w)⟩,
    ⟨0x31#8, .D, fun w => .hcDecode (fieldB8 w) (fieldN w)⟩ ]

/-- The opcode map of R93, all 24 rows. -/
def opcodeTable : List OpRow := bitVectorRows ++ bitMatrixRows ++ codecRows

/-- The row that OP selects, if it is assigned (R94). -/
def opRow? (op : Byte) : Option OpRow := opcodeTable.find? (fun r => r.op == op)

/-! ### The decoder (R95) -/

/-- Why a word is no command: ILLEGAL_OP (R94) or RESERVED_FIELD (R92). -/
inductive DecodeError where
  | illegalOp
  | reservedField
  deriving DecidableEq, Repr

/-- The decoder (R95), total on any 64-bit word: the opcode first, then the reserved fields of its format, then the
operands. -/
def decode (w : CmdWord) : Except DecodeError Instr :=
  match opRow? (fieldOP w) with
  | none => .error .illegalOp
  | some r => if r.format.reservedClear w then .ok (r.read w) else .error .reservedField

/-- The instruction that `decode` reads from a table row's word.  A command is one 64-bit word at the port, with no byte
order (R57, R88), so the table's numbering of bits is the word's own. -/
def decodeTableWord (nbits w : Nat) : Option Instr :=
  (decode (BitVec.ofNat 64 (w % 2 ^ nbits))).toOption

/-! ### The encoder -/

/-- The opcode of a command (R93). -/
def Instr.opcode : Instr → Byte
  | .bvCreate _ => 0x01#8
  | .bvDelete _ => 0x02#8
  | .bvLength _ => 0x03#8
  | .bvSet _ _ => 0x04#8
  | .bvClear _ _ => 0x05#8
  | .bvGet _ _ => 0x06#8
  | .bvXor _ _ _ => 0x07#8
  | .bvDump _ => 0x08#8
  | .bmCreate _ _ => 0x10#8
  | .bmDelete _ => 0x11#8
  | .bmRows _ => 0x12#8
  | .bmCols _ => 0x13#8
  | .bmSet _ _ _ => 0x14#8
  | .bmClear _ _ _ => 0x15#8
  | .bmGet _ _ _ => 0x16#8
  | .bmFromData _ _ => 0x17#8
  | .bmToData _ => 0x18#8
  | .bmMultiply _ _ => 0x19#8
  | .bmDump _ => 0x1A#8
  | .syndLookup _ => 0x20#8
  | .hcLoadG => 0x21#8
  | .hcLoadHt => 0x22#8
  | .hcEncode _ => 0x30#8
  | .hcDecode _ _ => 0x31#8

/-- The format of a command (R93). -/
def Instr.format : Instr → Format
  | .bvCreate _ => .N
  | .bvDelete _ => .H
  | .bvLength _ => .H
  | .bvSet _ _ => .HN
  | .bvClear _ _ => .HN
  | .bvGet _ _ => .HN
  | .bvXor _ _ _ => .HNB
  | .bvDump _ => .H
  | .bmCreate _ _ => .RC
  | .bmDelete _ => .H
  | .bmRows _ => .H
  | .bmCols _ => .H
  | .bmSet _ _ _ => .HRC
  | .bmClear _ _ _ => .HRC
  | .bmGet _ _ _ => .HRC
  | .bmFromData _ _ => .BN
  | .bmToData _ => .H
  | .bmMultiply _ _ => .HH
  | .bmDump _ => .H
  | .syndLookup _ => .S
  | .hcLoadG => .Z
  | .hcLoadHt => .Z
  | .hcEncode _ => .B
  | .hcDecode _ _ => .D

/-- The operand HA of a command, 0 where its format does not read it (R89, R91). -/
def Instr.operandHA : Instr → Handle
  | .bvDelete ha | .bvLength ha | .bvSet ha _ | .bvClear ha _ | .bvGet ha _ | .bvXor ha _ _ | .bvDump ha
  | .bmDelete ha | .bmRows ha | .bmCols ha | .bmSet ha _ _ | .bmClear ha _ _ | .bmGet ha _ _
  | .bmToData ha | .bmMultiply ha _ | .bmDump ha => ha
  | .bvCreate _ | .bmCreate _ _ | .bmFromData _ _ | .syndLookup _ | .hcLoadG | .hcLoadHt | .hcEncode _
  | .hcDecode _ _ => 0#8

/-- The operand HB of a command, 0 where its format does not read it: only `BM_MULTIPLY` has one. -/
def Instr.operandHB : Instr → Handle
  | .bmMultiply _ hb => hb
  | .bvDelete _ | .bvLength _ | .bvSet _ _ | .bvClear _ _ | .bvGet _ _ | .bvXor _ _ _ | .bvDump _
  | .bmDelete _ | .bmRows _ | .bmCols _ | .bmSet _ _ _ | .bmClear _ _ _ | .bmGet _ _ _
  | .bmToData _ | .bmDump _
  | .bvCreate _ | .bmCreate _ _ | .bmFromData _ _ | .syndLookup _ | .hcLoadG | .hcLoadHt | .hcEncode _
  | .hcDecode _ _ => 0#8

/-- The operand B8 of a command, 0 where its format does not read it. -/
def Instr.operandB8 : Instr → Byte
  | .bvXor _ _ b8 | .bmFromData b8 _ | .syndLookup b8 | .hcEncode b8 | .hcDecode b8 _ => b8
  | .bvDelete _ | .bvLength _ | .bvSet _ _ | .bvClear _ _ | .bvGet _ _ | .bvDump _
  | .bmDelete _ | .bmRows _ | .bmCols _ | .bmSet _ _ _ | .bmClear _ _ _ | .bmGet _ _ _
  | .bmToData _ | .bmMultiply _ _ | .bmDump _
  | .bvCreate _ | .bmCreate _ _ | .hcLoadG | .hcLoadHt => 0#8

/-- Bits 31:0 of a command's word: the field N, or R and C, or MI, or 0 (R89). -/
def Instr.operandN : Instr → Word
  | .bvCreate n | .bvSet _ n | .bvClear _ n | .bvGet _ n | .bvXor _ n _ | .bmFromData _ n | .hcDecode _ n => n
  | .bmCreate r c | .bmSet _ r c | .bmClear _ r c | .bmGet _ r c => packRC r c
  | .bvDelete _ | .bvLength _ | .bvDump _ | .bmDelete _ | .bmRows _ | .bmCols _
  | .bmToData _ | .bmMultiply _ _ | .bmDump _ | .syndLookup _ | .hcLoadG | .hcLoadHt | .hcEncode _ => 0#32

/-- The word of a command (R89, R93). -/
def encode (i : Instr) : CmdWord :=
  packWord i.opcode i.operandHA i.operandHB i.operandB8 i.operandN

/-! ### The assembler's view (R103 to R105) -/

/-- The mnemonic of a command (R93). -/
def Instr.mnemonic : Instr → String
  | .bvCreate _ => "BV_CREATE"
  | .bvDelete _ => "BV_DELETE"
  | .bvLength _ => "BV_LENGTH"
  | .bvSet _ _ => "BV_SET"
  | .bvClear _ _ => "BV_CLEAR"
  | .bvGet _ _ => "BV_GET"
  | .bvXor _ _ _ => "BV_XOR"
  | .bvDump _ => "BV_DUMP"
  | .bmCreate _ _ => "BM_CREATE"
  | .bmDelete _ => "BM_DELETE"
  | .bmRows _ => "BM_ROWS"
  | .bmCols _ => "BM_COLS"
  | .bmSet _ _ _ => "BM_SET"
  | .bmClear _ _ _ => "BM_CLEAR"
  | .bmGet _ _ _ => "BM_GET"
  | .bmFromData _ _ => "BM_FROM_DATA"
  | .bmToData _ => "BM_TO_DATA"
  | .bmMultiply _ _ => "BM_MULTIPLY"
  | .bmDump _ => "BM_DUMP"
  | .syndLookup _ => "SYND_LOOKUP"
  | .hcLoadG => "HC_LOAD_G"
  | .hcLoadHt => "HC_LOAD_HT"
  | .hcEncode _ => "HC_ENCODE"
  | .hcDecode _ _ => "HC_DECODE"

/-- One operand as the assembler writes it (R103): a handle `h<n>`, or a number. -/
inductive AsmOperand where
  | handle (h : Handle)
  | number (v : Nat)
  deriving DecidableEq, Repr

/-- The operands of a command in the order of the second column of R104.  In format HNB the index stands before the bit. -/
def Instr.asmOperands : Instr → List AsmOperand
  | .bvCreate n => [.number n.toNat]
  | .bvDelete ha | .bvLength ha | .bvDump ha | .bmDelete ha | .bmRows ha | .bmCols ha | .bmToData ha | .bmDump ha =>
      [.handle ha]
  | .bvSet ha n | .bvClear ha n | .bvGet ha n => [.handle ha, .number n.toNat]
  | .bvXor ha n b8 => [.handle ha, .number n.toNat, .number b8.toNat]
  | .bmCreate r c => [.number r.toNat, .number c.toNat]
  | .bmSet ha r c | .bmClear ha r c | .bmGet ha r c => [.handle ha, .number r.toNat, .number c.toNat]
  | .bmFromData b8 n => [.number b8.toNat, .number n.toNat]
  | .bmMultiply ha hb => [.handle ha, .handle hb]
  | .syndLookup b8 | .hcEncode b8 => [.number b8.toNat]
  | .hcLoadG | .hcLoadHt => []
  | .hcDecode b8 mi => [.number b8.toNat, .number mi.toNat]

/-- An operand's text: a handle with its number in decimal, and a number in decimal (R103). -/
def AsmOperand.text : AsmOperand → String
  | .handle h => "h" ++ toString h.toNat
  | .number v => toString v

/-- A command's line of assembler text: the mnemonic, then the operands separated by commas (R103, R104). -/
def Instr.asm (i : Instr) : String :=
  match i.asmOperands with
  | [] => i.mnemonic
  | ops => i.mnemonic ++ " " ++ ", ".intercalate (ops.map AsmOperand.text)

/-- The pseudo-instructions of R105. -/
inductive Pseudo where
  | bvToggle (ha : Handle) (n : Word)
  | bvPut (ha : Handle) (n : Word) (b : Bool)
  | encb (b : Byte)
  | decb (clo chi : Byte) (lo hi : Nibble)
  deriving DecidableEq, Repr

/-- The commands a pseudo-instruction stands for, in order (R105). -/
def Pseudo.expand : Pseudo → List Instr
  | .bvToggle ha n => [.bvXor ha n 1#8]
  | .bvPut ha n b => if b then [.bvSet ha n] else [.bvClear ha n]
  | .encb b => [.hcEncode (b &&& 0xF#8), .hcEncode (b >>> 4)]
  | .decb clo chi lo hi => [.hcDecode clo (lo.setWidth 32), .hcDecode chi (hi.setWidth 32)]

end Sys2Proof
end

