-- ==== Sys2Proof/Machine/State.lean ====
section
/-! DEFINITION. The block's state (R20), the port values of a step (R88, R100, R101, R35), the reasons a step can stop, and
reset (R37). -/

namespace Sys2Proof.Machine

/-! ### The storage pool (R25, R26, R36, R50) -/

/-- Storage bytes by byte number, in one canonical form: byte numbers strictly rising and no byte that is 0, since
storage is created zero-filled (R53).  `Memory.wf` in Machine/Ops.lean is the form. -/
abbrev Memory := List Host.Cell

/-- A bit vector object: a length fixed at creation and its storage (R25). -/
structure Vec where
  length  : Word
  storage : Memory
  deriving DecidableEq, Repr

/-- A bit matrix object: dimensions fixed at creation and the storage of its inner vector (R26, R27). -/
structure Mat where
  rows    : Half
  cols    : Half
  storage : Memory
  deriving DecidableEq, Repr

/-- A live object, of kind BV or BM. -/
inductive Object where
  | bv (v : Vec)
  | bm (m : Mat)
  deriving DecidableEq, Repr

/-- One slot: the ghost count of its allocations (R36), and its object, `none` when the slot is Free. -/
structure Slot where
  gen : Nat
  obj : Option Object
  deriving DecidableEq, Repr

/-- A slot as reset leaves it (R37). -/
def Slot.fresh : Slot := { gen := 0, obj := none }

/-! ### The ROM (R28 to R31) -/

/-- The read-only tables G, Ht and SYND.  No command writes them and reset does not change them (R30, R280), so the type has
one value, and no state holds another content.  Machine/Rom.lean says what an entry reads as. -/
structure Rom where
  deriving DecidableEq, Repr

/-! ### The fault codes (R235) -/

/-- The contract violations that a command can raise, in the order of their codes. -/
inductive FaultCode where
  | illegalOp
  | reservedField
  | nullHandle
  | badHandle
  | kindMismatch
  | bvIndex
  | bmIndex
  | dimMismatch
  | toDataShape
  | badBit
  deriving DecidableEq, Repr

/-! ### The ports -/

/-- STATUS of a response (R100). -/
inductive Status where
  | done
  | absent
  | fault
  deriving DecidableEq, Repr

/-- A response (R100). -/
structure Response where
  status : Status
  value  : Word
  deriving DecidableEq, Repr

/-- A record on the diagnostic channel (R101).  The grid is in row-major order. -/
inductive DiagRecord where
  | bvDump (length nbytes : Word) (bytes : List Byte)
  | bmDump (rows cols : Half) (grid : List Bool)
  deriving DecidableEq, Repr

/-- What the block put on its output ports in the last step: a response, a diagnostic record, a status port value.  These
are port values of one step and no state of the block (R20): every step writes all three and none reads them. -/
structure PortOut where
  response   : Option Response
  diag       : Option DiagRecord
  statusPort : Option CmdWord
  deriving DecidableEq, Repr

/-- The ports while nothing is answered. -/
def PortOut.idle : PortOut := { response := none, diag := none, statusPort := none }

/-- What the host can do to the block (R7, R35, R280): present a command word, apply reset, or read the status port.  A
presented command carries, beside the word, the generation at which the host was given each handle it presents: a handle
is a value bound to one allocation (R64, R36).  Hardware sees the word only. -/
inductive HostEvent where
  | command (word : CmdWord) (genA genB : Nat)
  | reset
  | readStatus (number : Nat)
  deriving DecidableEq, Repr

/-! ### The state -/

/-- The block's state (R20) with its ports and its configuration.
`slots` holds slot[1] .. slot[NUM_HANDLES] and gen[1] .. gen[NUM_HANDLES], slot[h] at place h - 1.
`rom` is the read-only tables (R28 to R31).
`halted`, `faultCode` and `faultCmd` are the fault status (R34).
`cfg` is the configuration, which no step changes (R38).
`inbox` is what the host is about to do, oldest first, and `out` what the ports showed in the last step: they are the
model's own fields (log entry 2). -/
structure State where
  cfg       : Config
  slots     : List Slot
  rom       : Rom
  halted    : Bool
  faultCode : BitVec 8
  faultCmd  : CmdWord
  inbox     : List HostEvent
  out       : PortOut
  deriving DecidableEq, Repr

/-- Why the machine has no next step. -/
inductive Fault where
  /-- Raised by `step`, and by every meaning, in a halted block: it accepts no command until reset (R238, U14).
  Safe: the block has no step there. -/
  | halted
  deriving DecidableEq, Repr

/-- Why the model gives a step no meaning. -/
inductive Refusal where
  /-- Raised by no arm: every instruction has its meaning.  Safe. -/
  | notModelled (mnemonic : String)
  /-- Raised by `step` when the host presents a handle whose object it has deleted and whose slot holds a later object
  (R64, U1: a model shall refuse such a program).  Safe: the block would act on the later object. -/
  | staleHandle
  deriving DecidableEq, Repr

/-- The state after reset, for any configuration (R37, R281). -/
def State.resetWith (cfg : Config) : State :=
  { cfg := cfg, slots := List.replicate cfg.numHandles Slot.fresh, rom := {}, halted := false,
    faultCode := 0x00#8, faultCmd := 0#64, inbox := [], out := PortOut.idle }

/-- The machine right after reset, with the reference capacities (log entry 1) and nothing at its ports. -/
def State.reset : State := State.resetWith Config.reference

end Sys2Proof.Machine
end

