-- ==== Sys2Proof/Machine/Rom.lean ====
section
/-! DEFINITION. The read-only tables G, Ht and SYND (R28 to R32): constants that no handle names and no command writes
(R30). -/

namespace Sys2Proof.Machine

/-- G[i][j], the 4 × 8 generator matrix (R28). -/
def Rom.g (_rom : Rom) (i j : Nat) : Bool :=
  if j < 4 then decide (i = j) else decide (i ≠ j - 4)

/-- Ht[i][j], the 8 × 4 parity-check transpose (R29). -/
def Rom.ht (_rom : Rom) (i j : Nat) : Bool :=
  if i < 4 then decide (i ≠ j) else decide (j = i - 4)

/-- An entry of the syndrome table (R31). -/
inductive SyndEntry where
  | noError
  | flip (k : Fin 8)
  | uncorrectable
  deriving DecidableEq, Repr

/-- The 16 entries of SYND in order (R31). -/
def syndTable : List SyndEntry :=
  [ .noError,       .flip 4,        .flip 5,        .uncorrectable,
    .flip 6,        .uncorrectable, .uncorrectable, .flip 3,
    .flip 7,        .uncorrectable, .uncorrectable, .flip 2,
    .uncorrectable, .flip 1,        .flip 0,        .uncorrectable ]

/-- SYND[s] (R31). -/
def Rom.synd (_rom : Rom) (s : Nibble) : SyndEntry := syndTable.getD s.toNat .uncorrectable

end Sys2Proof.Machine
end

