-- ==== Sys2Proof/Machine/Flags.lean ====
section
/-! DEFINITION. The block has no flags (R23).  What other machines report in flags it reports in the fields of a response:
this file holds the codes of those fields (R85, R86, R100, R235) and the layout of FSTAT (R34). -/

namespace Sys2Proof.Machine

/-- STATUS, two bits (R100). -/
def Status.code : Status → BitVec 2
  | .done => 0b00#2
  | .absent => 0b01#2
  | .fault => 0b10#2

/-- The fault code, eight bits (R235). -/
def FaultCode.code : FaultCode → BitVec 8
  | .illegalOp => 0x01#8
  | .reservedField => 0x02#8
  | .nullHandle => 0x03#8
  | .badHandle => 0x04#8
  | .kindMismatch => 0x05#8
  | .bvIndex => 0x06#8
  | .bmIndex => 0x07#8
  | .dimMismatch => 0x08#8
  | .toDataShape => 0x09#8
  | .badBit => 0x0A#8

/-- The decoder's three outcomes (R85). -/
inductive DecodeOutcome where
  | ok
  | corrected
  | uncorrectable
  deriving DecidableEq, Repr

/-- OUTCOME, two bits (R85). -/
def DecodeOutcome.code : DecodeOutcome → BitVec 2
  | .ok => 0b00#2
  | .corrected => 0b01#2
  | .uncorrectable => 0b10#2

/-- ENTRY, eight bits (R86): the tag in bits 1:0 and the position in bits 6:4. -/
def SyndEntry.code : SyndEntry → Byte
  | .noError => 0x00#8
  | .flip k => 0b01#8 ||| (BitVec.ofNat 8 k.val <<< 4)
  | .uncorrectable => 0b10#8

/-- VALUE of `HC_DECODE` (R102, R202): OUTCOME in bits 9:8, the message in bits 3:0, every other bit 0. -/
def decodeValue (oc : DecodeOutcome) (msg : Nibble) : Word := (oc.code ++ 0#4 ++ msg).setWidth 32

/-- FSTAT, 32 bits (R34): reserved 31:9, `halted` in bit 8, `fault_code` in bits 7:0. -/
def fstatWord (halted : Bool) (code : BitVec 8) : Word := 0#23 ++ BitVec.ofBool halted ++ code

end Sys2Proof.Machine
end

