-- ==== Sys2Proof/Machine/Ops.lean ====
section
/-! DEFINITION. The named operations: bytes and bits of one object's storage (R51 to R56), the pool (R36, R50, R61, R62), the
response (R100), fault entry (R236), reset (R280) and the status port (R35). -/

namespace Sys2Proof.Machine

/-! ### Storage of one object (R51 to R56) -/

/-- What a storage byte that is not listed reads as: storage is created zero-filled (R53). -/
def Memory.unlisted : Byte := 0#8

/-- Byte `k` of the storage. -/
def Memory.readByte : Memory → Nat → Byte
  | [], _ => Memory.unlisted
  | (a, b) :: m, k => if a = k then b else Memory.readByte m k

/-- The storage with byte `k` made `v`, in canonical form. -/
def Memory.writeByte : Memory → Nat → Byte → Memory
  | [], k, v => if v = Memory.unlisted then [] else [(k, v)]
  | (a, b) :: m, k, v =>
    if k < a then (if v = Memory.unlisted then (a, b) :: m else (k, v) :: (a, b) :: m)
    else if k = a then (if v = Memory.unlisted then m else (k, v) :: m)
    else (a, b) :: Memory.writeByte m k v

/-- Canonical from byte number `lo` on: byte numbers strictly rising, no byte that reads as an unlisted one. -/
def Memory.wfFrom : Nat → Memory → Bool
  | _, [] => true
  | lo, (a, b) :: m => decide (lo ≤ a) && decide (b ≠ Memory.unlisted) && Memory.wfFrom (a + 1) m

/-- The canonical form. -/
def Memory.wf (m : Memory) : Bool := Memory.wfFrom 0 m

/-- The mask of sub-bit position `p` (R51, decision D10): weight 2^p. -/
def bitMask (p : Nat) : Byte := 1#8 <<< p

/-- Bit `i`: byte `i/8`, position `i%8` (R51, R56). -/
def Memory.readBit (m : Memory) (i : Nat) : Bool := (m.readByte (i / 8)).getLsbD (i % 8)

/-- Bit `i` made `b`, by byte and mask (R56). -/
def Memory.writeBit (m : Memory) (i : Nat) (b : Bool) : Memory :=
  m.writeByte (i / 8)
    (if b then m.readByte (i / 8) ||| bitMask (i % 8) else m.readByte (i / 8) &&& ~~~ bitMask (i % 8))

/-- Bits 0 .. n-1 written from `f`, in ascending order. -/
def Memory.fill (f : Nat → Bool) : Nat → Memory → Memory
  | 0, m => m
  | n + 1, m => (Memory.fill f n m).writeBit n (f n)

/-- `ceil(bits/8)` (R12, R52). -/
def bytesFor (bits : Nat) : Nat := (bits + 7) / 8

/-- The storage's bytes 0 .. n-1 in ascending order (R57, R127). -/
def Memory.bytes (m : Memory) (n : Nat) : List Byte := (List.range n).map m.readByte

/-! ### Objects -/

/-- `bits(h)` of R56. -/
def Object.bits : Object → Nat
  | .bv v => v.length.toNat
  | .bm m => m.rows.toNat * m.cols.toNat

def Object.storage : Object → Memory
  | .bv v => v.storage
  | .bm m => m.storage

def Object.withStorage : Object → Memory → Object
  | .bv v, st => .bv { v with storage := st }
  | .bm m, st => .bm { m with storage := st }

/-- M(r, c) of a matrix (R55, R150). -/
def Mat.entry (m : Mat) (r c : Nat) : Bool := m.storage.readBit (r * m.cols.toNat + c)

/-- The zero-filled vector of a length (R53). -/
def Vec.zero (n : Word) : Vec := { length := n, storage := [] }

/-- The zero-filled matrix of a shape (R53). -/
def Mat.zero (r c : Half) : Mat := { rows := r, cols := c, storage := [] }

/-- A new matrix whose entries the creating command writes before it responds: entry (r, c) is `f r c`, written in
row-major order onto zero-filled storage (R53, R55). -/
def Mat.ofEntries (r c : Half) (f : Nat → Nat → Bool) : Mat :=
  { rows := r, cols := c,
    storage := Memory.fill (fun e => f (e / c.toNat) (e % c.toNat)) (r.toNat * c.toNat) [] }

/-- The storage bytes that a slot's object takes (R61, decision D36). -/
def Slot.bytes (sl : Slot) : Nat :=
  match sl.obj with
  | none => 0
  | some o => bytesFor o.bits

/-! ### The pool (R36, R50, R61, R62) -/

/-- slot[h].  Handle 0 and handles above NUM_HANDLES name no slot, and read as a fresh one. -/
def State.slot (s : State) : Nat → Slot
  | 0 => Slot.fresh
  | k + 1 => s.slots.getD k Slot.fresh

/-- slot[h] made `sl`.  A handle that names no slot changes nothing. -/
def State.setSlot (s : State) (h : Nat) (sl : Slot) : State :=
  match h with
  | 0 => s
  | k + 1 => { s with slots := s.slots.set k sl }

/-- The object slot[h] holds, `none` when it is Free. -/
def State.obj (s : State) (h : Nat) : Option Object := (s.slot h).obj

/-- gen[h] (R36). -/
def State.gen (s : State) (h : Nat) : Nat := (s.slot h).gen

/-- `used_bytes` (R36): the sum of `ceil(bits/8)` over live objects. -/
def State.usedBytes (s : State) : Nat := (s.slots.map Slot.bytes).sum

/-- The least h in 1..NUM_HANDLES with slot[h] Free (R61, decision D9). -/
def State.freeHandle (s : State) : Option Nat :=
  ((List.range s.cfg.numHandles).map (· + 1)).find? (fun h => (s.obj h).isNone)

/-- `Alloc` (R61): a slot and storage for `o`, or ABSENT.  `o` comes with the entries that the creating command writes
into its zero-filled storage before it responds (R53). -/
def alloc (o : Object) (s : State) : Option (Nat × State) :=
  match s.freeHandle with
  | none => none
  | some h =>
    if s.usedBytes + bytesFor o.bits > s.cfg.storageBytes then none
    else some (h, s.setSlot h { gen := s.gen h + 1, obj := some o })

/-- `Free` (R62): the slot becomes Free, and its generation count stays. -/
def free (h : Nat) (s : State) : State := s.setSlot h { gen := s.gen h, obj := none }

/-- `MemRead((h, i), 1)` (R56). -/
def memRead (s : State) (h i : Nat) : Bool :=
  match s.obj h with
  | none => false
  | some o => o.storage.readBit i

/-- `MemWrite((h, i), 1, b)` (R56). -/
def memWrite (h i : Nat) (b : Bool) (s : State) : State :=
  match s.obj h with
  | none => s
  | some o => s.setSlot h { gen := s.gen h, obj := some (o.withStorage (o.storage.writeBit i b)) }

/-! ### The response (R100) -/

/-- `respond(status, value)`, with no diagnostic record. -/
def respond (st : Status) (v : Word) (s : State) : State :=
  { s with out := { response := some { status := st, value := v }, diag := none, statusPort := none } }

/-- `diag(record)` and then `respond(DONE, value)` (R101). -/
def respondDump (d : DiagRecord) (v : Word) (s : State) : State :=
  { s with out := { response := some { status := .done, value := v }, diag := some d, statusPort := none } }

/-- The end of every create (R120, R151, R157, R160, R197, R198): `Alloc`, then DONE with the new handle, or ABSENT. -/
def create (o : Object) (s : State) : State :=
  match alloc o s with
  | none => respond .absent 0#32 s
  | some (h, t) => respond .done (BitVec.ofNat 32 h) t

/-! ### Fault entry and the way back (R236, R238, R239, R280) -/

/-- `raise Fault(code)` during command word `w` (R236): the block halts, the code and the word are recorded, and the
response is FAULT with the code.  Nothing else changes. -/
def raiseFault (c : FaultCode) (w : CmdWord) (s : State) : State :=
  respond .fault (c.code.setWidth 32) { s with halted := true, faultCode := c.code, faultCmd := w }

/-- Reset (R280): every slot Free, every generation 0, the fault status cleared.  It is the only way out of a fault
(R238, R239).  The configuration (R38) and what the host does next stay. -/
def hostReset (s : State) : State :=
  { s with slots := s.slots.map (fun _ => Slot.fresh), halted := false, faultCode := 0x00#8, faultCmd := 0#64,
           out := PortOut.idle }

/-- How a command ends (R236 to R238, R240): a halted block has no step; a check that fails takes the fault, from the
state before the command; otherwise the command's own effect stands. -/
def perform (i : Instr) (s : State) (body : Except FaultCode State) : Host.Outcome State Fault Refusal :=
  if s.halted then .fault .halted
  else
    match body with
    | .ok t => .next t
    | .error c => .next (raiseFault c (encode i) s)

/-- The fault of a word that is no command (R95). -/
def decodeFault : DecodeError → FaultCode
  | .illegalOp => .illegalOp
  | .reservedField => .reservedField

/-! ### The status port (R35) -/

/-- The value at the status port: FSTAT at number 0, FCMD at number 1, 0 at any other. -/
def statusRead (number : Nat) (s : State) : CmdWord :=
  match number with
  | 0 => (fstatWord s.halted s.faultCode).setWidth 64
  | 1 => s.faultCmd
  | _ => 0#64

/-- A read of the status port: its value goes out, and no state changes (R35). -/
def hostReadStatus (number : Nat) (s : State) : State :=
  { s with out := { response := none, diag := none, statusPort := some (statusRead number s) } }

/-- Nothing is presented: nothing happens (R241), and the ports are idle. -/
def hostIdle (s : State) : State := { s with out := PortOut.idle }

/-! ### Handles as values (R64) -/

/-- The host presents a handle that it was given at generation `g`, and the slot now holds an object of another
allocation (R36, R64). -/
def State.staleHandle (s : State) (h : Handle) (g : Nat) : Bool :=
  (s.obj h.toNat).isSome && decide (s.gen h.toNat ≠ g)

/-- A command presents a stale handle as HA or HB.  A format without the operand presents handle 0, which is never
stale. -/
def State.staleUse (s : State) (i : Instr) (genA genB : Nat) : Bool :=
  s.staleHandle i.operandHA genA || s.staleHandle i.operandHB genB

/-- The host presents word `w` next, with handles that it was given at the generations the pool has now. -/
def State.present (s : State) (w : CmdWord) : State :=
  { s with inbox := .command w (s.gen (fieldHA w).toNat) (s.gen (fieldHB w).toNat) :: s.inbox }

end Sys2Proof.Machine
end

