-- ==== Sys2Proof/Machine/Operands.lean ====
section
/-! DEFINITION. The operand checks of the commands, in the order of R240: reserved bits (R92), the bit operand (R128), handles
(R63), and the index and shape checks (R123, R154, R159, R160).  A check answers the object it found, or the fault. -/

namespace Sys2Proof.Machine

/-- R92 for a command term: the fault of a word with a reserved bit set. -/
def checkReserved (i : Instr) : Except FaultCode Unit :=
  if i.wellFormed then .ok () else .error .reservedField

/-- R128: the bit operand of `BV_XOR` is 0 or 1. -/
def checkBit (b8 : Byte) : Except FaultCode Unit :=
  if b8.toNat > 1 then .error .badBit else .ok ()

/-- The part of `Resolve` that does not look at the kind (R63): NULL_HANDLE, then BAD_HANDLE. -/
def lookup (h : Handle) (s : State) : Except FaultCode Object :=
  if h = 0#8 then .error .nullHandle
  else if h.toNat > s.cfg.numHandles then .error .badHandle
  else
    match s.obj h.toNat with
    | none => .error .badHandle
    | some o => .ok o

/-- `Resolve(h, BV)` (R63). -/
def resolveBv (h : Handle) (s : State) : Except FaultCode Vec :=
  match lookup h s with
  | .error c => .error c
  | .ok (.bm _) => .error .kindMismatch
  | .ok (.bv v) => .ok v

/-- `Resolve(h, BM)` (R63). -/
def resolveBm (h : Handle) (s : State) : Except FaultCode Mat :=
  match lookup h s with
  | .error c => .error c
  | .ok (.bv _) => .error .kindMismatch
  | .ok (.bm m) => .ok m

/-- `CheckIndex` (R123). -/
def checkIndex (v : Vec) (i : Word) : Except FaultCode Unit :=
  if i.toNat ≥ v.length.toNat then .error .bvIndex else .ok ()

/-- `CheckRC` (R154): each coordinate on its own. -/
def checkRC (m : Mat) (r c : Half) : Except FaultCode Unit :=
  if r.toNat ≥ m.rows.toNat ∨ c.toNat ≥ m.cols.toNat then .error .bmIndex else .ok ()

/-- The shape check of `BM_MULTIPLY` (R160). -/
def checkDims (a b : Mat) : Except FaultCode Unit :=
  if a.cols.toNat ≠ b.rows.toNat then .error .dimMismatch else .ok ()

/-- The shape check of `BM_TO_DATA` (R159). -/
def checkPackable (m : Mat) : Except FaultCode Unit :=
  if m.rows.toNat ≠ 1 ∨ m.cols.toNat > 8 then .error .toDataShape else .ok ()

/-- The flat bit index of entry (r, c) in a matrix's inner vector (R55). -/
def flatIndex (m : Mat) (r c : Half) : Nat := r.toNat * m.cols.toNat + c.toNat

end Sys2Proof.Machine
end

