-- ==== Sys2Proof/Machine/BitMatrix.lean ====
section
/-! DEFINITION. GF(2) arithmetic on entries (R13), the packing of a row (R157, R159), and the commands of
bitmatrix_gf2_mult (41_bitmatrix.md). -/

namespace Sys2Proof.Machine

/-! ### Values -/

/-- Exclusive-or of `f k` over k < n, from k = 0 up (R160). -/
def xorSum (f : Nat → Bool) : Nat → Bool
  | 0 => false
  | n + 1 => xorSum f n ^^ f n

/-- Entry (i, j) of the GF(2) product over an inner dimension n (R160, R192). -/
def mulEntry (n : Nat) (a b : Nat → Nat → Bool) (i j : Nat) : Bool :=
  xorSum (fun k => a i k && b k j) n

/-- Column i into bit i for i < n, from column 0 up (R159, R192). -/
def packBits (f : Nat → Bool) : Nat → Byte
  | 0 => 0#8
  | n + 1 => packBits f n ||| ((BitVec.ofBool (f n)).setWidth 8 <<< n)

/-- The row that the low bits of a byte make: column i is bit i (R157, R192). -/
def rowOfByte (b : Byte) (_r c : Nat) : Bool := b.getLsbD c

/-- The grid of a matrix in row-major order (R101, R162). -/
def Mat.grid (m : Mat) : List Bool :=
  (List.range m.rows.toNat).flatMap fun r => (List.range m.cols.toNat).map fun c => m.entry r c

/-! ### Commands -/

/-- `BM_CREATE r, c` (R151). -/
def execBmCreate (r c : Half) (s : State) : Host.Outcome State Fault Refusal :=
  perform (.bmCreate r c) s (.ok (create (.bm (Mat.zero r c)) s))

/-- `BM_DELETE ha` (R152): handle 0 is a no-op. -/
def execBmDelete (ha : Handle) (s : State) : Host.Outcome State Fault Refusal :=
  perform (.bmDelete ha) s
    (if ha = 0#8 then .ok (respond .done 0#32 s)
     else do
      let _ ← resolveBm ha s
      .ok (respond .done 0#32 (free ha.toNat s)))

/-- `BM_ROWS ha` (R153). -/
def execBmRows (ha : Handle) (s : State) : Host.Outcome State Fault Refusal :=
  perform (.bmRows ha) s do
    let m ← resolveBm ha s
    .ok (respond .done (m.rows.setWidth 32) s)

/-- `BM_COLS ha` (R163). -/
def execBmCols (ha : Handle) (s : State) : Host.Outcome State Fault Refusal :=
  perform (.bmCols ha) s do
    let m ← resolveBm ha s
    .ok (respond .done (m.cols.setWidth 32) s)

/-- `BM_SET ha, r, c` (R155). -/
def execBmSet (ha : Handle) (r c : Half) (s : State) : Host.Outcome State Fault Refusal :=
  perform (.bmSet ha r c) s do
    let m ← resolveBm ha s
    checkRC m r c
    .ok (respond .done 0#32 (memWrite ha.toNat (flatIndex m r c) true s))

/-- `BM_CLEAR ha, r, c` (R156). -/
def execBmClear (ha : Handle) (r c : Half) (s : State) : Host.Outcome State Fault Refusal :=
  perform (.bmClear ha r c) s do
    let m ← resolveBm ha s
    checkRC m r c
    .ok (respond .done 0#32 (memWrite ha.toNat (flatIndex m r c) false s))

/-- `BM_GET ha, r, c` (R158). -/
def execBmGet (ha : Handle) (r c : Half) (s : State) : Host.Outcome State Fault Refusal :=
  perform (.bmGet ha r c) s do
    let m ← resolveBm ha s
    checkRC m r c
    .ok (respond .done ((BitVec.ofBool (memRead s ha.toNat (flatIndex m r c))).setWidth 32) s)

/-- `BM_FROM_DATA b, n` (R157): the length limit comes before the allocation (R240), and is no fault. -/
def execBmFromData (b8 : Byte) (n : Word) (s : State) : Host.Outcome State Fault Refusal :=
  perform (.bmFromData b8 n) s
    (if n.toNat > 8 then .ok (respond .absent 0#32 s)
     else .ok (create (.bm (Mat.ofEntries 1#16 (n.setWidth 16) (rowOfByte b8))) s))

/-- `BM_TO_DATA ha` (R159). -/
def execBmToData (ha : Handle) (s : State) : Host.Outcome State Fault Refusal :=
  perform (.bmToData ha) s do
    let m ← resolveBm ha s
    checkPackable m
    .ok (respond .done ((packBits (m.entry 0) m.cols.toNat).setWidth 32) s)

/-- `BM_MULTIPLY ha, hb` (R160): A is checked before B, both before the dimensions, and all before the allocation. -/
def execBmMultiply (ha hb : Handle) (s : State) : Host.Outcome State Fault Refusal :=
  perform (.bmMultiply ha hb) s do
    let a ← resolveBm ha s
    let b ← resolveBm hb s
    checkDims a b
    .ok (create (.bm (Mat.ofEntries a.rows b.cols (mulEntry a.cols.toNat a.entry b.entry))) s)

/-- `BM_DUMP ha` (R162): VALUE is rows in bits 31:16 and columns in bits 15:0. -/
def execBmDump (ha : Handle) (s : State) : Host.Outcome State Fault Refusal :=
  perform (.bmDump ha) s do
    let m ← resolveBm ha s
    .ok (respondDump (.bmDump m.rows m.cols m.grid) (m.rows ++ m.cols) s)

end Sys2Proof.Machine
end

