-- ==== Sys2Proof/Machine/BitVector.lean ====
section
/-! DEFINITION. The commands of bitvector_storage (40_bitvector.md). -/

namespace Sys2Proof.Machine

/-- `BV_CREATE n` (R120). -/
def execBvCreate (n : Word) (s : State) : Host.Outcome State Fault Refusal :=
  perform (.bvCreate n) s (.ok (create (.bv (Vec.zero n)) s))

/-- `BV_DELETE ha` (R121): handle 0 is a no-op. -/
def execBvDelete (ha : Handle) (s : State) : Host.Outcome State Fault Refusal :=
  perform (.bvDelete ha) s
    (if ha = 0#8 then .ok (respond .done 0#32 s)
     else do
      let _ ← resolveBv ha s
      .ok (respond .done 0#32 (free ha.toNat s)))

/-- `BV_LENGTH ha` (R122). -/
def execBvLength (ha : Handle) (s : State) : Host.Outcome State Fault Refusal :=
  perform (.bvLength ha) s do
    let v ← resolveBv ha s
    .ok (respond .done v.length s)

/-- `BV_SET ha, i` (R124). -/
def execBvSet (ha : Handle) (n : Word) (s : State) : Host.Outcome State Fault Refusal :=
  perform (.bvSet ha n) s do
    let v ← resolveBv ha s
    checkIndex v n
    .ok (respond .done 0#32 (memWrite ha.toNat n.toNat true s))

/-- `BV_CLEAR ha, i` (R125). -/
def execBvClear (ha : Handle) (n : Word) (s : State) : Host.Outcome State Fault Refusal :=
  perform (.bvClear ha n) s do
    let v ← resolveBv ha s
    checkIndex v n
    .ok (respond .done 0#32 (memWrite ha.toNat n.toNat false s))

/-- `BV_GET ha, i` (R126). -/
def execBvGet (ha : Handle) (n : Word) (s : State) : Host.Outcome State Fault Refusal :=
  perform (.bvGet ha n) s do
    let v ← resolveBv ha s
    checkIndex v n
    .ok (respond .done ((BitVec.ofBool (memRead s ha.toNat n.toNat)).setWidth 32) s)

/-- `BV_XOR ha, i, b` (R128): the bit operand is checked before the handle (R240). -/
def execBvXor (ha : Handle) (n : Word) (b8 : Byte) (s : State) : Host.Outcome State Fault Refusal :=
  perform (.bvXor ha n b8) s do
    checkBit b8
    let v ← resolveBv ha s
    checkIndex v n
    .ok (respond .done 0#32
      (memWrite ha.toNat n.toNat (memRead s ha.toNat n.toNat ^^ b8.getLsbD 0) s))

/-- `BV_DUMP ha` (R127). -/
def execBvDump (ha : Handle) (s : State) : Host.Outcome State Fault Refusal :=
  perform (.bvDump ha) s do
    let v ← resolveBv ha s
    .ok (respondDump
      (.bvDump v.length (BitVec.ofNat 32 (bytesFor v.length.toNat)) (v.storage.bytes (bytesFor v.length.toNat)))
      v.length s)

end Sys2Proof.Machine
end

