-- ==== Sys2Proof/Machine/Codec.lean ====
section
/-! DEFINITION. The codec's pure functions (R192) and the commands of syndrome_lookup_table, hamming_8_4_encoder and
hamming_8_4_decoder (42_hamming_codec.md).  The working matrices are the units' own (R191): they are values here, not objects. -/

namespace Sys2Proof.Machine

/-! ### Values (R192) -/

/-- `EncodeFn(b)`: the row of b's low nibble times G, packed. -/
def encodeFn (rom : Rom) (b : Byte) : Byte := packBits (mulEntry 4 (rowOfByte b) rom.g 0) 8

/-- `SyndromeFn(c)`: the row of c times Ht, packed. -/
def syndromeFn (rom : Rom) (c : Byte) : Nibble := (packBits (mulEntry 8 (rowOfByte c) rom.ht 0) 4).setWidth 4

/-- The low nibble `b[3:0]` (R10). -/
def lowNibble (b : Byte) : Nibble := b.extractLsb' 0 4

/-- The high nibble `b[7:4]` (R10). -/
def highNibble (b : Byte) : Nibble := b.extractLsb' 4 4

/-- The decoder on a received byte and the host's retained message (R202): the outcome and the message out. -/
def decodeFn (rom : Rom) (c : Byte) (mi : Nibble) : DecodeOutcome × Nibble :=
  match rom.synd (syndromeFn rom c) with
  | .noError => (.ok, lowNibble c)
  | .flip k => (.corrected, lowNibble (c ^^^ (1#8 <<< k.val)))
  | .uncorrectable => (.uncorrectable, mi)

/-! ### Commands -/

/-- `SYND_LOOKUP s` (R196). -/
def execSyndLookup (b8 : Byte) (s : State) : Host.Outcome State Fault Refusal :=
  perform (.syndLookup b8) s do
    checkReserved (.syndLookup b8)
    .ok (respond .done ((s.rom.synd (lowNibble b8)).code.setWidth 32) s)

/-- `HC_LOAD_G` (R197). -/
def execHcLoadG (s : State) : Host.Outcome State Fault Refusal :=
  perform .hcLoadG s (.ok (create (.bm (Mat.ofEntries 4#16 8#16 s.rom.g)) s))

/-- `HC_LOAD_HT` (R198). -/
def execHcLoadHt (s : State) : Host.Outcome State Fault Refusal :=
  perform .hcLoadHt s (.ok (create (.bm (Mat.ofEntries 8#16 4#16 s.rom.ht)) s))

/-- `HC_ENCODE b` (R200). -/
def execHcEncode (b8 : Byte) (s : State) : Host.Outcome State Fault Refusal :=
  perform (.hcEncode b8) s (.ok (respond .done ((encodeFn s.rom b8).setWidth 32) s))

/-- `HC_DECODE c, mi` (R202). -/
def execHcDecode (b8 : Byte) (mi : Word) (s : State) : Host.Outcome State Fault Refusal :=
  perform (.hcDecode b8 mi) s do
    checkReserved (.hcDecode b8 mi)
    .ok (respond .done
      (decodeValue (decodeFn s.rom b8 (mi.setWidth 4)).1 (decodeFn s.rom b8 (mi.setWidth 4)).2) s)

end Sys2Proof.Machine
end

