-- ==== Sys2Proof/Machine/Dispatch.lean ====
section
/-! DEFINITION. The dispatch: one arm per command (R93). -/

namespace Sys2Proof.Machine

def exec (i : Instr) (s : State) : Host.Outcome State Fault Refusal :=
  match i with
  -- bitvector_storage
  | .bvCreate n => Sys2Proof.Machine.execBvCreate n s
  | .bvDelete ha => Sys2Proof.Machine.execBvDelete ha s
  | .bvLength ha => Sys2Proof.Machine.execBvLength ha s
  | .bvSet ha n => Sys2Proof.Machine.execBvSet ha n s
  | .bvClear ha n => Sys2Proof.Machine.execBvClear ha n s
  | .bvGet ha n => Sys2Proof.Machine.execBvGet ha n s
  | .bvXor ha n b8 => Sys2Proof.Machine.execBvXor ha n b8 s
  | .bvDump ha => Sys2Proof.Machine.execBvDump ha s
  -- bitmatrix_gf2_mult
  | .bmCreate r c => Sys2Proof.Machine.execBmCreate r c s
  | .bmDelete ha => Sys2Proof.Machine.execBmDelete ha s
  | .bmRows ha => Sys2Proof.Machine.execBmRows ha s
  | .bmCols ha => Sys2Proof.Machine.execBmCols ha s
  | .bmSet ha r c => Sys2Proof.Machine.execBmSet ha r c s
  | .bmClear ha r c => Sys2Proof.Machine.execBmClear ha r c s
  | .bmGet ha r c => Sys2Proof.Machine.execBmGet ha r c s
  | .bmFromData b8 n => Sys2Proof.Machine.execBmFromData b8 n s
  | .bmToData ha => Sys2Proof.Machine.execBmToData ha s
  | .bmMultiply ha hb => Sys2Proof.Machine.execBmMultiply ha hb s
  | .bmDump ha => Sys2Proof.Machine.execBmDump ha s
  -- syndrome_lookup_table, hamming_8_4_encoder, hamming_8_4_decoder
  | .syndLookup b8 => Sys2Proof.Machine.execSyndLookup b8 s
  | .hcLoadG => Sys2Proof.Machine.execHcLoadG s
  | .hcLoadHt => Sys2Proof.Machine.execHcLoadHt s
  | .hcEncode b8 => Sys2Proof.Machine.execHcEncode b8 s
  | .hcDecode b8 mi => Sys2Proof.Machine.execHcDecode b8 mi s

end Sys2Proof.Machine
end

