-- ==== Sys2Proof/Machine/Port.lean ====
section
/-! DEFINITION. The command port (R88): how the block accepts a presented word. -/

namespace Sys2Proof.Machine

/-- The block accepts a presented command (R95, R238, R240): a halted block accepts none; a word that is no command
faults; a stale handle is refused (R64); otherwise the command is performed. -/
def acceptCommand (w : CmdWord) (genA genB : Nat) (s : State) : Host.Outcome State Fault Refusal :=
  if s.halted then .fault .halted
  else
    match decode w with
    | .error e => .next (raiseFault (decodeFault e) w s)
    | .ok i => if s.staleUse i genA genB then .refused .staleHandle else exec i s

/-- Nothing is presented (R238, R241): a halted block has no step, and otherwise nothing happens. -/
def acceptNothing (s : State) : Host.Outcome State Fault Refusal :=
  if s.halted then .fault .halted else .next (hostIdle s)

/-- The machine with the word of a table row presented next. -/
def presentTableWord (s : State) (nbits w : Nat) : State := s.present (BitVec.ofNat 64 (w % 2 ^ nbits))

end Sys2Proof.Machine
end

