-- ==== Sys2Proof/Machine/Step.lean ====
section
/-! DEFINITION. One step (R7): the block takes what the host does next and answers it, as one atomic step. -/

namespace Sys2Proof.Machine

/-- One step.  The block has no program counter (R22): its next command is the next word that the host presents. -/
def step (s : State) : Host.Outcome State Fault Refusal :=
  match s.inbox with
  | [] => acceptNothing s
  | .command w genA genB :: rest => acceptCommand w genA genB { s with inbox := rest }
  | .reset :: rest => .next (hostReset { s with inbox := rest })
  | .readStatus number :: rest => .next (hostReadStatus number { s with inbox := rest })

/-- The machine with one more word presented, ahead of all else, so that the next step performs it (log entry 2). -/
def State.withFetchWord (s : State) (nbits w : Nat) : State := presentTableWord s nbits w

end Sys2Proof.Machine
end

