-- ==== Sys2Proof/Machine/HostDriver.lean ====
section
/-! DEFINITION. The host's two drivers (R255 to R260), as programs that present commands to the block and read its responses.
They are no part of the block: their lanes and counters are host state (R20), and their open parameters are `HostConfig`. -/

namespace Sys2Proof.Machine

/-- Why a driver stops. -/
inductive HostError where
  /-- The block has no step: it is halted (R238). -/
  | blockStopped
  /-- The response is not DONE (R263). -/
  | notDone
  /-- A codeword byte has no partner and HOST_ODD_TAIL is `fault` (R257). -/
  | oddTail
  deriving DecidableEq, Repr

/-- The host presents a command, and the block performs it: the VALUE of a DONE response, and the block after it. -/
def submit (i : Instr) (s : State) : Except HostError (Word × State) :=
  match step (s.present (encode i)) with
  | .next t =>
    match t.out.response with
    | some { status := .done, value := v } => .ok (v, t)
    | _ => .error .notDone
  | _ => .error .blockStopped

/-! ### The encoder driver -/

/-- One input byte (R255): the low nibble's codeword, then the high nibble's. -/
def hostEncodeByte (b : Byte) (s : State) : Except HostError (List Byte × State) := do
  let lo ← submit (.hcEncode ((lowNibble b).setWidth 8)) s
  let hi ← submit (.hcEncode ((highNibble b).setWidth 8)) lo.2
  .ok ([lo.1.setWidth 8, hi.1.setWidth 8], hi.2)

/-- A stream of input bytes, in order (R255). -/
def hostEncode : List Byte → State → Except HostError (List Byte × State)
  | [], s => .ok ([], s)
  | b :: bs, s => do
    let first ← hostEncodeByte b s
    let rest ← hostEncode bs first.2
    .ok (first.1 ++ rest.1, rest.2)

/-! ### The decoder driver -/

/-- The decoder's host state (R256, R259): the two lanes, `none` while `undefined` and unwritten (R258), the codeword bytes
read and the output bytes written so far, and the two counters. -/
structure HostDecoder where
  lower       : Option Nibble
  upper       : Option Nibble
  bytesIn     : Nat
  bytesOut    : Nat
  corrected   : Nat
  uncorrected : Nat
  deriving DecidableEq, Repr

/-- Before the first pair (R258). -/
def HostDecoder.start (cfg : HostConfig) : HostDecoder :=
  { lower := cfg.msgInitLo, upper := cfg.msgInitHi, bytesIn := 0, bytesOut := 0, corrected := 0, uncorrected := 0 }

/-- One codeword of a lane (R256): OUTCOME, the lane after it, and the block after it.  An `undefined` lane sends some
nibble as MI, and stays undefined when that nibble is what comes back (R258). -/
def hostDecodeLane (lane : Option Nibble) (n : Nat) (c : Byte) (s : State) :
    Except HostError (BitVec 2 × Option Nibble × State) := do
  let r ← submit (.hcDecode c ((lane.getD (HostConfig.unwrittenLane n)).setWidth 32)) s
  .ok (r.1.extractLsb' 8 2,
    if r.1.extractLsb' 8 2 = DecodeOutcome.uncorrectable.code then lane else some (r.1.extractLsb' 0 4), r.2)

/-- How many of two outcomes are `oc` (R256). -/
def countOutcome (oc : DecodeOutcome) (lo hi : BitVec 2) : Nat :=
  (if lo = oc.code then 1 else 0) + (if hi = oc.code then 1 else 0)

/-- The output byte `(upper << 4) | lower` (R256), with no value while a lane has none (R258). -/
def packLanes (lower upper : Option Nibble) : Option Byte :=
  match lower, upper with
  | some lo, some hi => some (hi ++ lo)
  | _, _ => none

/-- One pair of codeword bytes (R256, R260): the output byte is written whatever the outcomes. -/
def hostDecodePair (cLo cHi : Byte) (h : HostDecoder) (s : State) :
    Except HostError (Option Byte × HostDecoder × State) := do
  let lo ← hostDecodeLane h.lower h.bytesIn cLo s
  let hi ← hostDecodeLane h.upper (h.bytesIn + 1) cHi lo.2.2
  .ok (packLanes lo.2.1 hi.2.1,
    { lower := lo.2.1, upper := hi.2.1, bytesIn := h.bytesIn + 2, bytesOut := h.bytesOut + 1,
      corrected := h.corrected + countOutcome .corrected lo.1 hi.1,
      uncorrected := h.uncorrected + countOutcome .uncorrectable lo.1 hi.1 },
    hi.2.2)

/-- A stream of codeword bytes, in pairs (R256), with a trailing byte as HOST_ODD_TAIL says (R257). -/
def hostDecode (cfg : HostConfig) :
    List Byte → HostDecoder → State → Except HostError (List (Option Byte) × HostDecoder × State)
  | [], h, s => .ok ([], h, s)
  | [_], h, s =>
    match cfg.oddTail with
    | .drop => .ok ([], h, s)
    | .fault => .error .oddTail
  | cLo :: cHi :: cs, h, s => do
    let first ← hostDecodePair cLo cHi h s
    let rest ← hostDecode cfg cs first.2.1 first.2.2
    .ok (first.1 :: rest.1, rest.2)

/-- What the decoder reports with `-v` (R259). -/
structure HostReport where
  bytesProcessed : Nat
  uncorrected    : Nat
  corrected      : Nat
  errorRate      : Option Rat
  deriving DecidableEq, Repr

/-- The statistic of processed bytes (R259, HOST_BYTES_COUNTED). -/
def HostDecoder.processed (cfg : HostConfig) (h : HostDecoder) : Nat :=
  match cfg.bytesCounted with
  | .inputCodewordBytes => h.bytesIn
  | .outputBytes => h.bytesOut

/-- The report (R259): error rate = uncorrected / bytes_processed, and HOST_RATE_ZERO when no byte was processed. -/
def HostDecoder.report (cfg : HostConfig) (h : HostDecoder) : HostReport :=
  { bytesProcessed := h.processed cfg
    uncorrected := h.uncorrected
    corrected := h.corrected
    errorRate :=
      if h.processed cfg = 0 then cfg.rateZero
      else some ((h.uncorrected : Rat) / (h.processed cfg : Rat)) }

end Sys2Proof.Machine
end

