-- ==== Sys2Proof/Safety.lean ====
section
/-! DEFINITION. The terms that the statements use: the invariant of the block, a safe run, live objects, room in the pool, and
the states that a fault and a create leave. -/

namespace Sys2Proof.Machine

/-! ### The invariant -/

/-- Every bit that storage holds lies below the object's bit count: no byte outside `ceil(bits/8)` (R52), and padding
bits 0 (R54). -/
def Memory.within (bits : Nat) (m : Memory) : Bool :=
  m.all fun cell => (List.range 8).all fun p => !cell.2.getLsbD p || decide (cell.1 * 8 + p < bits)

/-- An object's storage is canonical and holds no bit outside the object. -/
def Object.wf (o : Object) : Bool := o.storage.wf && o.storage.within o.bits

/-- A live slot has been allocated at least once (R36) and holds a well-formed object. -/
def Slot.wf (sl : Slot) : Bool :=
  match sl.obj with
  | none => true
  | some o => o.wf && decide (1 ≤ sl.gen)

/-- The fault status is that of a block that has taken no fault, or one of the codes of R235. -/
def State.faultStatusWf (s : State) : Bool :=
  if s.halted then decide (1 ≤ s.faultCode.toNat) && decide (s.faultCode.toNat ≤ 0x0A)
  else decide (s.faultCode = 0#8) && decide (s.faultCmd = 0#64)

/-- The invariant: a legal configuration, NUM_HANDLES slots, live objects within STORAGE_BYTES (R61), every slot
well-formed, and the fault status in order (R34). -/
def State.inv (s : State) : Bool :=
  s.cfg.legal && decide (s.slots.length = s.cfg.numHandles) && decide (s.usedBytes ≤ s.cfg.storageBytes) &&
    s.slots.all Slot.wf && s.faultStatusWf

/-! ### A safe run (R238) -/

/-- A run of `k` steps that ends in `t` without a fault of the block: no step stopped, and the block is not halted. -/
def SafeRun (k : Nat) (s t : State) : Prop :=
  Host.Core.run Sys2Proof.core k s = .next t ∧ t.halted = false

/-! ### Objects, handles and room -/

/-- Handle `h` names the live bit vector `v` (R50). -/
def LiveBv (s : State) (h : Handle) (v : Vec) : Prop :=
  h ≠ 0#8 ∧ h.toNat ≤ s.cfg.numHandles ∧ s.obj h.toNat = some (.bv v)

/-- Handle `h` names the live bit matrix `m` (R50). -/
def LiveBm (s : State) (h : Handle) (m : Mat) : Prop :=
  h ≠ 0#8 ∧ h.toNat ≤ s.cfg.numHandles ∧ s.obj h.toNat = some (.bm m)

/-- `h` is the least free handle (R61). -/
def LeastFree (s : State) (h : Nat) : Prop :=
  1 ≤ h ∧ h ≤ s.cfg.numHandles ∧ s.obj h = none ∧ ∀ k, 1 ≤ k → k < h → s.obj k ≠ none

/-- The pool has a slot for every handle 1..NUM_HANDLES (R50). -/
def State.poolSized (s : State) : Prop := s.slots.length = s.cfg.numHandles

/-- A slot is free and `ceil(bits/8)` bytes fit (R61). -/
def HasRoom (s : State) (bits : Nat) : Prop :=
  (∃ h, 1 ≤ h ∧ h ≤ s.cfg.numHandles ∧ s.obj h = none) ∧ s.usedBytes + bytesFor bits ≤ s.cfg.storageBytes

/-! ### What a command leaves -/

/-- The ports of a response without a diagnostic record (R100). -/
def answers (st : Status) (v : Word) : PortOut :=
  { response := some { status := st, value := v }, diag := none, statusPort := none }

/-- The ports of a dump: its record, and DONE with its value (R101). -/
def dumps (d : DiagRecord) (v : Word) : PortOut :=
  { response := some { status := .done, value := v }, diag := some d, statusPort := none }

/-- The state after the fault `code` during word `w` (R236): the fault status is written, the response is FAULT, and
nothing else differs. -/
def State.afterFault (s : State) (code : BitVec 8) (w : CmdWord) : State :=
  { s with halted := true, faultCode := code, faultCmd := w, out := answers .fault (code.setWidth 32) }

/-- Everything outside the pool and the output ports is as before. -/
def SameOutsidePool (s t : State) : Prop :=
  t.cfg = s.cfg ∧ t.slots.length = s.slots.length ∧ t.halted = s.halted ∧ t.faultCode = s.faultCode ∧
    t.faultCmd = s.faultCmd ∧ t.inbox = s.inbox ∧ t.rom = s.rom

/-- Only slot `h` may differ in the pool, and nothing outside it but the output ports. -/
def OnlySlot (h : Nat) (s t : State) : Prop :=
  SameOutsidePool s t ∧ ∀ k, k ≠ h → t.slot k = s.slot k

/-- `t` is `s` with a new object `o` at the least free handle `h`, answered DONE with that handle (R61, R102). -/
def Created (s t : State) (h : Nat) (o : Object) : Prop :=
  LeastFree s h ∧ t.obj h = some o ∧ t.gen h = s.gen h + 1 ∧ OnlySlot h s t ∧
    t.out = answers .done (BitVec.ofNat 32 h)

/-- `t` is `s` with bit `i` of the object at `h` made `b` and every other bit of it as before; its generation, kind and
shape are as before, and the answer is DONE, 0. -/
def BitWritten (s t : State) (h i : Nat) (b : Bool) : Prop :=
  OnlySlot h s t ∧ t.gen h = s.gen h ∧
    (∃ o st, s.obj h = some o ∧ t.obj h = some (o.withStorage st)) ∧
    (∀ j, memRead t h j = if j = i then b else memRead s h j) ∧ t.out = answers .done 0#32

/-- The GF(2) sum of the entry products, as a count of the positions where both entries are 1 (R13, R160). -/
def productEntry (a b : Mat) (i j : Nat) : Bool :=
  decide (((List.range a.cols.toNat).filter fun k => a.entry i k && b.entry k j).length % 2 = 1)

/-- `popcount` of R12: the number of one bits. -/
def popcount {n : Nat} (v : BitVec n) : Nat := ((List.range n).filter fun i => v.getLsbD i).length

/-- `parity` of R12: `popcount` modulo 2. -/
def parity {n : Nat} (v : BitVec n) : Bool := decide (popcount v % 2 = 1)

end Sys2Proof.Machine
end

