-- ==== Sys2Proof/Certificates/Slice0/Obligations.lean ====
section
/-! DEFINITION. The statements for the provers.  Each docstring names the rule of spec/ that the statement comes from.  The
words of codes, codewords and tables are written out here as the spec prints them, and not taken from the model's own
definitions, wherever the statement is about them. -/

open Sys2Proof Sys2Proof.Machine

/-! ### Terms used below -/

namespace Sys2Proof.Machine

/-- The commands that take a vector handle and an object for it (R63), but for the delete. -/
def bvAccess (ha : Handle) (n : Word) (b8 : Byte) : List Instr :=
  [.bvLength ha, .bvSet ha n, .bvClear ha n, .bvGet ha n, .bvXor ha n b8, .bvDump ha]

/-- The commands that take one matrix handle and an object for it (R63), but for the delete. -/
def bmAccess (ha : Handle) (r c : Half) : List Instr :=
  [.bmRows ha, .bmCols ha, .bmSet ha r c, .bmClear ha r c, .bmGet ha r c, .bmToData ha, .bmDump ha]

/-- The handle names nothing live (R50, R63). -/
def NamesNothing (s : State) (h : Handle) : Prop :=
  h ≠ 0#8 ∧ (s.cfg.numHandles < h.toNat ∨ s.obj h.toNat = none)

/-- The command takes the fault `code` in the state (R236). -/
def TakesFault (i : Instr) (s : State) (code : BitVec 8) : Prop := exec i s = .next (s.afterFault code (encode i))

/-- The faults of `Resolve(ha, BV)` (R63): NULL_HANDLE, BAD_HANDLE and KIND_MISMATCH. -/
def BvHandleFaults (i : Instr) (s : State) (ha : Handle) : Prop :=
  (ha = 0#8 → TakesFault i s 0x03#8) ∧ (NamesNothing s ha → TakesFault i s 0x04#8) ∧
    (∀ m, LiveBm s ha m → TakesFault i s 0x05#8)

/-- The faults of `Resolve(ha, BM)` (R63). -/
def BmHandleFaults (i : Instr) (s : State) (ha : Handle) : Prop :=
  (ha = 0#8 → TakesFault i s 0x03#8) ∧ (NamesNothing s ha → TakesFault i s 0x04#8) ∧
    (∀ v, LiveBv s ha v → TakesFault i s 0x05#8)

/-- The faults of a command that addresses bit `n` of a vector (R63, R123). -/
def BvAccessFaults (i : Instr) (s : State) (ha : Handle) (n : Word) : Prop :=
  BvHandleFaults i s ha ∧ ∀ v, LiveBv s ha v → v.length.toNat ≤ n.toNat → TakesFault i s 0x06#8

/-- The faults of a command that addresses entry (r, c) of a matrix (R63, R154). -/
def BmAccessFaults (i : Instr) (s : State) (ha : Handle) (r c : Half) : Prop :=
  BmHandleFaults i s ha ∧
    ∀ m, LiveBm s ha m → m.rows.toNat ≤ r.toNat ∨ m.cols.toNat ≤ c.toNat → TakesFault i s 0x07#8

/-- The host's next event is not reset. -/
def NotReset (s : State) : Prop := ∀ rest, s.inbox ≠ .reset :: rest

/-- The state with only its response port changed, to a response without a diagnostic record. -/
def State.answered (s : State) (st : Status) (v : Word) : State := { s with out := answers st v }

/-- The entries of R28 in a matrix of its shape. -/
def IsG (m : Mat) : Prop :=
  m.rows = 4#16 ∧ m.cols = 8#16 ∧
    ∀ i j, i < 4 → j < 8 → m.entry i j = if j < 4 then decide (i = j) else decide (i ≠ j - 4)

/-- The entries of R29 in a matrix of its shape. -/
def IsHt (m : Mat) : Prop :=
  m.rows = 8#16 ∧ m.cols = 4#16 ∧
    ∀ i j, i < 8 → j < 4 → m.entry i j = if i < 4 then decide (i ≠ j) else decide (j = i - 4)

/-- The 16 codewords in the order of their messages, as R82 prints them. -/
def printedCodewords : List Byte :=
  [0x00#8, 0xE1#8, 0xD2#8, 0x33#8, 0xB4#8, 0x55#8, 0x66#8, 0x87#8,
   0x78#8, 0x99#8, 0xAA#8, 0x4B#8, 0xCC#8, 0x2D#8, 0x1E#8, 0xFF#8]

/-- The 16 values of `SYND_LOOKUP`, from the table of R31 in the layout of R86: 0x00 for no-error, `0x01 | (k << 4)` for a
position k, 0x02 for uncorrectable. -/
def printedEntries : List Word :=
  [0x00#32, 0x41#32, 0x51#32, 0x02#32, 0x61#32, 0x02#32, 0x02#32, 0x31#32,
   0x71#32, 0x02#32, 0x02#32, 0x21#32, 0x02#32, 0x11#32, 0x01#32, 0x02#32]

/-- The rows of Ht packed as nibbles, as R29 prints them: the syndrome of a single error at each position (R203). -/
def printedHtRows : List Nibble := [14#4, 13#4, 11#4, 7#4, 1#4, 2#4, 4#4, 8#4]

/-- The closed form of the syndrome (R84): `c[7:4] ^ c[3:0] ^ (parity(c[3:0]) == 1 ? 0xF : 0x0)`. -/
def closedSyndrome (c : Byte) : Nibble :=
  c.extractLsb' 4 4 ^^^ c.extractLsb' 0 4 ^^^ (if parity (c.extractLsb' 0 4) then 0xF#4 else 0x0#4)

/-- The codeword of a message, from R82's table. -/
def printedCodeword (m : Nibble) : Byte := printedCodewords.getD m.toNat 0#8

/-- OUTCOME and the message that `HC_DECODE c, mi` answers with in a state, when it answers DONE. -/
def hcDecodeAnswer (s : State) (c : Byte) (mi : Nibble) : Option (BitVec 2 × Nibble) :=
  match exec (.hcDecode c (mi.setWidth 32)) s with
  | .next t =>
    match t.out.response with
    | some { status := .done, value := v } => some (v.extractLsb' 8 2, v.extractLsb' 0 4)
    | _ => none
  | _ => none

/-- How many of the 4096 pairs of a message and an error pattern have a pattern of weight `w`, and an answer with outcome `oc`
and a message in the relation `msg` to the message sent and MI.  MI is the complement of the message sent, so that a message
handed back is never the right one (R206). -/
def weightCount (s : State) (w : Nat) (oc : BitVec 2) (msg : Nibble → Nibble → Nibble → Bool) : Nat :=
  ((List.range 4096).filter fun n =>
    let m := BitVec.ofNat 4 n
    let e := BitVec.ofNat 8 (n / 16)
    decide (popcount e = w) &&
      match hcDecodeAnswer s (printedCodeword m ^^^ e) (~~~ m) with
      | some (o, out) => decide (o = oc) && msg m (~~~ m) out
      | none => false).length

/-- The message that came out is the one sent. -/
def rightMessage (m _ out : Nibble) : Bool := decide (out = m)

/-- The message that came out is not the one sent. -/
def wrongMessage (m _ out : Nibble) : Bool := decide (out ≠ m)

/-- The message that came out is MI. -/
def retainedMessage (_ mi out : Nibble) : Bool := decide (out = mi)

end Sys2Proof.Machine

/-! ### Encoding (30_encoding.md) -/

/-- Decoding the word of a well-formed command gives that command back, for all 24 commands (R89, R91, R93, R95). -/
def Obligations.DecodeOfEncode : Prop :=
  ∀ i : Instr, i.wellFormed = true → decode (encode i) = .ok i

/-- A word that decodes is the word of the command it decodes to, and that command is well-formed: every word has exactly
one meaning (decision D16). -/
def Obligations.EncodeOfDecode : Prop :=
  ∀ (w : CmdWord) (i : Instr), decode w = .ok i → encode i = w ∧ i.wellFormed = true

/-- R91: a word is of a row's command when `(w & mask) == match`, with `match = OP << 56`, and the masks of the twelve
formats are those of its table. -/
def Obligations.WordIsOfRowIffMasked : Prop :=
  (∀ r ∈ opcodeTable, ∀ w : CmdWord,
    (∃ i, decode w = .ok i ∧ i.opcode = r.op) ↔ w &&& r.format.mask = r.op.setWidth 64 <<< 56) ∧
  Format.Z.mask = 0xFFFFFFFFFFFFFFFF#64 ∧ Format.H.mask = 0xFF00FFFFFFFFFFFF#64 ∧
  Format.HH.mask = 0xFF0000FFFFFFFFFF#64 ∧ Format.N.mask = 0xFFFFFFFF00000000#64 ∧
  Format.HN.mask = 0xFF00FFFF00000000#64 ∧ Format.HNB.mask = 0xFF00FF0000000000#64 ∧
  Format.RC.mask = 0xFFFFFFFF00000000#64 ∧ Format.HRC.mask = 0xFF00FFFF00000000#64 ∧
  Format.BN.mask = 0xFFFFFF0000000000#64 ∧ Format.B.mask = 0xFFFFFF00FFFFFFFF#64 ∧
  Format.S.mask = 0xFFFFFFF0FFFFFFFF#64 ∧ Format.D.mask = 0xFFFFFF00FFFFFFF0#64

/-- R90: the operands of a word that decodes are the fields of the word, each unsigned and none scaled or assembled. -/
def Obligations.OperandsAreFields : Prop :=
  ∀ (w : CmdWord) (i : Instr), decode w = .ok i →
    i.opcode = w.extractLsb' 56 8 ∧
    (i.operandHA = w.extractLsb' 48 8) ∧ (i.operandHB = w.extractLsb' 40 8) ∧
    (i.operandB8 = w.extractLsb' 32 8) ∧ (i.operandN = w.extractLsb' 0 32) ∧
    (∀ r c, i = .bmCreate r c → r = w.extractLsb' 16 16 ∧ c = w.extractLsb' 0 16) ∧
    (∀ h r c, i = .bmSet h r c ∨ i = .bmClear h r c ∨ i = .bmGet h r c →
      r = w.extractLsb' 16 16 ∧ c = w.extractLsb' 0 16) ∧
    (∀ b mi, i = .hcDecode b mi → mi = (w.extractLsb' 0 4).setWidth 32)

/-- R94: a word with any unassigned opcode faults with ILLEGAL_OP (0x01), whatever its other bits. -/
def Obligations.UnassignedOpcodeFaults : Prop :=
  ∀ (s : State) (w : CmdWord) (gA gB : Nat) (rest : List HostEvent),
    s.halted = false → s.inbox = .command w gA gB :: rest →
    ((w.extractLsb' 56 8).toNat = 0x00 ∨
     (0x09 ≤ (w.extractLsb' 56 8).toNat ∧ (w.extractLsb' 56 8).toNat ≤ 0x0F) ∨
     (0x1B ≤ (w.extractLsb' 56 8).toNat ∧ (w.extractLsb' 56 8).toNat ≤ 0x1F) ∨
     (0x23 ≤ (w.extractLsb' 56 8).toNat ∧ (w.extractLsb' 56 8).toNat ≤ 0x2F) ∨
     (0x32 ≤ (w.extractLsb' 56 8).toNat ∧ (w.extractLsb' 56 8).toNat ≤ 0xFF)) →
    step s = .next (({ s with inbox := rest } : State).afterFault 0x01#8 w)

/-- R92: a word with an assigned opcode and a bit set that its format reserves faults with RESERVED_FIELD (0x02); format S
reserves B8[7:4], format D reserves N[31:4], and `HC_ENCODE`'s B8[7:4] is not reserved. -/
def Obligations.ReservedBitFaults : Prop :=
  (∀ (s : State) (w : CmdWord) (gA gB : Nat) (rest : List HostEvent),
    s.halted = false → s.inbox = .command w gA gB :: rest →
    ∀ r ∈ opcodeTable, w.extractLsb' 56 8 = r.op → w &&& r.format.mask &&& 0x00FFFFFFFFFFFFFF#64 ≠ 0#64 →
      step s = .next (({ s with inbox := rest } : State).afterFault 0x02#8 w)) ∧
  (∀ (s : State) (b8 : Byte), s.halted = false → 16 ≤ b8.toNat →
    exec (.syndLookup b8) s = .next (s.afterFault 0x02#8 (encode (.syndLookup b8)))) ∧
  (∀ (s : State) (b8 : Byte) (mi : Word), s.halted = false → 16 ≤ mi.toNat →
    exec (.hcDecode b8 mi) s = .next (s.afterFault 0x02#8 (encode (.hcDecode b8 mi)))) ∧
  (∀ b8 : Byte, decode (encode (.hcEncode b8)) = .ok (.hcEncode b8))

/-- The word that 95_test_vectors.md V2 prints for each command decodes to that command. -/
def Obligations.PrintedWordsDecode : Prop :=
  decode 0x010000000000000A#64 = .ok (.bvCreate 10#32) ∧
  decode 0x0201000000000000#64 = .ok (.bvDelete 1#8) ∧
  decode 0x0301000000000000#64 = .ok (.bvLength 1#8) ∧
  decode 0x0401000000000009#64 = .ok (.bvSet 1#8 9#32) ∧
  decode 0x0501000000000009#64 = .ok (.bvClear 1#8 9#32) ∧
  decode 0x0601000000000009#64 = .ok (.bvGet 1#8 9#32) ∧
  decode 0x0701000100000009#64 = .ok (.bvXor 1#8 9#32 1#8) ∧
  decode 0x0801000000000000#64 = .ok (.bvDump 1#8) ∧
  decode 0x1000000000040008#64 = .ok (.bmCreate 4#16 8#16) ∧
  decode 0x1102000000000000#64 = .ok (.bmDelete 2#8) ∧
  decode 0x1202000000000000#64 = .ok (.bmRows 2#8) ∧
  decode 0x1302000000000000#64 = .ok (.bmCols 2#8) ∧
  decode 0x1402000000010007#64 = .ok (.bmSet 2#8 1#16 7#16) ∧
  decode 0x1502000000010007#64 = .ok (.bmClear 2#8 1#16 7#16) ∧
  decode 0x1602000000010007#64 = .ok (.bmGet 2#8 1#16 7#16) ∧
  decode 0x170000B500000004#64 = .ok (.bmFromData 0xB5#8 4#32) ∧
  decode 0x1803000000000000#64 = .ok (.bmToData 3#8) ∧
  decode 0x1903040000000000#64 = .ok (.bmMultiply 3#8 4#8) ∧
  decode 0x1A02000000000000#64 = .ok (.bmDump 2#8) ∧
  decode 0x2000000B00000000#64 = .ok (.syndLookup 11#8) ∧
  decode 0x2100000000000000#64 = .ok .hcLoadG ∧
  decode 0x2200000000000000#64 = .ok .hcLoadHt ∧
  decode 0x3000000B00000000#64 = .ok (.hcEncode 0x0B#8) ∧
  decode 0x3100004F0000000A#64 = .ok (.hcDecode 0x4F#8 10#32)

/-! ### The step (R7, R64, R95) -/

/-- A presented word that decodes runs as the command it decodes to: the block is not halted, and each handle that the
command presents names a free slot or was given to the host at the slot's present generation.
That a presented
handle carries its generation is the model's choice (log entry 4). -/
def Obligations.StepRunsDecodedCommand : Prop :=
  ∀ (s : State) (w : CmdWord) (gA gB : Nat) (rest : List HostEvent) (i : Instr),
    s.halted = false → s.inbox = .command w gA gB :: rest → decode w = .ok i →
    (s.obj i.operandHA.toNat = none ∨ s.gen i.operandHA.toNat = gA) →
    (s.obj i.operandHB.toNat = none ∨ s.gen i.operandHB.toNat = gB) →
    step s = exec i { s with inbox := rest }

/-- A command that presents a handle whose slot now holds an object of another allocation is refused (R64, U1).
That a presented handle carries its
generation is the model's choice (log entry 4). -/
def Obligations.StaleHandleRefused : Prop :=
  ∀ (s : State) (w : CmdWord) (gA gB : Nat) (rest : List HostEvent) (i : Instr),
    s.halted = false → s.inbox = .command w gA gB :: rest → decode w = .ok i →
    ((s.obj i.operandHA.toNat ≠ none ∧ s.gen i.operandHA.toNat ≠ gA) ∨
     (s.obj i.operandHB.toNat ≠ none ∧ s.gen i.operandHB.toNat ≠ gB)) →
    step s = .refused .staleHandle

/-- What a step answers does not depend on what the ports showed before it: the response and the diagnostic record are
no state (R20, R23).
The field `out` is the model's own (log entry 2). -/
def Obligations.PortsAreNotState : Prop :=
  ∀ (s : State) (o : PortOut), step { s with out := o } = step s

/-! ### Reset, configuration and the invariant -/

/-- After reset, whatever the capacities, every slot is Free with generation 0, no byte is in use, and the fault status is
clear (R37). -/
def Obligations.ResetLeavesEmptyPool : Prop :=
  ∀ cfg : Config,
    (∀ h, (State.resetWith cfg).obj h = none ∧ (State.resetWith cfg).gen h = 0) ∧
    (State.resetWith cfg).usedBytes = 0 ∧ (State.resetWith cfg).halted = false ∧
    (State.resetWith cfg).faultCode = 0x00#8 ∧ (State.resetWith cfg).faultCmd = 0#64 ∧
    (State.resetWith cfg).cfg = cfg

/-- Reset from any state, halted or not, frees every slot, zeroes every generation and clears the fault status, and it is
the only way out of the halted state (R280). -/
def Obligations.ResetFromAnyState : Prop :=
  (∀ (s : State) (rest : List HostEvent), s.inbox = .reset :: rest →
    ∃ t, step s = .next t ∧ (∀ h, t.obj h = none ∧ t.gen h = 0) ∧ t.usedBytes = 0 ∧ t.halted = false ∧
      t.faultCode = 0x00#8 ∧ t.faultCmd = 0#64 ∧ t.slots.length = s.slots.length ∧ t.cfg = s.cfg ∧ t.inbox = rest) ∧
  (∀ s t : State, s.halted = true → step s = .next t → t.halted = false → ∃ rest, s.inbox = .reset :: rest)

/-- No step changes the configuration, and reset does not (R38). -/
def Obligations.ConfigurationNeverChanges : Prop :=
  ∀ s t : State, step s = .next t → t.cfg = s.cfg

/-- The invariant holds after reset for every legal configuration, and for the reference one.
The reference capacities are the
model's choice (log entry 1). -/
def Obligations.InvariantAfterReset : Prop :=
  (∀ cfg : Config, cfg.legal = true → (State.resetWith cfg).inv = true) ∧ State.reset.inv = true

/-- Every step keeps the invariant: the pool has NUM_HANDLES slots, live objects fit in STORAGE_BYTES, every object's
storage is canonical with no bit outside the object, every live slot has been allocated, and the fault status is that of
a block without a fault or one of the codes 0x01 to 0x0A. -/
def Obligations.StepKeepsInvariant : Prop :=
  ∀ s t : State, s.inv = true → step s = .next t → t.inv = true

/-- R54: in a state that meets the invariant, and after any step from it, every padding bit of a live object's storage
is 0.
The spec marks R54 as its own derivation from R53 and R56. -/
def Obligations.PaddingStaysZero : Prop :=
  ∀ s t : State, s.inv = true → step s = .next t →
    ∀ (h : Nat) (o : Object), s.obj h = some o ∨ t.obj h = some o →
      ∀ k p, k < bytesFor o.bits → p < 8 → o.bits ≤ 8 * k + p → (o.storage.readByte k).getLsbD p = false

/-- R27: an object's kind and size are fixed for its life: while a slot holds the object of one allocation, no step
changes its kind, its length, or its rows and columns. -/
def Obligations.ObjectShapeIsFixed : Prop :=
  ∀ (s t : State) (h : Nat) (o o' : Object), step s = .next t → s.obj h = some o → t.obj h = some o' →
    t.gen h = s.gen h → ∃ st, o' = o.withStorage st

/-- A step other than reset raises a slot's generation by one where it allocates a Free slot, and where it allocates none it
leaves the generation as it was (R36, R61, R62). -/
def Obligations.GenerationCountsAllocations : Prop :=
  ∀ (s t : State) (h : Nat), NotReset s → step s = .next t →
    (t.gen h = s.gen h ∧ (s.obj h = none → t.obj h = none)) ∨
      (s.obj h = none ∧ t.obj h ≠ none ∧ t.gen h = s.gen h + 1)

/-- R65: the block never releases an object by itself: an object that a step other than reset takes away was named by a
delete command. -/
def Obligations.OnlyDeleteReleases : Prop :=
  ∀ (s t : State) (h : Nat), NotReset s → step s = .next t → s.obj h ≠ none → t.obj h = none →
    ∃ (w : CmdWord) (gA gB : Nat) (rest : List HostEvent) (ha : Handle), s.inbox = .command w gA gB :: rest ∧
      ha.toNat = h ∧ (decode w = .ok (.bvDelete ha) ∨ decode w = .ok (.bmDelete ha))

/-! ### Faults (60_exceptions.md) -/

/-- R236: a command that responds FAULT has changed nothing but the fault status and the ports: it halts the
block, records one of the codes 0x01 to 0x0A and its own word, and answers with the code.
(R237 is the spec's own derivation of the same.) -/
def Obligations.FaultsArePrecise : Prop :=
  ∀ (i : Instr) (s t : State) (v : Word), exec i s = .next t →
    t.out.response = some { status := .fault, value := v } →
    ∃ code : BitVec 8, 0x01 ≤ code.toNat ∧ code.toNat ≤ 0x0A ∧ t = s.afterFault code (encode i)

/-- R238: a halted block accepts no command and has no step; its status port stays readable; its fault status, its pool
and its halt stay until reset; and no run that ends in it is a safe one. -/
def Obligations.HaltedBlockIsStuck : Prop :=
  ∀ s : State, s.halted = true →
    (∀ i, exec i s = .fault .halted) ∧
    (s.inbox = [] → step s = .fault .halted) ∧
    (∀ w gA gB rest, s.inbox = .command w gA gB :: rest → step s = .fault .halted) ∧
    (∀ n rest, s.inbox = .readStatus n :: rest → ∃ t, step s = .next t) ∧
    (∀ t, step s = .next t → NotReset s →
      t.halted = true ∧ t.faultCode = s.faultCode ∧ t.faultCmd = s.faultCmd ∧ t.slots = s.slots) ∧
    (∀ k s0, ¬ SafeRun k s0 s)

/-- R35: the status port gives FSTAT (reserved 31:9, `halted` in bit 8, `fault_code` in bits 7:0) at number 0, FCMD at
number 1 and 0 at any other, at any time, and reading it changes no state.
That the port is 64 bits wide and widens FSTAT with zero bits in 63:32 is the model's own reading (log entry 16). -/
def Obligations.StatusPortReads : Prop :=
  ∀ (s : State) (number : Nat) (rest : List HostEvent), s.inbox = .readStatus number :: rest →
    ∃ v : CmdWord,
      step s = .next { s with inbox := rest, out := { response := none, diag := none, statusPort := some v } } ∧
      (number = 0 → v.extractLsb' 9 55 = 0#55 ∧ v.getLsbD 8 = s.halted ∧ v.extractLsb' 0 8 = s.faultCode) ∧
      (number = 1 → v = s.faultCmd) ∧ (2 ≤ number → v = 0#64)

/-- R231: ABSENT is answered by exactly the six creating commands, when `Alloc` fails or, for `BM_FROM_DATA`, when the
length is above 8; and then no state changes and the block stays ready. -/
def Obligations.AbsentExactlyWhenNoRoom : Prop :=
  ∀ s : State, s.halted = false →
    (∀ n : Word, ¬ HasRoom s n.toNat → exec (.bvCreate n) s = .next (s.answered .absent 0#32)) ∧
    (∀ r c : Half, ¬ HasRoom s (r.toNat * c.toNat) → exec (.bmCreate r c) s = .next (s.answered .absent 0#32)) ∧
    (∀ (b8 : Byte) (n : Word), 8 < n.toNat ∨ ¬ HasRoom s n.toNat →
      exec (.bmFromData b8 n) s = .next (s.answered .absent 0#32)) ∧
    (∀ (ha hb : Handle) (a b : Mat), LiveBm s ha a → LiveBm s hb b → a.cols = b.rows →
      ¬ HasRoom s (a.rows.toNat * b.cols.toNat) → exec (.bmMultiply ha hb) s = .next (s.answered .absent 0#32)) ∧
    (¬ HasRoom s 32 → exec .hcLoadG s = .next (s.answered .absent 0#32)) ∧
    (¬ HasRoom s 32 → exec .hcLoadHt s = .next (s.answered .absent 0#32)) ∧
    (∀ (i : Instr) (t : State) (v : Word), exec i s = .next t →
      t.out.response = some { status := .absent, value := v } →
      t = s.answered .absent 0#32 ∧
      ((∃ n, i = .bvCreate n ∧ ¬ HasRoom s n.toNat) ∨
       (∃ r c, i = .bmCreate r c ∧ ¬ HasRoom s (r.toNat * c.toNat)) ∨
       (∃ b8 n, i = .bmFromData b8 n ∧ (8 < n.toNat ∨ ¬ HasRoom s n.toNat)) ∨
       (∃ ha hb a b, i = .bmMultiply ha hb ∧ LiveBm s ha a ∧ LiveBm s hb b ∧
         ¬ HasRoom s (a.rows.toNat * b.cols.toNat)) ∨
       (i = .hcLoadG ∧ ¬ HasRoom s 32) ∨ (i = .hcLoadHt ∧ ¬ HasRoom s 32)))

/-- R63: a handle operand that is null faults with NULL_HANDLE (0x03), one above NUM_HANDLES or naming a free slot with
BAD_HANDLE (0x04), one naming an object of the other kind with KIND_MISMATCH (0x05); the deletes take handle 0 as a
no-op; and `BM_MULTIPLY` resolves HA before HB. -/
def Obligations.HandleChecks : Prop :=
  ∀ (s : State) (ha : Handle) (n : Word) (b8 : Byte) (r c : Half), s.halted = false → b8.toNat ≤ 1 →
    (∀ i ∈ bvAccess ha n b8, BvHandleFaults i s ha) ∧
    (∀ i ∈ bmAccess ha r c, BmHandleFaults i s ha) ∧
    (∀ i ∈ [Instr.bvDelete ha, Instr.bmDelete ha],
      (ha = 0#8 → exec i s = .next (s.answered .done 0#32)) ∧ (NamesNothing s ha → TakesFault i s 0x04#8)) ∧
    (∀ m, LiveBm s ha m → TakesFault (.bvDelete ha) s 0x05#8) ∧
    (∀ v, LiveBv s ha v → TakesFault (.bmDelete ha) s 0x05#8) ∧
    (∀ hb, BmHandleFaults (.bmMultiply ha hb) s ha ∧
      ∀ a, LiveBm s ha a → BmHandleFaults (.bmMultiply ha hb) s hb)

/-- R123 and R154: a bit index at or above the length faults with BV_INDEX (0x06), and a row or a column out of its own
range with BM_INDEX (0x07), whatever the flat index would be. -/
def Obligations.IndexOutOfRangeFaults : Prop :=
  (∀ (s : State) (ha : Handle) (n : Word) (b8 : Byte) (v : Vec), s.halted = false → b8.toNat ≤ 1 → LiveBv s ha v →
    v.length.toNat ≤ n.toNat →
    ∀ i ∈ [Instr.bvSet ha n, Instr.bvClear ha n, Instr.bvGet ha n, Instr.bvXor ha n b8], TakesFault i s 0x06#8) ∧
  (∀ (s : State) (ha : Handle) (r c : Half) (m : Mat), s.halted = false → LiveBm s ha m →
    m.rows.toNat ≤ r.toNat ∨ m.cols.toNat ≤ c.toNat →
    ∀ i ∈ [Instr.bmSet ha r c, Instr.bmClear ha r c, Instr.bmGet ha r c], TakesFault i s 0x07#8)

/-- The order of the checks that follow decoding (R240, steps 4 and 6 to 10).  A bit operand above 1 faults with BAD_BIT
(0x0A) whatever the handle and the index.  For `BM_MULTIPLY`, whatever room the pool has, a null HA, one that names
nothing, or one of the wrong kind faults with its own code whatever HB is; then HB does the same; then A.cols ≠ B.rows
faults with DIM_MISMATCH (0x08); and only then does the want of room answer ABSENT.  For `BM_TO_DATA` the handle faults
with its own code, and then any shape but one row of at most 8 columns with TO_DATA_SHAPE (0x09).  For `BM_FROM_DATA` a
length above 8 answers ABSENT whatever room the pool has. -/
def Obligations.CheckOrder : Prop :=
  ∀ s : State, s.halted = false →
    (∀ ha n b8, 1 < b8.toNat → TakesFault (.bvXor ha n b8) s 0x0A#8) ∧
    (∀ ha hb, BmHandleFaults (.bmMultiply ha hb) s ha) ∧
    (∀ ha hb a, LiveBm s ha a → BmHandleFaults (.bmMultiply ha hb) s hb) ∧
    (∀ ha hb a b, LiveBm s ha a → LiveBm s hb b → a.cols ≠ b.rows → TakesFault (.bmMultiply ha hb) s 0x08#8) ∧
    (∀ ha hb a b, LiveBm s ha a → LiveBm s hb b → a.cols = b.rows → ¬ HasRoom s (a.rows.toNat * b.cols.toNat) →
      exec (.bmMultiply ha hb) s = .next (s.answered .absent 0#32)) ∧
    (∀ ha, BmHandleFaults (.bmToData ha) s ha) ∧
    (∀ ha m, LiveBm s ha m → m.rows.toNat ≠ 1 ∨ 8 < m.cols.toNat → TakesFault (.bmToData ha) s 0x09#8) ∧
    (∀ b8 n, 8 < n.toNat → exec (.bmFromData b8 n) s = .next (s.answered .absent 0#32))

/-! ### bitvector_storage (40_bitvector.md) -/

/-- R120: `BV_CREATE n` answers DONE with the least free handle, which now names a vector of length n whose every bit is 0;
or ABSENT, with nothing changed, when no slot is free or the bytes do not fit. -/
def Obligations.BvCreateResult : Prop :=
  ∀ (s : State) (n : Word), s.halted = false → s.poolSized →
    (HasRoom s n.toNat →
      ∃ t h v, exec (.bvCreate n) s = .next t ∧ Created s t h (.bv v) ∧ v.length = n ∧
        ∀ i, memRead t h i = false) ∧
    (¬ HasRoom s n.toNat → exec (.bvCreate n) s = .next (s.answered .absent 0#32))

/-- R121 and R152: a delete of a live object of its own kind frees the slot and gives its bytes back, keeps the generation,
changes no other slot and answers DONE, 0; a second delete through the same handle then faults with BAD_HANDLE (0x04); a
delete of handle 0 answers DONE, 0 and changes nothing; a handle that names nothing faults with BAD_HANDLE (0x04), and one
that names an object of the other kind with KIND_MISMATCH (0x05). -/
def Obligations.DeleteResult : Prop :=
  ∀ (s : State) (ha : Handle), s.halted = false →
    (∀ (i : Instr) (o : Object),
      ((i = .bvDelete ha ∧ ∃ v, o = .bv v ∧ LiveBv s ha v) ∨ (i = .bmDelete ha ∧ ∃ m, o = .bm m ∧ LiveBm s ha m)) →
      ∃ t, exec i s = .next t ∧ t.obj ha.toNat = none ∧ t.gen ha.toNat = s.gen ha.toNat ∧ OnlySlot ha.toNat s t ∧
        t.usedBytes + bytesFor o.bits = s.usedBytes ∧ t.out = answers .done 0#32 ∧ TakesFault i t 0x04#8) ∧
    exec (.bvDelete 0#8) s = .next (s.answered .done 0#32) ∧
    exec (.bmDelete 0#8) s = .next (s.answered .done 0#32) ∧
    (NamesNothing s ha → TakesFault (.bvDelete ha) s 0x04#8 ∧ TakesFault (.bmDelete ha) s 0x04#8) ∧
    (∀ m, LiveBm s ha m → TakesFault (.bvDelete ha) s 0x05#8) ∧
    (∀ v, LiveBv s ha v → TakesFault (.bmDelete ha) s 0x05#8)

/-- R122: `BV_LENGTH` of a live vector answers DONE with its length and changes nothing else; any other handle faults. -/
def Obligations.BvLengthResult : Prop :=
  ∀ (s : State) (ha : Handle), s.halted = false →
    (∀ v, LiveBv s ha v → exec (.bvLength ha) s = .next (s.answered .done v.length)) ∧
    BvHandleFaults (.bvLength ha) s ha

/-- R124, R125 and R128: `BV_SET`, `BV_CLEAR` and `BV_XOR` at an index in range make bit i 1, 0, or its exclusive-or with
the bit operand, change no other bit, slot or register, and answer DONE, 0; a bit operand above 1 faults with BAD_BIT
(0x0A), a handle that names no live vector with its fault, and an index out of range with BV_INDEX (0x06). -/
def Obligations.BvBitWrites : Prop :=
  ∀ (s : State) (ha : Handle) (n : Word), s.halted = false →
    (∀ v, s.inv = true → LiveBv s ha v → n.toNat < v.length.toNat →
      (∃ t, exec (.bvSet ha n) s = .next t ∧ BitWritten s t ha.toNat n.toNat true) ∧
      (∃ t, exec (.bvClear ha n) s = .next t ∧ BitWritten s t ha.toNat n.toNat false) ∧
      (∃ t, exec (.bvXor ha n 0#8) s = .next t ∧ BitWritten s t ha.toNat n.toNat (memRead s ha.toNat n.toNat)) ∧
      (∃ t, exec (.bvXor ha n 1#8) s = .next t ∧ BitWritten s t ha.toNat n.toNat (!memRead s ha.toNat n.toNat))) ∧
    (∀ i ∈ [Instr.bvSet ha n, Instr.bvClear ha n, Instr.bvXor ha n 0#8, Instr.bvXor ha n 1#8],
      BvAccessFaults i s ha n) ∧
    (∀ b8, 1 < b8.toNat → TakesFault (.bvXor ha n b8) s 0x0A#8)

/-- R126: `BV_GET` at an index in range answers DONE with the bit, 0 or 1, and changes nothing else; any other handle or
index faults. -/
def Obligations.BvGetResult : Prop :=
  ∀ (s : State) (ha : Handle) (n : Word), s.halted = false →
    (∀ v, LiveBv s ha v → n.toNat < v.length.toNat →
      exec (.bvGet ha n) s = .next (s.answered .done (if memRead s ha.toNat n.toNat then 1#32 else 0#32))) ∧
    BvAccessFaults (.bvGet ha n) s ha n

/-- R127: `BV_DUMP` of a live vector emits its length, its byte count `ceil(length/8)` and its bytes in ascending order,
bit p of byte k being bit 8k + p of the vector; it answers DONE with the length, and changes nothing else; any other
handle faults. -/
def Obligations.BvDumpResult : Prop :=
  ∀ (s : State) (ha : Handle), s.halted = false →
    (∀ v, LiveBv s ha v →
      ∃ (nbytes : Word) (bytes : List Byte),
        exec (.bvDump ha) s = .next { s with out := dumps (.bvDump v.length nbytes bytes) v.length } ∧
        nbytes.toNat = (v.length.toNat + 7) / 8 ∧ bytes.length = (v.length.toNat + 7) / 8 ∧
        ∀ k p, k < (v.length.toNat + 7) / 8 → p < 8 →
          (bytes.getD k 0#8).getLsbD p = memRead s ha.toNat (8 * k + p)) ∧
    BvHandleFaults (.bvDump ha) s ha

/-- R129: on a live vector of any length L >= 1 and an index in range, set then get yields 1, clear then get yields 0,
exclusive-or with b then get yields the earlier value ^ b, a write to bit i leaves what get yields at every j ≠ i in
range, and the length stays.
The spec marks the third law of R129 as its own derivation. -/
def Obligations.BvReadAfterWriteLaws : Prop :=
  ∀ (s : State) (ha : Handle) (n : Word) (v : Vec), s.halted = false → s.inv = true → LiveBv s ha v →
    n.toNat < v.length.toNat →
    ∀ (i : Instr) (expected : Bool),
      ((i = .bvSet ha n ∧ expected = true) ∨ (i = .bvClear ha n ∧ expected = false) ∨
       (i = .bvXor ha n 0#8 ∧ expected = memRead s ha.toNat n.toNat) ∨
       (i = .bvXor ha n 1#8 ∧ expected = !memRead s ha.toNat n.toNat)) →
      ∃ t, exec i s = .next t ∧
        exec (.bvGet ha n) t = .next (t.answered .done (if expected then 1#32 else 0#32)) ∧
        (∀ j : Word, j.toNat < v.length.toNat → j ≠ n →
          exec (.bvGet ha j) t = .next (t.answered .done (if memRead s ha.toNat j.toNat then 1#32 else 0#32))) ∧
        exec (.bvLength ha) t = .next (t.answered .done v.length)

/-! ### bitmatrix_gf2_mult (41_bitmatrix.md) -/

/-- R151: `BM_CREATE r, c` answers DONE with the least free handle, which now names an r × c matrix whose every entry is 0;
or ABSENT, with nothing changed, when no slot is free or the bytes do not fit. -/
def Obligations.BmCreateResult : Prop :=
  ∀ (s : State) (r c : Half), s.halted = false → s.poolSized →
    (HasRoom s (r.toNat * c.toNat) →
      ∃ t h m, exec (.bmCreate r c) s = .next t ∧ Created s t h (.bm m) ∧ m.rows = r ∧ m.cols = c ∧
        ∀ i j, m.entry i j = false) ∧
    (¬ HasRoom s (r.toNat * c.toNat) → exec (.bmCreate r c) s = .next (s.answered .absent 0#32))

/-- R153 and R163: `BM_ROWS` and `BM_COLS` of a live matrix answer DONE with the dimension and change nothing else; any other
handle faults. -/
def Obligations.BmDimensionsResult : Prop :=
  ∀ (s : State) (ha : Handle), s.halted = false →
    (∀ m, LiveBm s ha m →
      exec (.bmRows ha) s = .next (s.answered .done (m.rows.setWidth 32)) ∧
      exec (.bmCols ha) s = .next (s.answered .done (m.cols.setWidth 32))) ∧
    BmHandleFaults (.bmRows ha) s ha ∧ BmHandleFaults (.bmCols ha) s ha

/-- R155 and R156: `BM_SET` and `BM_CLEAR` at (r, c) in range make bit r·cols + c of the inner vector 1 or 0, change no
other bit, slot or register, and answer DONE, 0; so entry (r, c) is 1 or 0 and every other entry is as before.  Any other
handle or entry faults. -/
def Obligations.BmEntryWrites : Prop :=
  ∀ (s : State) (ha : Handle) (r c : Half), s.halted = false →
    ∀ (i : Instr) (b : Bool), (i = .bmSet ha r c ∧ b = true) ∨ (i = .bmClear ha r c ∧ b = false) →
      (∀ m, s.inv = true → LiveBm s ha m → r.toNat < m.rows.toNat → c.toNat < m.cols.toNat →
        ∃ t, exec i s = .next t ∧ BitWritten s t ha.toNat (r.toNat * m.cols.toNat + c.toNat) b ∧
          ∃ m', LiveBm t ha m' ∧ m'.rows = m.rows ∧ m'.cols = m.cols ∧
            ∀ i' j', i' < m.rows.toNat → j' < m.cols.toNat →
              m'.entry i' j' = if i' = r.toNat ∧ j' = c.toNat then b else m.entry i' j') ∧
      BmAccessFaults i s ha r c

/-- R158: `BM_GET` at (r, c) in range answers DONE with the entry, 0 or 1, and changes nothing else; any other handle or
entry faults. -/
def Obligations.BmGetResult : Prop :=
  ∀ (s : State) (ha : Handle) (r c : Half), s.halted = false →
    (∀ m, LiveBm s ha m → r.toNat < m.rows.toNat → c.toNat < m.cols.toNat →
      exec (.bmGet ha r c) s = .next (s.answered .done (if m.entry r.toNat c.toNat then 1#32 else 0#32))) ∧
    BmAccessFaults (.bmGet ha r c) s ha r c

/-- R157: `BM_FROM_DATA b, n` with n at most 8 answers DONE with the least free handle, which now names a 1 × n matrix whose
column i is bit i of b; or ABSENT, with nothing changed, when n is above 8 or there is no room. -/
def Obligations.BmFromDataResult : Prop :=
  ∀ (s : State) (b8 : Byte) (n : Word), s.halted = false → s.poolSized →
    (n.toNat ≤ 8 → HasRoom s n.toNat →
      ∃ t h m, exec (.bmFromData b8 n) s = .next t ∧ Created s t h (.bm m) ∧ m.rows.toNat = 1 ∧
        m.cols.toNat = n.toNat ∧ ∀ i, i < n.toNat → m.entry 0 i = b8.getLsbD i) ∧
    (8 < n.toNat ∨ ¬ HasRoom s n.toNat → exec (.bmFromData b8 n) s = .next (s.answered .absent 0#32))

/-- R159: `BM_TO_DATA` of a live matrix of one row and at most 8 columns answers DONE with the byte whose bit i is column i,
bits at and above cols being 0, and changes nothing else; any other shape faults with TO_DATA_SHAPE (0x09), and any other
handle with its fault. -/
def Obligations.BmToDataResult : Prop :=
  ∀ (s : State) (ha : Handle), s.halted = false →
    (∀ m, LiveBm s ha m → m.rows.toNat = 1 → m.cols.toNat ≤ 8 →
      ∃ v : Byte, exec (.bmToData ha) s = .next (s.answered .done (v.setWidth 32)) ∧
        ∀ i, v.getLsbD i = (decide (i < m.cols.toNat) && m.entry 0 i)) ∧
    (∀ m, LiveBm s ha m → m.rows.toNat ≠ 1 ∨ 8 < m.cols.toNat → TakesFault (.bmToData ha) s 0x09#8) ∧
    BmHandleFaults (.bmToData ha) s ha

/-- R164: packing the row that `BM_FROM_DATA b, n` builds gives `b & ((1 << n) - 1)`, and building a row from the packing of
a 1 × n matrix gives a matrix with the same entries.
The spec marks the second law of R164 as its own derivation. -/
def Obligations.PackingRoundTrip : Prop :=
  (∀ (s : State) (b8 : Byte) (n : Word), s.halted = false → s.inv = true → n.toNat ≤ 8 → HasRoom s n.toNat →
    ∃ t h, exec (.bmFromData b8 n) s = .next t ∧ t.out = answers .done (BitVec.ofNat 32 h) ∧
      exec (.bmToData (BitVec.ofNat 8 h)) t =
        .next (t.answered .done ((b8 &&& BitVec.ofNat 8 (2 ^ n.toNat - 1)).setWidth 32))) ∧
  (∀ (s : State) (ha : Handle) (m : Mat), s.halted = false → s.inv = true → LiveBm s ha m → m.rows.toNat = 1 →
    m.cols.toNat ≤ 8 → HasRoom s m.cols.toNat →
    ∃ (v : Byte) (t : State) (h : Nat) (m' : Mat),
      exec (.bmToData ha) s = .next (s.answered .done (v.setWidth 32)) ∧
      exec (.bmFromData v (m.cols.setWidth 32)) s = .next t ∧ Created s t h (.bm m') ∧
      m'.rows = m.rows ∧ m'.cols = m.cols ∧ ∀ i, i < m.cols.toNat → m'.entry 0 i = m.entry 0 i)

/-- R160: `BM_MULTIPLY` of live matrices with A.cols = B.rows answers DONE with the least free handle, which now names an
A.rows × B.cols matrix whose entry (i, j) is the exclusive-or over k of A(i, k) and B(k, j), and A and B stay; or ABSENT,
with nothing changed, when there is no room.  A bad HA faults, then a bad HB, then A.cols ≠ B.rows with DIM_MISMATCH
(0x08). -/
def Obligations.BmMultiplyResult : Prop :=
  ∀ (s : State) (ha hb : Handle), s.halted = false → s.poolSized →
    BmHandleFaults (.bmMultiply ha hb) s ha ∧
    ∀ a, LiveBm s ha a →
      BmHandleFaults (.bmMultiply ha hb) s hb ∧
      ∀ b, LiveBm s hb b →
        (a.cols ≠ b.rows → TakesFault (.bmMultiply ha hb) s 0x08#8) ∧
        (a.cols = b.rows → HasRoom s (a.rows.toNat * b.cols.toNat) →
          ∃ t h m, exec (.bmMultiply ha hb) s = .next t ∧ Created s t h (.bm m) ∧ m.rows = a.rows ∧ m.cols = b.cols ∧
            (∀ i j, i < a.rows.toNat → j < b.cols.toNat → m.entry i j = productEntry a b i j) ∧
            LiveBm t ha a ∧ LiveBm t hb b) ∧
        (a.cols = b.rows → ¬ HasRoom s (a.rows.toNat * b.cols.toNat) →
          exec (.bmMultiply ha hb) s = .next (s.answered .absent 0#32))

/-- The product that `BM_MULTIPLY` writes is bilinear over exclusive-or, additive in its first and in its second operand, and
a row times a matrix is the exclusive-or of the rows that the row's 1 entries select (R161).
The spec marks R161 as its own derivation from R160 and R13. -/
def Obligations.MultiplyIsBilinear : Prop :=
  (∀ (n i j : Nat) (a1 a2 b : Nat → Nat → Bool),
    mulEntry n (fun p q => a1 p q ^^ a2 p q) b i j = (mulEntry n a1 b i j ^^ mulEntry n a2 b i j)) ∧
  (∀ (n i j : Nat) (a b1 b2 : Nat → Nat → Bool),
    mulEntry n a (fun p q => b1 p q ^^ b2 p q) i j = (mulEntry n a b1 i j ^^ mulEntry n a b2 i j)) ∧
  (∀ (n j : Nat) (a b : Nat → Nat → Bool),
    mulEntry n a b 0 j = (((List.range n).filter fun k => a 0 k).map fun k => b k j).foldl Bool.xor false)

/-- R162: `BM_DUMP` of a live matrix emits its dimensions and its entries in row-major order, answers DONE with rows in bits
31:16 and columns in bits 15:0, and changes nothing else; any other handle faults. -/
def Obligations.BmDumpResult : Prop :=
  ∀ (s : State) (ha : Handle), s.halted = false →
    (∀ m, LiveBm s ha m →
      ∃ grid : List Bool,
        exec (.bmDump ha) s = .next { s with out := dumps (.bmDump m.rows m.cols grid) (m.rows ++ m.cols) } ∧
        grid.length = m.rows.toNat * m.cols.toNat ∧
        ∀ r c, r < m.rows.toNat → c < m.cols.toNat → grid.getD (r * m.cols.toNat + c) false = m.entry r c) ∧
    BmHandleFaults (.bmDump ha) s ha

/-- R33: over GF(2), G × Ht is the 4 × 4 all-zero matrix: `BM_MULTIPLY` of a matrix with the entries of R28 and one with the
entries of R29 makes a 4 × 4 matrix whose every entry is 0.
The spec marks R33 as its own derivation from R28 and R29. -/
def Obligations.GeneratorTimesParityIsZero : Prop :=
  ∀ (s : State) (ha hb : Handle) (g ht : Mat), s.halted = false → s.poolSized → LiveBm s ha g → LiveBm s hb ht →
    IsG g → IsHt ht → HasRoom s 16 →
    ∃ t h m, exec (.bmMultiply ha hb) s = .next t ∧ Created s t h (.bm m) ∧ m.rows = 4#16 ∧ m.cols = 4#16 ∧
      ∀ i j, i < 4 → j < 4 → m.entry i j = false

/-! ### syndrome_lookup_table and the codec (42_hamming_codec.md) -/

/-- R196: `SYND_LOOKUP s` for s up to 15 answers DONE with entry s of the table, and changes nothing else; a value above 15
faults with RESERVED_FIELD (0x02). -/
def Obligations.SyndLookupResult : Prop :=
  ∀ (s : State) (b8 : Byte), s.halted = false →
    (b8.toNat < 16 → exec (.syndLookup b8) s = .next (s.answered .done (printedEntries.getD b8.toNat 0#32))) ∧
    (16 ≤ b8.toNat → exec (.syndLookup b8) s = .next (s.afterFault 0x02#8 (encode (.syndLookup b8))))

/-- R32: the table that `SYND_LOOKUP` reads is the one that Ht determines: no-error at 0, position k exactly at row k of Ht,
and uncorrectable elsewhere; and the positions stand at exactly the syndromes with an odd number of one bits.
The spec marks R32 as its own derivation from R29 and R31. -/
def Obligations.SyndromeTableFollowsHt : Prop :=
  ∀ rom : Rom,
    rom.synd 0#4 = .noError ∧
    (∀ (s : Nibble) (k : Fin 8), rom.synd s = .flip k ↔ printedHtRows.getD k.val 0#4 = s) ∧
    (∀ s : Nibble, rom.synd s = .uncorrectable ↔ s ≠ 0#4 ∧ popcount s % 2 = 0) ∧
    (∀ s : Nibble, (∃ k, rom.synd s = .flip k) ↔ popcount s % 2 = 1) ∧
    (∀ (k : Fin 8) (j : Fin 4), rom.ht k.val j.val = (printedHtRows.getD k.val 0#4).getLsbD j.val)

/-- R197 and R198: `HC_LOAD_G` and `HC_LOAD_HT` answer DONE with the least free handle, which now names a matrix equal to G
or to Ht; or ABSENT, with nothing changed, when there is no room for its 32 bits. -/
def Obligations.LoadConstantsResult : Prop :=
  ∀ s : State, s.halted = false → s.poolSized →
    (HasRoom s 32 → ∃ t h m, exec .hcLoadG s = .next t ∧ Created s t h (.bm m) ∧ IsG m) ∧
    (HasRoom s 32 → ∃ t h m, exec .hcLoadHt s = .next t ∧ Created s t h (.bm m) ∧ IsHt m) ∧
    (¬ HasRoom s 32 → exec .hcLoadG s = .next (s.answered .absent 0#32)) ∧
    (¬ HasRoom s 32 → exec .hcLoadHt s = .next (s.answered .absent 0#32))

/-- R200: `HC_ENCODE b` answers DONE with the codeword of b[3:0] from R82's table, whatever b[7:4] is, and changes nothing
else. -/
def Obligations.HcEncodeResult : Prop :=
  ∀ (s : State) (b8 : Byte), s.halted = false →
    exec (.hcEncode b8) s = .next (s.answered .done ((printedCodeword (b8.extractLsb' 0 4)).setWidth 32))

/-- R202: `HC_DECODE c, mi` with mi up to 15 answers DONE and changes nothing else: syndrome 0 gives OK (0) and c[3:0]; the
syndrome of row k of Ht gives CORRECTED (1) and the low nibble of c with bit k flipped; any other gives UNCORRECTABLE (2)
and mi.  A message-in above 15 faults with RESERVED_FIELD (0x02). -/
def Obligations.HcDecodeResult : Prop :=
  ∀ (s : State) (c : Byte) (mi : Word), s.halted = false →
    (mi.toNat < 16 →
      (closedSyndrome c = 0#4 →
        exec (.hcDecode c mi) s = .next (s.answered .done ((c &&& 0x0F#8).setWidth 32))) ∧
      (∀ k : Fin 8, closedSyndrome c = printedHtRows.getD k.val 0#4 →
        exec (.hcDecode c mi) s =
          .next (s.answered .done (0x100#32 ||| ((c ^^^ (1#8 <<< k.val)) &&& 0x0F#8).setWidth 32))) ∧
      (closedSyndrome c ≠ 0#4 → closedSyndrome c ∉ printedHtRows →
        exec (.hcDecode c mi) s = .next (s.answered .done (0x200#32 ||| mi)))) ∧
    (16 ≤ mi.toNat → exec (.hcDecode c mi) s = .next (s.afterFault 0x02#8 (encode (.hcDecode c mi))))

/-- R82 and R84: what the encoder and the decoder compute by multiplying with G and Ht has the printed codewords, each parity
bit being the parity of the message and its own message bit, and the closed form of the syndrome, 0 exactly for the
codewords.
The spec marks R84 as its own derivation from R29 and R83. -/
def Obligations.CodecClosedForms : Prop :=
  ∀ rom : Rom,
    (∀ b : Byte, encodeFn rom b = printedCodeword (b.extractLsb' 0 4)) ∧
    (∀ b : Byte, encodeFn rom b =
      (if parity (b.extractLsb' 0 4) then ~~~ b.extractLsb' 0 4 else b.extractLsb' 0 4) ++ b.extractLsb' 0 4) ∧
    (∀ (b : Byte) (j : Fin 4), (encodeFn rom b).getLsbD (4 + j.val) = (parity (b.extractLsb' 0 4) ^^ b.getLsbD j.val)) ∧
    (∀ c : Byte, syndromeFn rom c = closedSyndrome c) ∧
    (∀ c : Byte, syndromeFn rom c = 0#4 ↔ c ∈ printedCodewords)

/-- R201: the encoder is systematic, its codewords have syndrome 0, they are distinct and are exactly the bytes with
syndrome 0, two distinct ones differ in at least four bits, and a nonzero one has four one bits or is 0xFF.
The spec marks three of the laws of R201 as its own derivations. -/
def Obligations.EncoderLaws : Prop :=
  ∀ rom : Rom,
    (∀ m : Nibble, (encodeFn rom (m.setWidth 8)).extractLsb' 0 4 = m ∧
      syndromeFn rom (encodeFn rom (m.setWidth 8)) = 0#4) ∧
    (∀ c : Byte, syndromeFn rom c = 0#4 → ∃ m : Nibble, encodeFn rom (m.setWidth 8) = c) ∧
    (∀ m m' : Nibble, m ≠ m' → encodeFn rom (m.setWidth 8) ≠ encodeFn rom (m'.setWidth 8) ∧
      4 ≤ popcount (encodeFn rom (m.setWidth 8) ^^^ encodeFn rom (m'.setWidth 8))) ∧
    (∀ m : Nibble, encodeFn rom (m.setWidth 8) = 0#8 ∨ popcount (encodeFn rom (m.setWidth 8)) = 4 ∨
      encodeFn rom (m.setWidth 8) = 0xFF#8)

/-- R204: in any block that is not halted, encoding a message and decoding the codeword gives OK and the message, whatever
the retained message is. -/
def Obligations.DecodeOfEncodedMessage : Prop :=
  ∀ (s : State) (m : Nibble) (mi : Word), s.halted = false → mi.toNat < 16 →
    ∃ t c, exec (.hcEncode (m.setWidth 8)) s = .next t ∧ t.out = answers .done (BitVec.setWidth 32 (c : Byte)) ∧
      exec (.hcDecode c mi) t = .next (t.answered .done (m.setWidth 32))

/-- R203: a codeword with one bit flipped decodes to CORRECTED and its message, for every message, position and retained
message; its syndrome is row k of Ht and the table's entry is position k.
The spec marks R203 as derived, beside the source's sentence that it quotes. -/
def Obligations.SingleErrorIsCorrected : Prop :=
  ∀ (s : State) (m : Nibble) (k : Fin 8) (mi : Word), s.halted = false → mi.toNat < 16 →
    let r := encodeFn s.rom (m.setWidth 8) ^^^ (1#8 <<< k.val)
    exec (.hcDecode r mi) s = .next (s.answered .done (0x100#32 ||| m.setWidth 32)) ∧
    syndromeFn s.rom r = printedHtRows.getD k.val 0#4 ∧ s.rom.synd (syndromeFn s.rom r) = .flip k

/-- R205: a codeword with two distinct bits flipped decodes to UNCORRECTABLE and hands the retained message back; its
syndrome is the exclusive-or of the two rows of Ht, nonzero and with an even number of one bits, and the table's entry is
uncorrectable.
The spec marks R205 as its own derivation from R29, R32 and R202. -/
def Obligations.DoubleErrorIsDetected : Prop :=
  ∀ (s : State) (m : Nibble) (a b : Fin 8) (mi : Word), s.halted = false → mi.toNat < 16 → a ≠ b →
    let r := encodeFn s.rom (m.setWidth 8) ^^^ (1#8 <<< a.val) ^^^ (1#8 <<< b.val)
    exec (.hcDecode r mi) s = .next (s.answered .done (0x200#32 ||| mi)) ∧
    syndromeFn s.rom r = printedHtRows.getD a.val 0#4 ^^^ printedHtRows.getD b.val 0#4 ∧
    syndromeFn s.rom r ≠ 0#4 ∧ popcount (syndromeFn s.rom r) % 2 = 0 ∧
    s.rom.synd (syndromeFn s.rom r) = .uncorrectable

/-- R206 and R207, in any block that is not halted: over all 4096 messages and error patterns, by the weight of the pattern,
the number of cases of each outcome with the right, a wrong or the retained message; and of the 256 received bytes the 16
codewords give OK, the 128 bytes at one flipped bit from a codeword, and from one codeword only, give CORRECTED, and the
other 112 give UNCORRECTABLE, 16 for each of the seven nonzero syndromes of even weight.
The spec marks R206 and R207 as its own derivations. -/
def Obligations.DecoderOutcomeCounts : Prop :=
  ∀ s : State, s.halted = false →
    (weightCount s 0 0b00#2 rightMessage = 16 ∧ weightCount s 1 0b01#2 rightMessage = 128 ∧
     weightCount s 2 0b10#2 retainedMessage = 448 ∧ weightCount s 3 0b01#2 wrongMessage = 896 ∧
     weightCount s 4 0b10#2 retainedMessage = 896 ∧ weightCount s 4 0b00#2 wrongMessage = 224 ∧
     weightCount s 5 0b01#2 wrongMessage = 896 ∧ weightCount s 6 0b10#2 retainedMessage = 448 ∧
     weightCount s 7 0b01#2 wrongMessage = 128 ∧ weightCount s 8 0b00#2 wrongMessage = 16) ∧
    (∀ c mi, (hcDecodeAnswer s c mi).map Prod.fst = some 0b00#2 ↔ c ∈ printedCodewords) ∧
    (∀ c mi, (hcDecodeAnswer s c mi).map Prod.fst = some 0b01#2 ↔
      ∃! m : Nibble, ∃ k : Fin 8, c = printedCodeword m ^^^ (1#8 <<< k.val)) ∧
    (∀ c mi, (hcDecodeAnswer s c mi).map Prod.fst = some 0b10#2 ↔
      closedSyndrome c ≠ 0#4 ∧ popcount (closedSyndrome c) % 2 = 0) ∧
    (∀ y : Nibble, y ≠ 0#4 → popcount y % 2 = 0 →
      ((List.range 256).filter fun n => decide (closedSyndrome (BitVec.ofNat 8 n) = y)).length = 16)

/-- The codec commands read neither the pool nor any other state: in any two blocks that are not halted they answer the
same, and they leave all else as it was (R24, R190, R191). -/
def Obligations.CodecReadsNoState : Prop :=
  ∀ (i : Instr), (∃ b, i = .syndLookup b ∧ b.toNat < 16) ∨ (∃ b, i = .hcEncode b) ∨
      (∃ c mi, i = .hcDecode c mi ∧ mi.toNat < 16) →
    ∃ o : PortOut, ∀ s : State, s.halted = false → exec i s = .next { s with out := o }

/-! ### The host's drivers (R255 to R261) -/

/-- The host encoder writes two codewords for each byte, low nibble first, and leaves the block as it was but for its ports
(R255). -/
def Obligations.HostEncoderWritesCodewords : Prop :=
  ∀ (bs : List Byte) (s : State), s.halted = false →
    ∃ o : PortOut, hostEncode bs s =
      .ok (bs.flatMap fun b => [printedCodeword (b.extractLsb' 0 4), printedCodeword (b.extractLsb' 4 4)],
        { s with out := o })

/-- End to end (R261, item 1): decoding an encoded stream gives the stream back, with no corrected and no uncorrected error,
for every host configuration, every block that is not halted and every stream.
A lane that starts undefined sends a free value as MI (log entry 9). -/
def Obligations.HostRoundTrip : Prop :=
  ∀ (cfg : HostConfig) (bs : List Byte) (s : State), s.halted = false →
    ∃ cs s' h t, hostEncode bs s = .ok (cs, s') ∧ cs.length = 2 * bs.length ∧
      hostDecode cfg cs (HostDecoder.start cfg) s' = .ok (bs.map some, h, t) ∧
      h.corrected = 0 ∧ h.uncorrected = 0

/-- End to end (R261, item 2): with exactly one bit of one codeword byte of the encoded stream flipped, decoding gives the
stream back exactly, and the corrected count is 1.
A lane that starts undefined sends a free value as
MI (log entry 9). -/
def Obligations.HostRecoversOneFlippedBit : Prop :=
  ∀ (cfg : HostConfig) (bs : List Byte) (s : State) (p : Nat) (k : Fin 8), s.halted = false → p < 2 * bs.length →
    ∃ cs s' h t, hostEncode bs s = .ok (cs, s') ∧
      hostDecode cfg (cs.set p (cs.getD p 0#8 ^^^ (1#8 <<< k.val))) (HostDecoder.start cfg) s' =
        .ok (bs.map some, h, t) ∧
      h.corrected = 1 ∧ h.uncorrected = 0

/-- End to end (R261, item 3, as 90_conflicts.md C3 reads it): when a codeword of a pair has two distinct bits flipped, the
output byte has the retained nibble of that lane and the decoded nibble of the other, and the uncorrected count goes up
by 1. -/
def Obligations.HostRetainsOnDoubleError : Prop :=
  ∀ (h : HostDecoder) (s : State) (prev mLo mHi : Nibble) (a b : Fin 8), s.halted = false → a ≠ b →
    (h.lower = some prev →
      ∃ h' t, hostDecodePair (printedCodeword mLo ^^^ (1#8 <<< a.val) ^^^ (1#8 <<< b.val)) (printedCodeword mHi) h s =
          .ok (some (mHi ++ prev), h', t) ∧
        h'.lower = some prev ∧ h'.upper = some mHi ∧ h'.uncorrected = h.uncorrected + 1 ∧
        h'.corrected = h.corrected) ∧
    (h.upper = some prev →
      ∃ h' t, hostDecodePair (printedCodeword mLo) (printedCodeword mHi ^^^ (1#8 <<< a.val) ^^^ (1#8 <<< b.val)) h s =
          .ok (some (prev ++ mLo), h', t) ∧
        h'.lower = some mLo ∧ h'.upper = some prev ∧ h'.uncorrected = h.uncorrected + 1 ∧
        h'.corrected = h.corrected)
end

