-- ==== Sys2Proof/Laws/Encoding.lean ====
section
/-! SUPPORT. Laws of the command word: each field of a packed word is what was packed, and a word is the packing of its
fields. -/

namespace Sys2Proof

variable (op ha hb b8 : BitVec 8) (n : Word)

/-- Bit `i` of a packed word, by the field it lies in (R89). -/
theorem packWord_getLsbD (i : Nat) : (packWord op ha hb b8 n).getLsbD i =
    if i < 32 then n.getLsbD i
    else if i < 40 then b8.getLsbD (i - 32)
    else if i < 48 then hb.getLsbD (i - 40)
    else if i < 56 then ha.getLsbD (i - 48)
    else op.getLsbD (i - 56) := by
  simp only [packWord, BitVec.getLsbD_append]
  split_ifs <;> first | rfl | omega

@[simp] theorem fieldOP_packWord : fieldOP (packWord op ha hb b8 n) = op := by
  apply BitVec.eq_of_getLsbD_eq
  intro i hi
  rw [fieldOP, BitVec.getLsbD_extractLsb', packWord_getLsbD]
  simp [hi, show ¬ (56 + i < 32) by omega, show ¬ (56 + i < 40) by omega, show ¬ (56 + i < 48) by omega]

@[simp] theorem fieldHA_packWord : fieldHA (packWord op ha hb b8 n) = ha := by
  apply BitVec.eq_of_getLsbD_eq
  intro i hi
  rw [fieldHA, BitVec.getLsbD_extractLsb', packWord_getLsbD]
  simp [hi, show ¬ (48 + i < 32) by omega, show ¬ (48 + i < 40) by omega, show 48 + i < 56 by omega]

@[simp] theorem fieldHB_packWord : fieldHB (packWord op ha hb b8 n) = hb := by
  apply BitVec.eq_of_getLsbD_eq
  intro i hi
  rw [fieldHB, BitVec.getLsbD_extractLsb', packWord_getLsbD]
  simp [hi, show ¬ (40 + i < 32) by omega, show 40 + i < 48 by omega]

@[simp] theorem fieldB8_packWord : fieldB8 (packWord op ha hb b8 n) = b8 := by
  apply BitVec.eq_of_getLsbD_eq
  intro i hi
  rw [fieldB8, BitVec.getLsbD_extractLsb', packWord_getLsbD]
  simp [hi, show 32 + i < 40 by omega]

@[simp] theorem fieldN_packWord : fieldN (packWord op ha hb b8 n) = n := by
  apply BitVec.eq_of_getLsbD_eq
  intro i hi
  rw [fieldN, BitVec.getLsbD_extractLsb', packWord_getLsbD]
  simp [hi]

@[simp] theorem fieldR_packWord (r c : Half) : fieldR (packWord op ha hb b8 (packRC r c)) = r := by
  apply BitVec.eq_of_getLsbD_eq
  intro i hi
  rw [fieldR, BitVec.getLsbD_extractLsb', packWord_getLsbD, packRC, BitVec.getLsbD_append]
  simp [hi, show 16 + i < 32 by omega]

@[simp] theorem fieldC_packWord (r c : Half) : fieldC (packWord op ha hb b8 (packRC r c)) = c := by
  apply BitVec.eq_of_getLsbD_eq
  intro i hi
  rw [fieldC, BitVec.getLsbD_extractLsb', packWord_getLsbD, packRC, BitVec.getLsbD_append]
  simp [hi, show i < 32 by omega]

theorem getLsbD_extract_sub (w : CmdWord) {lo len i : Nat} (h1 : lo ≤ i) (h2 : i < lo + len) :
    (w.extractLsb' lo len).getLsbD (i - lo) = w.getLsbD i := by
  rw [BitVec.getLsbD_extractLsb', show lo + (i - lo) = i by omega, decide_eq_true (by omega), Bool.true_and]

/-- A word is the packing of its fields (R89). -/
theorem packWord_fields (w : CmdWord) : packWord (fieldOP w) (fieldHA w) (fieldHB w) (fieldB8 w) (fieldN w) = w := by
  apply BitVec.eq_of_getLsbD_eq
  intro i hi
  rw [packWord_getLsbD]
  split_ifs <;>
    exact getLsbD_extract_sub w (by omega) (by omega)

/-- The field N is its row and its column (R89). -/
theorem packRC_fields (w : CmdWord) : packRC (fieldR w) (fieldC w) = fieldN w := by
  apply BitVec.eq_of_getLsbD_eq
  intro i hi
  rw [packRC, BitVec.getLsbD_append]
  have hN : (fieldN w).getLsbD i = w.getLsbD i := @getLsbD_extract_sub w 0 _ i (by omega) (by omega)
  rw [hN]
  by_cases h : i < 16
  · rw [if_pos h]
    exact @getLsbD_extract_sub w 0 _ i (by omega) (by omega)
  · rw [if_neg h]
    exact getLsbD_extract_sub w (by omega) (by omega)

/-- And is taken field by field. -/
theorem packWord_and (op' ha' hb' b8' : BitVec 8) (n' : Word) :
    packWord op ha hb b8 n &&& packWord op' ha' hb' b8' n' =
      packWord (op &&& op') (ha &&& ha') (hb &&& hb') (b8 &&& b8') (n &&& n') := by
  apply BitVec.eq_of_getLsbD_eq
  intro i hi
  simp only [BitVec.getLsbD_and, packWord_getLsbD]
  split_ifs <;> rfl

/-- Two packed words are equal exactly when their fields are. -/
theorem packWord_inj (op' ha' hb' b8' : BitVec 8) (n' : Word) :
    packWord op ha hb b8 n = packWord op' ha' hb' b8' n' ↔
      op = op' ∧ ha = ha' ∧ hb = hb' ∧ b8 = b8' ∧ n = n' := by
  constructor
  · intro h
    exact ⟨by simpa using congrArg fieldOP h, by simpa using congrArg fieldHA h, by simpa using congrArg fieldHB h,
      by simpa using congrArg fieldB8 h, by simpa using congrArg fieldN h⟩
  · rintro ⟨rfl, rfl, rfl, rfl, rfl⟩
    rfl

/-! ### The reserved bits of a packed word, format by format (R91, R92) -/

theorem zero_packWord : (0#64 : CmdWord) = packWord 0#8 0#8 0#8 0#8 0#32 := by decide

/-- The reserved bits of a format, field by field. -/
def Format.reservedFields : Format → BitVec 8 × BitVec 8 × BitVec 8 × Word
  | .Z   => (0xFF#8, 0xFF#8, 0xFF#8, 0xFFFFFFFF#32)
  | .H   => (0x00#8, 0xFF#8, 0xFF#8, 0xFFFFFFFF#32)
  | .HH  => (0x00#8, 0x00#8, 0xFF#8, 0xFFFFFFFF#32)
  | .N   => (0xFF#8, 0xFF#8, 0xFF#8, 0x00000000#32)
  | .HN  => (0x00#8, 0xFF#8, 0xFF#8, 0x00000000#32)
  | .HNB => (0x00#8, 0xFF#8, 0x00#8, 0x00000000#32)
  | .RC  => (0xFF#8, 0xFF#8, 0xFF#8, 0x00000000#32)
  | .HRC => (0x00#8, 0xFF#8, 0xFF#8, 0x00000000#32)
  | .BN  => (0xFF#8, 0xFF#8, 0x00#8, 0x00000000#32)
  | .B   => (0xFF#8, 0xFF#8, 0x00#8, 0xFFFFFFFF#32)
  | .S   => (0xFF#8, 0xFF#8, 0xF0#8, 0xFFFFFFFF#32)
  | .D   => (0xFF#8, 0xFF#8, 0x00#8, 0xFFFFFFF0#32)

theorem Format.mask_fields (f : Format) : f.mask &&& operandBits =
    packWord 0#8 f.reservedFields.1 f.reservedFields.2.1 f.reservedFields.2.2.1 f.reservedFields.2.2.2 := by
  cases f <;> decide

/-- The mask of a format fixes the whole opcode and its reserved bits (R91). -/
theorem Format.mask_eq (f : Format) : f.mask =
    packWord 0xFF#8 f.reservedFields.1 f.reservedFields.2.1 f.reservedFields.2.2.1 f.reservedFields.2.2.2 := by
  cases f <;> decide

/-- A packed word's reserved bits are clear exactly when each field's are. -/
theorem Format.reservedClear_packWord (f : Format) : f.reservedClear (packWord op ha hb b8 n) = true ↔
    ha &&& f.reservedFields.1 = 0#8 ∧ hb &&& f.reservedFields.2.1 = 0#8 ∧ b8 &&& f.reservedFields.2.2.1 = 0#8 ∧
      n &&& f.reservedFields.2.2.2 = 0#32 := by
  unfold Format.reservedClear
  rw [decide_eq_true_iff, f.mask_fields, packWord_and, zero_packWord, packWord_inj]
  simp

@[simp] theorem and_FF (x : BitVec 8) : x &&& 0xFF#8 = x := by
  have : (0xFF#8 : BitVec 8) = BitVec.allOnes 8 := by decide
  rw [this, BitVec.and_allOnes]

@[simp] theorem and_FFFFFFFF (x : Word) : x &&& 0xFFFFFFFF#32 = x := by
  have : (0xFFFFFFFF#32 : Word) = BitVec.allOnes 32 := by decide
  rw [this, BitVec.and_allOnes]

/-- B8[7:4] is 0 exactly for a value of at most 15 (R92, format S). -/
@[simp] theorem and_F0_eq_zero (x : Byte) : x &&& 0xF0#8 = 0#8 ↔ x.toNat < 16 := by
  revert x; decide

/-- N[31:4] is 0 exactly for a value of at most 15 (R92, format D). -/
@[simp] theorem and_FFFFFFF0_eq_zero (x : Word) : x &&& 0xFFFFFFF0#32 = 0#32 ↔ x.toNat < 16 := by
  rw [← BitVec.toNat_inj]
  have h : x.toNat &&& (2 ^ 28 - 1) * 2 ^ 4 = (x.toNat / 2 ^ 4 % 2 ^ 28) * 2 ^ 4 := by
    apply Nat.eq_of_testBit_eq
    intro i
    simp only [Nat.testBit_and, Nat.testBit_mul_two_pow, Nat.testBit_mod_two_pow, Nat.testBit_div_two_pow,
      Nat.testBit_two_pow_sub_one]
    by_cases hi : 4 ≤ i
    · simp [hi, show i - 4 + 4 = i by omega, Bool.and_comm]
    · simp [hi]
  have hx : x.toNat < 2 ^ 32 := x.isLt
  have e : (x &&& 0xFFFFFFF0#32).toNat = x.toNat &&& (2 ^ 28 - 1) * 2 ^ 4 := rfl
  rw [e, h]
  simp
  omega

/-- A packed word under a format's mask is the row's pattern when its reserved fields are clear (R91). -/
theorem masked_packWord {f : Format} (h : f.reservedClear (packWord op ha hb b8 n) = true) :
    packWord op ha hb b8 n &&& f.mask = packWord op 0#8 0#8 0#8 0#32 := by
  obtain ⟨h1, h2, h3, h4⟩ := (Format.reservedClear_packWord op ha hb b8 n f).mp h
  rw [f.mask_eq, packWord_and, and_FF, h1, h2, h3, h4]

/-- The reserved bits of a command's word are clear exactly when the command is well-formed (R92). -/
theorem reservedClear_encode (i : Instr) : i.format.reservedClear (encode i) = i.wellFormed := by
  rw [Bool.eq_iff_iff, encode, Format.reservedClear_packWord]
  cases i <;> simp [Format.reservedFields, Instr.format, Instr.operandHA, Instr.operandHB, Instr.operandB8,
    Instr.operandN, Instr.wellFormed]

end Sys2Proof
end

