-- ==== Sys2Proof/Machine/Assembler.lean ====
section
/-! DEFINITION. The assembler (R103 to R105): from a line of source text to the command words it stands for, and how a host
runs such a line, with a name bound to the handle of a response.  It is no part of the block. -/

namespace Sys2Proof.Machine

/-- Why a line is not assembled or not run. -/
inductive AsmError where
  /-- The line does not have the form of R103. -/
  | badLine
  /-- A name stands for a handle and nothing has bound it. -/
  | unboundName
  /-- No command or pseudo-instruction has this mnemonic with these operands, or an operand does not fit its field. -/
  | noCommand
  /-- The block has no step: it is halted (R238). -/
  | blockStopped
  /-- The line uses a name whose handle is stale (R64). -/
  | staleHandle
  deriving DecidableEq, Repr

/-! ### Reading a line (R103) -/

/-- An operand as it stands in the text. -/
inductive SrcOperand where
  | handle (n : Nat)
  | number (v : Nat)
  | name (s : String)
  deriving DecidableEq, Repr

/-- A line: the name it binds, its mnemonic and its operands. -/
structure SrcLine where
  bind     : Option String
  mnemonic : String
  operands : List SrcOperand
  deriving DecidableEq, Repr

def isBlank (c : Char) : Bool := c == ' ' || c == '\t'

/-- The text without the blanks at its ends. -/
def trimBlanks (cs : List Char) : List Char := ((cs.dropWhile isBlank).reverse.dropWhile isBlank).reverse

def decDigit (c : Char) : Option Nat :=
  if '0' ≤ c ∧ c ≤ '9' then some (c.toNat - '0'.toNat) else none

def hexDigit (c : Char) : Option Nat :=
  if 'a' ≤ c ∧ c ≤ 'f' then some (c.toNat - 'a'.toNat + 10)
  else if 'A' ≤ c ∧ c ≤ 'F' then some (c.toNat - 'A'.toNat + 10)
  else decDigit c

/-- The digits in a base, most significant first, onto what was read before them. -/
def readDigits (digit : Char → Option Nat) (base : Nat) : Nat → List Char → Option Nat
  | acc, [] => some acc
  | acc, c :: cs =>
    match digit c with
    | none => none
    | some d => readDigits digit base (acc * base + d) cs

/-- A number in a base, with at least one digit. -/
def readBase (digit : Char → Option Nat) (base : Nat) (cs : List Char) : Option Nat :=
  if cs.isEmpty then none else readDigits digit base 0 cs

/-- A name or a mnemonic: letters, digits and underscores, not starting with a digit. -/
def readIdent (cs : List Char) : Option String :=
  match cs with
  | [] => none
  | c :: _ =>
    if (decDigit c).isNone && cs.all (fun x => x.isAlphanum || x == '_') then some (String.ofList cs) else none

/-- An operand: `h<n>` with n decimal, a number in decimal or with `0x` in hexadecimal, or a name. -/
def readOperand (cs : List Char) : Option SrcOperand :=
  match cs with
  | '0' :: 'x' :: ds => (readBase hexDigit 16 ds).map .number
  | 'h' :: ds =>
    match readBase decDigit 10 ds with
    | some n => some (.handle n)
    | none => (readIdent cs).map .name
  | _ =>
    match readBase decDigit 10 cs with
    | some v => some (.number v)
    | none => (readIdent cs).map .name

/-- The operands, separated by commas. -/
def readOperands (cs : List Char) : Option (List SrcOperand) :=
  if (trimBlanks cs).isEmpty then some []
  else ((cs.splitOn ',').map trimBlanks).mapM readOperand

/-- A command with its operands, after the name it binds, if any. -/
def readCommand (bind : Option String) (cs : List Char) : Option SrcLine := do
  let mnemonic ← readIdent (cs.takeWhile fun c => !isBlank c)
  let operands ← readOperands (cs.dropWhile fun c => !isBlank c)
  some { bind := bind, mnemonic := mnemonic, operands := operands }

/-- A line without its comment: nothing, `CMD ...`, or `name = CMD ...`. -/
def readLine (cs : List Char) : Except AsmError (Option SrcLine) :=
  let text := trimBlanks (cs.takeWhile fun c => c != ';')
  if text.isEmpty then .ok none
  else
    match text.splitOn '=' with
    | [cmd] => (readCommand none (trimBlanks cmd)).elim (.error .badLine) fun l => .ok (some l)
    | [name, cmd] =>
      match readIdent (trimBlanks name) with
      | none => .error .badLine
      | some n => (readCommand (some n) (trimBlanks cmd)).elim (.error .badLine) fun l => .ok (some l)
    | _ => .error .badLine

/-! ### Assembling (R104, R105) -/

/-- A number that fits a field of `n` bits. -/
def fitField (n : Nat) (v : Nat) : Option (BitVec n) := if v < 2 ^ n then some (BitVec.ofNat n v) else none

/-- The fields HA, HB, B8 and N that a format's operands fill (R104). -/
def asmFields : Format → List AsmOperand → Option (Handle × Handle × Byte × Word)
  | .Z, [] => some (0#8, 0#8, 0#8, 0#32)
  | .H, [.handle ha] => some (ha, 0#8, 0#8, 0#32)
  | .HH, [.handle ha, .handle hb] => some (ha, hb, 0#8, 0#32)
  | .N, [.number n] => do some (0#8, 0#8, 0#8, ← fitField 32 n)
  | .HN, [.handle ha, .number n] => do some (ha, 0#8, 0#8, ← fitField 32 n)
  | .HNB, [.handle ha, .number n, .number b] => do some (ha, 0#8, ← fitField 8 b, ← fitField 32 n)
  | .RC, [.number r, .number c] => do some (0#8, 0#8, 0#8, packRC (← fitField 16 r) (← fitField 16 c))
  | .HRC, [.handle ha, .number r, .number c] => do some (ha, 0#8, 0#8, packRC (← fitField 16 r) (← fitField 16 c))
  | .BN, [.number b, .number n] => do some (0#8, 0#8, ← fitField 8 b, ← fitField 32 n)
  | .B, [.number b] => do some (0#8, 0#8, ← fitField 8 b, 0#32)
  | .S, [.number b] => do some (0#8, 0#8, ← fitField 8 b, 0#32)
  | .D, [.number b, .number mi] => do some (0#8, 0#8, ← fitField 8 b, ← fitField 32 mi)
  | _, _ => none

/-- The row of R93 with a mnemonic. -/
def mnemonicRow? (mn : String) : Option OpRow := opcodeTable.find? fun r => (r.read 0#64).mnemonic == mn

/-- The word of a command's mnemonic and operands. -/
def asmWord (mn : String) (ops : List AsmOperand) : Option CmdWord := do
  let r ← mnemonicRow? mn
  let (ha, hb, b8, n) ← asmFields r.format ops
  some (packWord r.op ha hb b8 n)

/-- A pseudo-instruction of R105 with its operands. -/
def asmPseudo (mn : String) (ops : List AsmOperand) : Option Pseudo :=
  match ops with
  | [.handle ha, .number n] => if mn == "BV_TOGGLE" then do some (.bvToggle ha (← fitField 32 n)) else none
  | [.handle ha, .number n, .number b] =>
    if mn == "BV_PUT" && decide (b ≤ 1) then do some (.bvPut ha (← fitField 32 n) (b == 1)) else none
  | [.number b] => if mn == "ENCB" then do some (.encb (← fitField 8 b)) else none
  | [.number clo, .number chi, .number lo, .number hi] =>
    if mn == "DECB" then do
      some (.decb (← fitField 8 clo) (← fitField 8 chi) (← fitField 4 lo) (← fitField 4 hi))
    else none
  | _ => none

/-- The words that a mnemonic with its operands stands for, in order. -/
def assemble (mn : String) (ops : List AsmOperand) : Option (List CmdWord) :=
  match asmWord mn ops with
  | some w => some [w]
  | none => (asmPseudo mn ops).map fun p => p.expand.map encode

/-! ### Running a line -/

/-- The handles that names stand for, each with the generation at which the host was given it (R36, R64). -/
abbrev AsmEnv := List (String × Handle × Nat)

/-- An operand with its name replaced by the handle it is bound to, and the generation of a handle.  A handle written
as a number is one that the host holds now. -/
def resolveOperand (env : AsmEnv) (s : State) : SrcOperand → Except AsmError (AsmOperand × Option Nat)
  | .number v => .ok (.number v, none)
  | .handle n => if n < 256 then .ok (.handle (BitVec.ofNat 8 n), some (s.gen n)) else .error .noCommand
  | .name x =>
    match env.lookup x with
    | none => .error .unboundName
    | some (h, g) => .ok (.handle h, some g)

def resolveOperands (env : AsmEnv) (s : State) : List SrcOperand → Except AsmError (List (AsmOperand × Option Nat))
  | [] => .ok []
  | o :: os => do
    let x ← resolveOperand env s o
    let xs ← resolveOperands env s os
    .ok (x :: xs)

/-- The host presents words in order, with handles given at these generations: the responses, and the block after them. -/
def presentWords (genA genB : Nat) : List CmdWord → State → Except AsmError (List Response × State)
  | [], s => .ok ([], s)
  | w :: ws, s =>
    match step { s with inbox := .command w genA genB :: s.inbox } with
    | .fault _ => .error .blockStopped
    | .refused _ => .error .staleHandle
    | .next t => do
      let rest ← presentWords genA genB ws t
      .ok (t.out.response.toList ++ rest.1, rest.2)

/-- The name of a line is bound to the handle in the command's response: the VALUE of DONE, and the null handle, which is
the VALUE 0, of ABSENT (R102, R103).
DESIGN CHOICE (log entry 20): R103 says only that the name is bound to the handle in the response.  A VALUE that is no handle
binds its low 8 bits, a line of several responses binds from the last one, and FAULT binds nothing. -/
def bindName (bind : Option String) (rs : List Response) (t : State) (env : AsmEnv) : AsmEnv :=
  match bind, rs.getLast? with
  | some x, some { status := .done, value := v } => (x, v.setWidth 8, t.gen (v.setWidth 8 : Handle).toNat) :: env
  | some x, some { status := .absent, value := _ } => (x, 0#8, 0) :: env
  | _, _ => env

/-- The host runs one line: it assembles it, presents its words, and binds its name. -/
def runLine (l : SrcLine) (env : AsmEnv) (s : State) : Except AsmError (List Response × AsmEnv × State) := do
  let ops ← resolveOperands env s l.operands
  match assemble l.mnemonic (ops.map Prod.fst) with
  | none => .error .noCommand
  | some ws =>
    let gens := ops.filterMap Prod.snd
    let r ← presentWords (gens.getD 0 0) (gens.getD 1 0) ws s
    .ok (r.1, bindName l.bind r.1 r.2 env, r.2)

/-- The host runs a source text, line by line. -/
def runSource : List (List Char) → AsmEnv → State → Except AsmError (List Response × AsmEnv × State)
  | [], env, s => .ok ([], env, s)
  | cs :: lines, env, s => do
    match ← readLine cs with
    | none => runSource lines env s
    | some l =>
      let r ← runLine l env s
      let rest ← runSource lines r.2.1 r.2.2
      .ok (r.1 ++ rest.1, rest.2)

end Sys2Proof.Machine
end

