-- ==== Sys2Proof/Laws/Assembler.lean ====
section
/-! SUPPORT. What the assembler gives for a command's own mnemonic and operands (R104). -/

namespace Sys2Proof.Machine

@[simp] theorem fitField_toNat {n : Nat} (v : BitVec n) : fitField n v.toNat = some v := by
  simp [fitField, v.isLt]

/-- The word assembled from a command's mnemonic and operands is the command's own word. -/
theorem asmWord_asmOperands (i : Instr) : asmWord i.mnemonic i.asmOperands = some (encode i) := by
  cases i <;>
    simp [asmWord, mnemonicRow?, opcodeTable, bitVectorRows, bitMatrixRows, codecRows, Instr.mnemonic,
      Instr.asmOperands, asmFields, encode, Instr.opcode, Instr.operandHA, Instr.operandHB, Instr.operandB8,
      Instr.operandN]

/-- A command's line of text assembles to one word, its own. -/
theorem assemble_asmOperands (i : Instr) : assemble i.mnemonic i.asmOperands = some [encode i] := by
  simp [assemble, asmWord_asmOperands]

end Sys2Proof.Machine
end

