-- ==== Sys2Proof/Laws/Memory.lean ====
section
/-! SUPPORT. Laws of one object's storage: reading after writing, the canonical form, and the bits that lie within an
object. -/

namespace Sys2Proof.Machine

/-! ### Bytes -/

@[simp] theorem Memory.readByte_nil (k : Nat) : Memory.readByte [] k = Memory.unlisted := rfl

theorem Memory.readByte_cons (a : Nat) (b : Byte) (m : Memory) (k : Nat) :
    Memory.readByte ((a, b) :: m) k = if a = k then b else Memory.readByte m k := rfl

/-- In canonical form from `lo` on, every byte below `lo` is unlisted. -/
theorem Memory.readByte_of_lt {lo : Nat} {m : Memory} (h : Memory.wfFrom lo m = true) {k : Nat} (hk : k < lo) :
    Memory.readByte m k = Memory.unlisted := by
  induction m generalizing lo with
  | nil => rfl
  | cons c m ih =>
    obtain ⟨a, b⟩ := c
    simp only [Memory.wfFrom, Bool.and_eq_true, decide_eq_true_eq] at h
    obtain ⟨⟨hla, -⟩, hm⟩ := h
    rw [Memory.readByte_cons, if_neg (by omega)]
    exact ih hm (by omega)

theorem Memory.wfFrom_mono {lo lo' : Nat} {m : Memory} (h : Memory.wfFrom lo m = true) (hl : lo' ≤ lo) :
    Memory.wfFrom lo' m = true := by
  cases m with
  | nil => rfl
  | cons c m =>
    obtain ⟨a, b⟩ := c
    simp only [Memory.wfFrom, Bool.and_eq_true, decide_eq_true_eq] at h ⊢
    exact ⟨⟨by omega, h.1.2⟩, h.2⟩

/-- A written byte reads back, and every other byte reads as before. -/
theorem Memory.readByte_writeByte {lo : Nat} {m : Memory} (h : Memory.wfFrom lo m = true) (k : Nat) (v : Byte)
    (j : Nat) : Memory.readByte (m.writeByte k v) j = if j = k then v else Memory.readByte m j := by
  induction m generalizing lo with
  | nil =>
    simp only [Memory.writeByte]
    split_ifs with hv hj hj
    · simp [hv]
    · rfl
    · simp [Memory.readByte_cons, hj]
    · rw [Memory.readByte_cons, if_neg (fun e => hj e.symm)]
  | cons c m ih =>
    obtain ⟨a, b⟩ := c
    have hw := h
    simp only [Memory.wfFrom, Bool.and_eq_true, decide_eq_true_eq] at h
    obtain ⟨⟨-, -⟩, hm⟩ := h
    simp only [Memory.writeByte]
    by_cases hka : k < a
    · rw [if_pos hka]
      have hk : Memory.readByte ((a, b) :: m) k = Memory.unlisted := by
        rw [Memory.readByte_cons, if_neg (by omega)]
        exact Memory.readByte_of_lt hm (by omega)
      by_cases hv : v = Memory.unlisted
      · rw [if_pos hv]
        by_cases hj : j = k
        · rw [if_pos hj, hj, hk, hv]
        · rw [if_neg hj]
      · rw [if_neg hv, Memory.readByte_cons (a := k)]
        by_cases hj : j = k
        · simp [hj]
        · rw [if_neg (fun e => hj e.symm), if_neg hj]
    · rw [if_neg hka]
      by_cases hkeq : k = a
      · subst hkeq
        rw [if_pos rfl]
        by_cases hv : v = Memory.unlisted
        · rw [if_pos hv]
          by_cases hj : j = k
          · rw [if_pos hj, hj, hv]
            exact Memory.readByte_of_lt hm (by omega)
          · rw [if_neg hj, Memory.readByte_cons, if_neg (fun e => hj e.symm)]
        · rw [if_neg hv, Memory.readByte_cons, Memory.readByte_cons]
          by_cases hj : j = k
          · simp [hj]
          · have hj' : ¬ k = j := fun e => hj e.symm
            rw [if_neg hj', if_neg hj, if_neg hj']
      · rw [if_neg hkeq, Memory.readByte_cons, Memory.readByte_cons, ih hm]
        by_cases haj : a = j
        · rw [if_pos haj, if_pos haj, if_neg (by omega)]
        · rw [if_neg haj, if_neg haj]

/-- Writing keeps the canonical form. -/
theorem Memory.wfFrom_writeByte {lo : Nat} {m : Memory} (h : Memory.wfFrom lo m = true) {k : Nat} (hk : lo ≤ k)
    (v : Byte) : Memory.wfFrom lo (m.writeByte k v) = true := by
  induction m generalizing lo with
  | nil =>
    simp only [Memory.writeByte]
    split_ifs with hv
    · rfl
    · simp [Memory.wfFrom, hk, hv]
  | cons c m ih =>
    obtain ⟨a, b⟩ := c
    have hw := h
    simp only [Memory.wfFrom, Bool.and_eq_true, decide_eq_true_eq] at h
    obtain ⟨⟨hla, hb⟩, hm⟩ := h
    simp only [Memory.writeByte]
    split_ifs with hka hv hkeq hv
    · exact hw
    · simp only [Memory.wfFrom, Bool.and_eq_true, decide_eq_true_eq]
      exact ⟨⟨hk, hv⟩, ⟨⟨by omega, hb⟩, hm⟩⟩
    · exact Memory.wfFrom_mono hm (by omega)
    · simp only [Memory.wfFrom, Bool.and_eq_true, decide_eq_true_eq]
      subst hkeq
      exact ⟨⟨hk, hv⟩, hm⟩
    · simp only [Memory.wfFrom, Bool.and_eq_true, decide_eq_true_eq]
      exact ⟨⟨hla, hb⟩, ih hm (by omega)⟩

theorem Memory.wf_writeByte {m : Memory} (h : m.wf = true) (k : Nat) (v : Byte) : (m.writeByte k v).wf = true :=
  Memory.wfFrom_writeByte h (Nat.zero_le k) v

@[simp] theorem Memory.wf_nil : Memory.wf [] = true := rfl

/-- Two canonical storages with the same bytes are the same data. -/
theorem Memory.eq_of_readByte_eq {lo : Nat} {m m' : Memory} (h : Memory.wfFrom lo m = true)
    (h' : Memory.wfFrom lo m' = true) (e : ∀ k, Memory.readByte m k = Memory.readByte m' k) : m = m' := by
  induction m generalizing lo m' with
  | nil =>
    cases m' with
    | nil => rfl
    | cons c m' =>
      obtain ⟨a, b⟩ := c
      simp only [Memory.wfFrom, Bool.and_eq_true, decide_eq_true_eq] at h'
      have := e a
      simp only [Memory.readByte_nil, Memory.readByte_cons, if_true] at this
      exact absurd this.symm h'.1.2
  | cons c m ih =>
    obtain ⟨a, b⟩ := c
    simp only [Memory.wfFrom, Bool.and_eq_true, decide_eq_true_eq] at h
    obtain ⟨⟨hla, hb⟩, hm⟩ := h
    cases m' with
    | nil =>
      have := e a
      simp only [Memory.readByte_nil, Memory.readByte_cons, if_true] at this
      exact absurd this hb
    | cons c' m' =>
      obtain ⟨a', b'⟩ := c'
      simp only [Memory.wfFrom, Bool.and_eq_true, decide_eq_true_eq] at h'
      obtain ⟨⟨hla', hb'⟩, hm'⟩ := h'
      have haa : a = a' := by
        rcases Nat.lt_trichotomy a a' with hlt | heq | hgt
        · have := e a
          rw [Memory.readByte_cons, if_pos rfl, Memory.readByte_cons, if_neg (by omega),
            Memory.readByte_of_lt hm' (by omega)] at this
          exact absurd this hb
        · exact heq
        · have := e a'
          rw [Memory.readByte_cons, if_neg (by omega), Memory.readByte_cons, if_pos rfl,
            Memory.readByte_of_lt hm (by omega)] at this
          exact absurd this.symm hb'
      subst haa
      have hbb : b = b' := by
        have := e a
        simpa [Memory.readByte_cons] using this
      subst hbb
      have : m = m' := ih hm hm' fun k => by
        by_cases hk : a = k
        · rw [Memory.readByte_of_lt hm (by omega), Memory.readByte_of_lt hm' (by omega)]
        · have := e k
          rwa [Memory.readByte_cons, Memory.readByte_cons, if_neg hk, if_neg hk] at this
      rw [this]

/-! ### Bits -/

theorem bitMask_getLsbD (p q : Nat) (hq : q < 8) : (bitMask p).getLsbD q = decide (q = p) := by
  simp only [bitMask, BitVec.getLsbD_shiftLeft, BitVec.getLsbD_one]
  by_cases h : q = p
  · subst h; simp [hq]
  · simp only [h, decide_false]
    by_cases hlt : q < p
    · simp [hlt]
    · have : q - p ≠ 0 := by omega
      simp [this]

@[simp] theorem Memory.readBit_nil (i : Nat) : Memory.readBit [] i = false := by
  simp [Memory.readBit, Memory.unlisted]

/-- A written bit reads back, and every other bit reads as before (R56, R129). -/
theorem Memory.readBit_writeBit {m : Memory} (h : m.wf = true) (i : Nat) (b : Bool) (j : Nat) :
    (m.writeBit i b).readBit j = if j = i then b else m.readBit j := by
  have hj8 : j % 8 < 8 := Nat.mod_lt _ (by omega)
  simp only [Memory.readBit, Memory.writeBit, Memory.readByte_writeByte h]
  by_cases hq : j / 8 = i / 8
  · rw [if_pos hq]
    by_cases hji : j = i
    · subst hji
      cases b <;>
        simp only [Bool.false_eq_true, if_false, if_true, BitVec.getLsbD_or, BitVec.getLsbD_and, BitVec.getLsbD_not,
          bitMask_getLsbD _ _ hj8, decide_true] <;> simp
    · have hne : j % 8 ≠ i % 8 := fun e => hji (by omega)
      rw [if_neg hji, hq]
      cases b <;>
        simp only [Bool.false_eq_true, if_false, if_true, BitVec.getLsbD_or, BitVec.getLsbD_and, BitVec.getLsbD_not,
          bitMask_getLsbD _ _ hj8, hne, decide_false] <;> simp [hj8]
  · rw [if_neg hq, if_neg (fun e => hq (by rw [e]))]

theorem Memory.wf_writeBit {m : Memory} (h : m.wf = true) (i : Nat) (b : Bool) : (m.writeBit i b).wf = true :=
  Memory.wf_writeByte h _ _

theorem Memory.wf_fill (f : Nat → Bool) (n : Nat) {m : Memory} (h : m.wf = true) : (Memory.fill f n m).wf = true := by
  induction n with
  | zero => exact h
  | succ n ih => exact Memory.wf_writeBit ih _ _

/-- Filling writes exactly the bits below `n`. -/
theorem Memory.readBit_fill (f : Nat → Bool) (n : Nat) {m : Memory} (h : m.wf = true) (j : Nat) :
    (Memory.fill f n m).readBit j = if j < n then f j else m.readBit j := by
  induction n with
  | zero => simp [Memory.fill]
  | succ n ih =>
    rw [Memory.fill, Memory.readBit_writeBit (Memory.wf_fill f n h), ih]
    by_cases hjn : j = n
    · subst hjn; simp
    · rw [if_neg hjn]
      by_cases hlt : j < n
      · rw [if_pos hlt, if_pos (by omega)]
      · rw [if_neg hlt, if_neg (by omega)]

/-! ### Bits within an object (R52, R54) -/

/-- A canonical storage lies within `bits` exactly when every bit at `bits` or above reads 0. -/
theorem Memory.within_iff {m : Memory} (h : m.wf = true) (bits : Nat) :
    m.within bits = true ↔ ∀ i, bits ≤ i → m.readBit i = false := by
  have key : ∀ {lo : Nat} {m : Memory}, Memory.wfFrom lo m = true →
      ((m.all fun cell => (List.range 8).all fun p => !cell.2.getLsbD p || decide (cell.1 * 8 + p < bits)) = true ↔
        ∀ i, bits ≤ i → (Memory.readByte m (i / 8)).getLsbD (i % 8) = false) := by
    intro lo m
    induction m generalizing lo with
    | nil => intro _; simp [Memory.unlisted]
    | cons c m ih =>
      obtain ⟨a, b⟩ := c
      intro h
      simp only [Memory.wfFrom, Bool.and_eq_true, decide_eq_true_eq] at h
      obtain ⟨⟨-, -⟩, hm⟩ := h
      rw [List.all_cons, Bool.and_eq_true, ih hm]
      constructor
      · rintro ⟨hb, hr⟩ i hi
        rw [Memory.readByte_cons]
        by_cases ha : a = i / 8
        · rw [if_pos ha]
          have hp := List.all_eq_true.mp hb (i % 8) (List.mem_range.mpr (Nat.mod_lt _ (by omega)))
          simp only [Bool.or_eq_true, Bool.not_eq_true', decide_eq_true_eq] at hp
          rcases hp with hp | hp
          · exact hp
          · omega
        · rw [if_neg ha]; exact hr i hi
      · intro hall
        constructor
        · rw [List.all_eq_true]
          intro p hp
          have hp8 : p < 8 := List.mem_range.mp hp
          simp only [Bool.or_eq_true, Bool.not_eq_true', decide_eq_true_eq]
          by_cases hlt : a * 8 + p < bits
          · exact Or.inr hlt
          · left
            have := hall (a * 8 + p) (by omega)
            have h1 : (a * 8 + p) / 8 = a := by omega
            have h2 : (a * 8 + p) % 8 = p := by omega
            rw [h1, h2, Memory.readByte_cons, if_pos rfl] at this
            exact this
        · intro i hi
          by_cases ha : a = i / 8
          · rw [Memory.readByte_of_lt hm (by omega)]
            simp [Memory.unlisted]
          · have := hall i hi
            rwa [Memory.readByte_cons, if_neg ha] at this
  exact key h

theorem Memory.within_writeBit {m : Memory} (h : m.wf = true) {bits i : Nat} (hw : m.within bits = true) (hi : i < bits)
    (b : Bool) : (m.writeBit i b).within bits = true := by
  rw [Memory.within_iff (Memory.wf_writeBit h i b)]
  intro j hj
  rw [Memory.readBit_writeBit h, if_neg (by omega)]
  exact (Memory.within_iff h bits).mp hw j hj

theorem Memory.within_fill (f : Nat → Bool) {n bits : Nat} (hn : n ≤ bits) :
    (Memory.fill f n []).within bits = true := by
  rw [Memory.within_iff (Memory.wf_fill f n Memory.wf_nil)]
  intro j hj
  rw [Memory.readBit_fill f n Memory.wf_nil, if_neg (by omega), Memory.readBit_nil]

end Sys2Proof.Machine
end

