-- ==== Sys2Proof/Laws/State.lean ====
section
/-! SUPPORT. One lemma per field per update of the state, each true by its definition. -/

namespace Sys2Proof.Machine

/-! ### setSlot -/

@[simp] theorem State.setSlot_zero (s : State) (sl : Slot) : s.setSlot 0 sl = s := rfl
@[simp] theorem State.setSlot_cfg (s : State) (h : Nat) (sl : Slot) : (s.setSlot h sl).cfg = s.cfg := by cases h <;> rfl
@[simp] theorem State.setSlot_halted (s : State) (h : Nat) (sl : Slot) : (s.setSlot h sl).halted = s.halted := by
  cases h <;> rfl
@[simp] theorem State.setSlot_faultCode (s : State) (h : Nat) (sl : Slot) :
    (s.setSlot h sl).faultCode = s.faultCode := by cases h <;> rfl
@[simp] theorem State.setSlot_faultCmd (s : State) (h : Nat) (sl : Slot) : (s.setSlot h sl).faultCmd = s.faultCmd := by
  cases h <;> rfl
@[simp] theorem State.setSlot_inbox (s : State) (h : Nat) (sl : Slot) : (s.setSlot h sl).inbox = s.inbox := by
  cases h <;> rfl
@[simp] theorem State.setSlot_out (s : State) (h : Nat) (sl : Slot) : (s.setSlot h sl).out = s.out := by
  cases h <;> rfl
@[simp] theorem State.setSlot_slots_length (s : State) (h : Nat) (sl : Slot) :
    (s.setSlot h sl).slots.length = s.slots.length := by cases h <;> simp [State.setSlot]

/-! ### respond, respondDump -/

section
variable (st : Status) (v : Word) (d : DiagRecord) (s : State)

@[simp] theorem respond_cfg : (respond st v s).cfg = s.cfg := rfl
@[simp] theorem respond_slots : (respond st v s).slots = s.slots := rfl
@[simp] theorem respond_halted : (respond st v s).halted = s.halted := rfl
@[simp] theorem respond_faultCode : (respond st v s).faultCode = s.faultCode := rfl
@[simp] theorem respond_faultCmd : (respond st v s).faultCmd = s.faultCmd := rfl
@[simp] theorem respond_inbox : (respond st v s).inbox = s.inbox := rfl
@[simp] theorem respond_response : (respond st v s).out.response = some { status := st, value := v } := rfl
@[simp] theorem respond_diag : (respond st v s).out.diag = none := rfl
@[simp] theorem respond_statusPort : (respond st v s).out.statusPort = none := rfl
@[simp] theorem respond_slot (h : Nat) : (respond st v s).slot h = s.slot h := by cases h <;> rfl
@[simp] theorem respond_obj (h : Nat) : (respond st v s).obj h = s.obj h := by cases h <;> rfl
@[simp] theorem respond_gen (h : Nat) : (respond st v s).gen h = s.gen h := by cases h <;> rfl
@[simp] theorem respond_memRead (h i : Nat) : memRead (respond st v s) h i = memRead s h i := by
  simp [memRead]

@[simp] theorem respondDump_cfg : (respondDump d v s).cfg = s.cfg := rfl
@[simp] theorem respondDump_slots : (respondDump d v s).slots = s.slots := rfl
@[simp] theorem respondDump_halted : (respondDump d v s).halted = s.halted := rfl
@[simp] theorem respondDump_faultCode : (respondDump d v s).faultCode = s.faultCode := rfl
@[simp] theorem respondDump_faultCmd : (respondDump d v s).faultCmd = s.faultCmd := rfl
@[simp] theorem respondDump_inbox : (respondDump d v s).inbox = s.inbox := rfl
@[simp] theorem respondDump_response : (respondDump d v s).out.response = some { status := .done, value := v } := rfl
@[simp] theorem respondDump_diag : (respondDump d v s).out.diag = some d := rfl
@[simp] theorem respondDump_slot (h : Nat) : (respondDump d v s).slot h = s.slot h := by cases h <;> rfl

end

/-! ### raiseFault -/

section
variable (c : FaultCode) (w : CmdWord) (s : State)

@[simp] theorem raiseFault_cfg : (raiseFault c w s).cfg = s.cfg := rfl
@[simp] theorem raiseFault_slots : (raiseFault c w s).slots = s.slots := rfl
@[simp] theorem raiseFault_halted : (raiseFault c w s).halted = true := rfl
@[simp] theorem raiseFault_faultCode : (raiseFault c w s).faultCode = c.code := rfl
@[simp] theorem raiseFault_faultCmd : (raiseFault c w s).faultCmd = w := rfl
@[simp] theorem raiseFault_inbox : (raiseFault c w s).inbox = s.inbox := rfl
@[simp] theorem raiseFault_response :
    (raiseFault c w s).out.response = some { status := .fault, value := c.code.setWidth 32 } := rfl
@[simp] theorem raiseFault_slot (h : Nat) : (raiseFault c w s).slot h = s.slot h := by cases h <;> rfl

end

/-! ### hostReset, hostReadStatus, hostIdle, the inbox -/

section
variable (n : Nat) (s : State) (es : List HostEvent) (o : PortOut)

@[simp] theorem hostReset_cfg : (hostReset s).cfg = s.cfg := rfl
@[simp] theorem hostReset_halted : (hostReset s).halted = false := rfl
@[simp] theorem hostReset_faultCode : (hostReset s).faultCode = 0#8 := rfl
@[simp] theorem hostReset_faultCmd : (hostReset s).faultCmd = 0#64 := rfl
@[simp] theorem hostReset_inbox : (hostReset s).inbox = s.inbox := rfl
@[simp] theorem hostReset_out : (hostReset s).out = PortOut.idle := rfl
@[simp] theorem hostReset_slot (h : Nat) : (hostReset s).slot h = Slot.fresh := by
  cases h with
  | zero => rfl
  | succ k =>
    simp only [hostReset, State.slot, List.getD_eq_getElem?_getD, List.getElem?_map]
    cases s.slots[k]? <;> rfl

@[simp] theorem hostReadStatus_cfg : (hostReadStatus n s).cfg = s.cfg := rfl
@[simp] theorem hostReadStatus_slots : (hostReadStatus n s).slots = s.slots := rfl
@[simp] theorem hostReadStatus_halted : (hostReadStatus n s).halted = s.halted := rfl
@[simp] theorem hostReadStatus_faultCode : (hostReadStatus n s).faultCode = s.faultCode := rfl
@[simp] theorem hostReadStatus_faultCmd : (hostReadStatus n s).faultCmd = s.faultCmd := rfl
@[simp] theorem hostReadStatus_inbox : (hostReadStatus n s).inbox = s.inbox := rfl

@[simp] theorem hostIdle_cfg : (hostIdle s).cfg = s.cfg := rfl
@[simp] theorem hostIdle_slots : (hostIdle s).slots = s.slots := rfl
@[simp] theorem hostIdle_halted : (hostIdle s).halted = s.halted := rfl
@[simp] theorem hostIdle_faultCode : (hostIdle s).faultCode = s.faultCode := rfl
@[simp] theorem hostIdle_faultCmd : (hostIdle s).faultCmd = s.faultCmd := rfl
@[simp] theorem hostIdle_inbox : (hostIdle s).inbox = s.inbox := rfl

@[simp] theorem State.slot_inbox (h : Nat) : State.slot { s with inbox := es } h = s.slot h := by cases h <;> rfl
@[simp] theorem State.slot_out (h : Nat) : State.slot { s with out := o } h = s.slot h := by cases h <;> rfl
@[simp] theorem State.present_inbox (w : CmdWord) : (s.present w).inbox =
    .command w (s.gen (fieldHA w).toNat) (s.gen (fieldHB w).toNat) :: s.inbox := rfl

end

end Sys2Proof.Machine
end

