-- ==== Sys2Proof/Laws/Pool.lean ====
section
/-! SUPPORT. Laws of the pool: slots after a write, the least free handle, the bytes in use, `Alloc`, `Free`, `MemRead` and
`MemWrite`. -/

namespace Sys2Proof.Machine

/-! ### Slots -/

@[simp] theorem State.slot_zero (s : State) : s.slot 0 = Slot.fresh := rfl
@[simp] theorem State.obj_zero (s : State) : s.obj 0 = none := rfl

/-- A live slot is one of the pool's. -/
theorem State.lt_of_obj {s : State} {h : Nat} {o : Object} (ho : s.obj h = some o) : 1 ≤ h ∧ h ≤ s.slots.length := by
  cases h with
  | zero => simp at ho
  | succ k =>
    refine ⟨by omega, ?_⟩
    by_contra hk
    simp only [State.obj, State.slot, List.getD_eq_getElem?_getD] at ho
    rw [List.getElem?_eq_none (by omega)] at ho
    simp [Slot.fresh] at ho

theorem State.slot_setSlot_self {s : State} {h : Nat} (h1 : 1 ≤ h) (h2 : h ≤ s.slots.length) (sl : Slot) :
    (s.setSlot h sl).slot h = sl := by
  cases h with
  | zero => omega
  | succ k =>
    simp only [State.setSlot, State.slot, List.getD_eq_getElem?_getD]
    rw [List.getElem?_set_self (by omega)]
    rfl

theorem State.slot_setSlot_ne {s : State} {h k : Nat} (hk : k ≠ h) (sl : Slot) :
    (s.setSlot h sl).slot k = s.slot k := by
  cases h with
  | zero => rfl
  | succ h =>
    cases k with
    | zero => rfl
    | succ k =>
      simp only [State.setSlot, State.slot, List.getD_eq_getElem?_getD]
      rw [List.getElem?_set_ne (by omega)]

/-- A slot of the pool is at its place in the list. -/
theorem State.slot_mem {s : State} {h : Nat} (h1 : 1 ≤ h) (h2 : h ≤ s.slots.length) : s.slot h ∈ s.slots := by
  cases h with
  | zero => omega
  | succ k =>
    simp only [State.slot, List.getD_eq_getElem?_getD]
    rw [List.getElem?_eq_getElem (by omega)]
    exact List.getElem_mem _

/-! ### Bytes in use -/

theorem sum_map_set_slot (l : List Slot) (k : Nat) (hk : k < l.length) (sl : Slot) :
    ((l.set k sl).map Slot.bytes).sum + (l.getD k Slot.fresh).bytes = (l.map Slot.bytes).sum + sl.bytes := by
  induction l generalizing k with
  | nil => simp at hk
  | cons a l ih =>
    cases k with
    | zero => simp [List.getD_eq_getElem?_getD]; omega
    | succ k =>
      have := ih k (by simpa using hk)
      simp only [List.set_cons_succ, List.map_cons, List.sum_cons, List.getD_cons_succ]
      omega

/-- What a slot's change does to `used_bytes`. -/
theorem State.usedBytes_setSlot {s : State} {h : Nat} (h1 : 1 ≤ h) (h2 : h ≤ s.slots.length) (sl : Slot) :
    (s.setSlot h sl).usedBytes + (s.slot h).bytes = s.usedBytes + sl.bytes := by
  cases h with
  | zero => omega
  | succ k => exact sum_map_set_slot s.slots k (by omega) sl

@[simp] theorem respond_usedBytes (st : Status) (v : Word) (s : State) : (respond st v s).usedBytes = s.usedBytes := rfl

/-! ### The least free handle and Alloc (R61) -/

theorem State.freeHandle_some {s : State} {h : Nat} : s.freeHandle = some h ↔ LeastFree s h := by
  unfold State.freeHandle LeastFree
  rw [List.find?_eq_some_iff_getElem]
  constructor
  · rintro ⟨hn, i, hi, rfl, hlt⟩
    simp only [List.length_map, List.length_range] at hi
    simp only [List.getElem_map, List.getElem_range, Option.isNone_iff_eq_none] at hn ⊢
    refine ⟨by omega, by omega, hn, fun k hk1 hk2 => ?_⟩
    have := hlt (k - 1) (by omega)
    simp only [List.getElem_map, List.getElem_range] at this
    rw [show k - 1 + 1 = k by omega] at this
    intro hc
    simp [hc] at this
  · rintro ⟨h1, h2, hn, hall⟩
    refine ⟨by simp [hn], h - 1, by simp; omega, by simp; omega, fun j hj => ?_⟩
    have := hall (j + 1) (by omega) (by omega)
    simp only [List.getElem_map, List.getElem_range]
    cases ho : s.obj (j + 1) with
    | none => exact absurd ho this
    | some o => rfl

theorem State.freeHandle_none {s : State} :
    s.freeHandle = none ↔ ∀ h, 1 ≤ h → h ≤ s.cfg.numHandles → s.obj h ≠ none := by
  unfold State.freeHandle
  rw [List.find?_eq_none]
  constructor
  · intro hall h h1 h2
    have := hall h (by simp only [List.mem_map, List.mem_range]; exact ⟨h - 1, by omega, by omega⟩)
    intro hc
    simp [hc] at this
  · intro hall h hm
    simp only [List.mem_map, List.mem_range] at hm
    obtain ⟨k, hk, rfl⟩ := hm
    have := hall (k + 1) (by omega) (by omega)
    simpa [Option.isNone_iff_eq_none] using this

/-- All that `Alloc` can do when it succeeds. -/
theorem alloc_some {o : Object} {s t : State} {h : Nat} :
    alloc o s = some (h, t) ↔ LeastFree s h ∧ s.usedBytes + bytesFor o.bits ≤ s.cfg.storageBytes ∧
      t = s.setSlot h { gen := s.gen h + 1, obj := some o } := by
  unfold alloc
  cases hf : s.freeHandle with
  | none =>
    simp only [reduceCtorEq, false_iff]
    rintro ⟨hl, -⟩
    rw [← State.freeHandle_some, hf] at hl
    simp at hl
  | some k =>
    have hk := State.freeHandle_some.mp hf
    simp only
    split_ifs with hgt
    · simp only [false_iff]
      rintro ⟨-, hle, -⟩
      omega
    · simp only [Option.some.injEq, Prod.mk.injEq]
      constructor
      · rintro ⟨rfl, rfl⟩
        exact ⟨hk, by omega, rfl⟩
      · rintro ⟨hl, -, rfl⟩
        rw [← State.freeHandle_some, hf] at hl
        simp only [Option.some.injEq] at hl
        subst hl
        exact ⟨rfl, rfl⟩

/-- `Alloc` fails exactly when no slot is free or the bytes do not fit (R61). -/
theorem alloc_none {o : Object} {s : State} : alloc o s = none ↔ ¬ HasRoom s o.bits := by
  unfold alloc HasRoom
  cases hf : s.freeHandle with
  | none =>
    simp only [true_iff]
    rintro ⟨⟨h, h1, h2, hn⟩, -⟩
    exact State.freeHandle_none.mp hf h h1 h2 hn
  | some k =>
    obtain ⟨h1, h2, hn, -⟩ := State.freeHandle_some.mp hf
    simp only
    split_ifs with hgt
    · simp only [true_iff]
      rintro ⟨-, hle⟩
      omega
    · simp only [false_iff, not_not]
      exact ⟨⟨k, h1, h2, hn⟩, by omega⟩

/-- With room in the pool, there is a least free handle. -/
theorem HasRoom.leastFree {s : State} {bits : Nat} (h : HasRoom s bits) : ∃ k, LeastFree s k := by
  obtain ⟨⟨h, h1, h2, hn⟩, -⟩ := h
  cases hf : s.freeHandle with
  | none => exact absurd hn (State.freeHandle_none.mp hf h h1 h2)
  | some k => exact ⟨k, State.freeHandle_some.mp hf⟩

/-- All that the end of a create can do: ABSENT with nothing else changed, or DONE with the new object at the least free
handle. -/
theorem create_cases (o : Object) (s : State) :
    (¬ HasRoom s o.bits ∧ create o s = respond .absent 0#32 s) ∨
    (HasRoom s o.bits ∧ ∃ h, LeastFree s h ∧
      create o s = respond .done (BitVec.ofNat 32 h) (s.setSlot h { gen := s.gen h + 1, obj := some o })) := by
  unfold create
  cases ha : alloc o s with
  | none => exact Or.inl ⟨alloc_none.mp ha, rfl⟩
  | some p =>
    obtain ⟨h, t⟩ := p
    obtain ⟨hl, hle, rfl⟩ := alloc_some.mp ha
    exact Or.inr ⟨⟨⟨h, hl.1, hl.2.1, hl.2.2.1⟩, hle⟩, h, hl, rfl⟩

/-- A create with room leaves its object at the least free handle. -/
theorem create_created {o : Object} {s : State} (hp : s.poolSized) (hr : HasRoom s o.bits) :
    ∃ h, Created s (create o s) h o := by
  rcases create_cases o s with ⟨hn, -⟩ | ⟨-, h, hl, he⟩
  · exact absurd hr hn
  · refine ⟨h, hl, ?_, ?_, ⟨⟨?_, ?_, ?_, ?_, ?_, ?_, rfl⟩, fun k hk => ?_⟩, ?_⟩ <;> rw [he]
    · rw [respond_obj, State.obj, State.slot_setSlot_self hl.1 (hp ▸ hl.2.1)]
    · rw [respond_gen, State.gen, State.slot_setSlot_self hl.1 (hp ▸ hl.2.1)]
    · simp
    · simp
    · simp
    · simp
    · simp
    · simp
    · rw [respond_slot, State.slot_setSlot_ne hk]
    · rfl

/-! ### MemRead and MemWrite (R56) -/

@[simp] theorem Object.withStorage_storage (o : Object) (st : Memory) : (o.withStorage st).storage = st := by
  cases o <;> rfl

@[simp] theorem Object.withStorage_bits (o : Object) (st : Memory) : (o.withStorage st).bits = o.bits := by
  cases o <;> rfl

theorem memWrite_eq {s : State} {h : Nat} {o : Object} (ho : s.obj h = some o) (i : Nat) (b : Bool) :
    memWrite h i b s = s.setSlot h { gen := s.gen h, obj := some (o.withStorage (o.storage.writeBit i b)) } := by
  simp [memWrite, ho]

/-- A write to one bit of a canonical object, answered DONE, 0: the whole of what it leaves. -/
theorem bitWritten_memWrite {s : State} {h : Nat} {o : Object} (ho : s.obj h = some o) (hw : o.storage.wf = true)
    (i : Nat) (b : Bool) : BitWritten s (respond .done 0#32 (memWrite h i b s)) h i b := by
  obtain ⟨h1, h2⟩ := State.lt_of_obj ho
  have hs : (memWrite h i b s).slot h = { gen := s.gen h, obj := some (o.withStorage (o.storage.writeBit i b)) } := by
    rw [memWrite_eq ho, State.slot_setSlot_self h1 h2]
  have hobj : (respond .done 0#32 (memWrite h i b s)).obj h = some (o.withStorage (o.storage.writeBit i b)) := by
    rw [respond_obj, State.obj, hs]
  refine ⟨⟨⟨?_, ?_, ?_, ?_, ?_, ?_, rfl⟩, fun k hk => ?_⟩, ?_, ⟨o, _, ho, hobj⟩, fun j => ?_, rfl⟩
  · rw [memWrite_eq ho]; simp
  · rw [memWrite_eq ho]; simp
  · rw [memWrite_eq ho]; simp
  · rw [memWrite_eq ho]; simp
  · rw [memWrite_eq ho]; simp
  · rw [memWrite_eq ho]; simp
  · rw [respond_slot, memWrite_eq ho, State.slot_setSlot_ne hk]
  · rw [respond_gen, State.gen, hs]
  · simp only [memRead, hobj, ho, Object.withStorage_storage]
    exact Memory.readBit_writeBit hw i b j

end Sys2Proof.Machine
end

