-- ==== Sys2Proof/Laws/Operands.lean ====
section
/-! SUPPORT. What each operand check answers (R63, R92, R123, R128, R154, R159, R160). -/

namespace Sys2Proof.Machine

/-! ### Resolve (R63) -/

theorem lookup_ok {h : Handle} {s : State} {o : Object} :
    lookup h s = .ok o ↔ h ≠ 0#8 ∧ h.toNat ≤ s.cfg.numHandles ∧ s.obj h.toNat = some o := by
  unfold lookup
  split_ifs with h0 hn
  · simp [h0]
  · simp only [false_iff, not_and]
    intro _ hle
    omega
  · cases ho : s.obj h.toNat with
    | none => simp
    | some o' =>
      have : h.toNat ≤ s.cfg.numHandles := by omega
      simp [h0, this]

theorem lookup_null (s : State) : lookup 0#8 s = .error .nullHandle := rfl

theorem lookup_bad {h : Handle} {s : State} (h0 : h ≠ 0#8)
    (hb : s.cfg.numHandles < h.toNat ∨ s.obj h.toNat = none) : lookup h s = .error .badHandle := by
  unfold lookup
  rw [if_neg h0]
  split_ifs with hn
  · rfl
  · rcases hb with hb | hb
    · omega
    · simp [hb]

theorem resolveBv_ok {h : Handle} {s : State} {v : Vec} : resolveBv h s = .ok v ↔ LiveBv s h v := by
  unfold resolveBv LiveBv
  rw [← lookup_ok]
  cases lookup h s with
  | error c => simp
  | ok o => cases o <;> simp

theorem resolveBm_ok {h : Handle} {s : State} {m : Mat} : resolveBm h s = .ok m ↔ LiveBm s h m := by
  unfold resolveBm LiveBm
  rw [← lookup_ok]
  cases lookup h s with
  | error c => simp
  | ok o => cases o <;> simp

theorem resolveBv_null (s : State) : resolveBv 0#8 s = .error .nullHandle := rfl
theorem resolveBm_null (s : State) : resolveBm 0#8 s = .error .nullHandle := rfl

theorem resolveBv_bad {h : Handle} {s : State} (h0 : h ≠ 0#8)
    (hb : s.cfg.numHandles < h.toNat ∨ s.obj h.toNat = none) : resolveBv h s = .error .badHandle := by
  simp [resolveBv, lookup_bad h0 hb]

theorem resolveBm_bad {h : Handle} {s : State} (h0 : h ≠ 0#8)
    (hb : s.cfg.numHandles < h.toNat ∨ s.obj h.toNat = none) : resolveBm h s = .error .badHandle := by
  simp [resolveBm, lookup_bad h0 hb]

theorem resolveBv_kind {h : Handle} {s : State} {m : Mat} (hl : LiveBm s h m) :
    resolveBv h s = .error .kindMismatch := by
  simp [resolveBv, lookup_ok.mpr hl]

theorem resolveBm_kind {h : Handle} {s : State} {v : Vec} (hl : LiveBv s h v) :
    resolveBm h s = .error .kindMismatch := by
  simp [resolveBm, lookup_ok.mpr hl]

/-! ### The other checks -/

theorem checkReserved_ok {i : Instr} (h : i.wellFormed = true) : checkReserved i = .ok () := by simp [checkReserved, h]

theorem checkReserved_error {i : Instr} (h : i.wellFormed = false) : checkReserved i = .error .reservedField := by
  simp [checkReserved, h]

theorem checkBit_ok {b8 : Byte} (h : b8.toNat ≤ 1) : checkBit b8 = .ok () := if_neg (by omega)

theorem checkBit_error {b8 : Byte} (h : 1 < b8.toNat) : checkBit b8 = .error .badBit := if_pos (by omega)

theorem checkIndex_ok {v : Vec} {i : Word} (h : i.toNat < v.length.toNat) : checkIndex v i = .ok () :=
  if_neg (by omega)

theorem checkIndex_error {v : Vec} {i : Word} (h : v.length.toNat ≤ i.toNat) : checkIndex v i = .error .bvIndex :=
  if_pos (by omega)

theorem checkRC_ok {m : Mat} {r c : Half} (hr : r.toNat < m.rows.toNat) (hc : c.toNat < m.cols.toNat) :
    checkRC m r c = .ok () := if_neg (by omega)

theorem checkRC_error {m : Mat} {r c : Half} (h : m.rows.toNat ≤ r.toNat ∨ m.cols.toNat ≤ c.toNat) :
    checkRC m r c = .error .bmIndex := if_pos (by omega)

theorem checkDims_ok {a b : Mat} (h : a.cols = b.rows) : checkDims a b = .ok () := if_neg (by simp [h])

theorem checkDims_error {a b : Mat} (h : a.cols ≠ b.rows) : checkDims a b = .error .dimMismatch :=
  if_pos (fun e => h (BitVec.eq_of_toNat_eq e))

theorem checkPackable_ok {m : Mat} (hr : m.rows.toNat = 1) (hc : m.cols.toNat ≤ 8) : checkPackable m = .ok () :=
  if_neg (by omega)

theorem checkPackable_error {m : Mat} (h : m.rows.toNat ≠ 1 ∨ 8 < m.cols.toNat) :
    checkPackable m = .error .toDataShape := if_pos (by omega)

/-- An entry in range has its flat index inside the inner vector (R55). -/
theorem flatIndex_lt {m : Mat} {r c : Half} (hr : r.toNat < m.rows.toNat) (hc : c.toNat < m.cols.toNat) :
    flatIndex m r c < m.rows.toNat * m.cols.toNat := by
  unfold flatIndex
  calc r.toNat * m.cols.toNat + c.toNat < r.toNat * m.cols.toNat + m.cols.toNat := by omega
    _ = (r.toNat + 1) * m.cols.toNat := by ring
    _ ≤ m.rows.toNat * m.cols.toNat := Nat.mul_le_mul_right _ (by omega)

/-- Two entries in range with the same flat index are the same entry (R55). -/
theorem flatIndex_inj {m : Mat} {r c r' c' : Half} (hc : c.toNat < m.cols.toNat) (hc' : c'.toNat < m.cols.toNat)
    (h : flatIndex m r c = flatIndex m r' c') : r = r' ∧ c = c' := by
  unfold flatIndex at h
  have hr : r.toNat = r'.toNat := by
    have h1 : (r.toNat * m.cols.toNat + c.toNat) / m.cols.toNat = r.toNat := by
      rw [Nat.mul_comm, Nat.mul_add_div (by omega), Nat.div_eq_of_lt hc, Nat.add_zero]
    have h2 : (r'.toNat * m.cols.toNat + c'.toNat) / m.cols.toNat = r'.toNat := by
      rw [Nat.mul_comm, Nat.mul_add_div (by omega), Nat.div_eq_of_lt hc', Nat.add_zero]
    rw [← h1, ← h2, h]
  rw [hr] at h
  exact ⟨BitVec.eq_of_toNat_eq hr, BitVec.eq_of_toNat_eq (by omega)⟩

/-- Entry (r, c) of a freshly built matrix is what the creating command wrote (R53, R55). -/
theorem Mat.entry_ofEntries (R C : Half) (f : Nat → Nat → Bool) {r c : Nat} (hr : r < R.toNat) (hc : c < C.toNat) :
    (Mat.ofEntries R C f).entry r c = f r c := by
  have hlt : r * C.toNat + c < R.toNat * C.toNat := by
    calc r * C.toNat + c < r * C.toNat + C.toNat := by omega
      _ = (r + 1) * C.toNat := by ring
      _ ≤ R.toNat * C.toNat := Nat.mul_le_mul_right _ (by omega)
  have hd : (r * C.toNat + c) / C.toNat = r := by
    rw [Nat.mul_comm, Nat.mul_add_div (by omega), Nat.div_eq_of_lt hc, Nat.add_zero]
  have hm : (r * C.toNat + c) % C.toNat = c := by
    rw [Nat.mul_comm, Nat.mul_add_mod, Nat.mod_eq_of_lt hc]
  simp only [Mat.entry, Mat.ofEntries, Memory.readBit_fill _ _ Memory.wf_nil, if_pos hlt, hd, hm]

theorem Mat.wf_ofEntries (R C : Half) (f : Nat → Nat → Bool) : (Object.bm (Mat.ofEntries R C f)).wf = true := by
  simp only [Object.wf, Object.storage, Object.bits, Mat.ofEntries, Bool.and_eq_true]
  exact ⟨Memory.wf_fill _ _ Memory.wf_nil, Memory.within_fill _ (Nat.le_refl _)⟩

theorem Vec.wf_zero (n : Word) : (Object.bv (Vec.zero n)).wf = true := rfl

theorem Mat.wf_zero (r c : Half) : (Object.bm (Mat.zero r c)).wf = true := rfl

end Sys2Proof.Machine
end

