-- ==== Sys2Proof/Laws/Exec.lean ====
section
/-! SUPPORT. How a command ends, and, once for all commands, everything that `exec` can do. -/

namespace Sys2Proof.Machine

/-! ### perform -/

theorem perform_ok {i : Instr} {s t : State} (h : s.halted = false) : perform i s (.ok t) = .next t := by
  simp [perform, h]

theorem perform_error {i : Instr} {s : State} {c : FaultCode} (h : s.halted = false) :
    perform i s (.error c) = .next (raiseFault c (encode i) s) := by
  simp [perform, h]

theorem perform_halted {i : Instr} {s : State} {b : Except FaultCode State} (h : s.halted = true) :
    perform i s b = .fault .halted := by
  simp [perform, h]

/-- All that `perform` can do when it answers a next state. -/
theorem perform_next {i : Instr} {s t : State} {b : Except FaultCode State} (h : perform i s b = .next t) :
    s.halted = false ∧ (b = .ok t ∨ ∃ c, b = .error c ∧ t = raiseFault c (encode i) s) := by
  unfold perform at h
  split at h
  · simp at h
  · rename_i hh
    refine ⟨by simpa using hh, ?_⟩
    cases b with
    | ok u => simp at h; exact Or.inl (by rw [h])
    | error c => simp at h; exact Or.inr ⟨c, rfl, h.symm⟩

/-- A command never answers a refusal. -/
theorem perform_not_refused {i : Instr} {s : State} {b : Except FaultCode State} {r : Refusal} :
    perform i s b ≠ .refused r := by
  unfold perform
  split
  · simp
  · cases b <;> simp

/-! ### exec -/

/-- What a command did, when it answered a next state.  A command that only answers leaves the block as it was but for
the ports; a create ends in `create` with a well-formed object; a write changes one bit inside one live object; a delete
frees one live slot; a fault is taken from the state before the command. -/
inductive Effect (i : Instr) (s : State) : State → Prop where
  | answered (o : PortOut) (ho : o.response.map Response.status ≠ some .fault) : Effect i s { s with out := o }
  | created (o : Object) (hw : o.wf = true) : Effect i s (create o s)
  | wrote (h : Nat) (o : Object) (n : Nat) (b : Bool) (ho : s.obj h = some o) (hn : n < o.bits) :
      Effect i s (respond .done 0#32 (memWrite h n b s))
  | freed (h : Nat) (o : Object) (ho : s.obj h = some o) : Effect i s (respond .done 0#32 (free h s))
  | faulted (c : FaultCode) : Effect i s (raiseFault c (encode i) s)

theorem bind_ok_eq {α : Type} {a : Except FaultCode α} {f : α → Except FaultCode State} {t : State}
    (h : (a >>= f) = .ok t) : ∃ x, a = .ok x ∧ f x = .ok t := by
  cases a with
  | error c => simp [bind, Except.bind] at h
  | ok x => exact ⟨x, rfl, h⟩

theorem checkIndex_lt {v : Vec} {i : Word} {u : Unit} (h : checkIndex v i = .ok u) : i.toNat < v.length.toNat := by
  unfold checkIndex at h
  split at h
  · simp at h
  · omega

theorem checkRC_lt {m : Mat} {r c : Half} {u : Unit} (h : checkRC m r c = .ok u) :
    r.toNat < m.rows.toNat ∧ c.toNat < m.cols.toNat := by
  unfold checkRC at h
  split at h
  · simp at h
  · omega

/-- The effects of a command whose body is `b`, from what `b` can answer. -/
theorem effect_of_perform {i : Instr} {s t : State} {b : Except FaultCode State} (h : perform i s b = .next t)
    (hb : ∀ u, b = .ok u → Effect i s u) : s.halted = false ∧ Effect i s t := by
  obtain ⟨hh, hok | ⟨c, -, rfl⟩⟩ := perform_next h
  · exact ⟨hh, hb t hok⟩
  · exact ⟨hh, .faulted c⟩

theorem effect_of_ok {i : Instr} {s t u : State} (h : perform i s (.ok u) = .next t) (hu : Effect i s u) :
    s.halted = false ∧ Effect i s t :=
  effect_of_perform h fun _ he => by
    obtain rfl : u = _ := by simpa using he
    exact hu

theorem effect_answered (i : Instr) (s : State) (st : Status) (v : Word) (h : st ≠ .fault) :
    Effect i s (respond st v s) := .answered _ (by simpa using h)

theorem effect_dumped (i : Instr) (s : State) (d : DiagRecord) (v : Word) : Effect i s (respondDump d v s) :=
  .answered _ (by simp)

theorem effect_bvWrite {i : Instr} {ha : Handle} {n : Word} {b : Bool} {s t : State}
    (h : (do
      let v ← resolveBv ha s
      checkIndex v n
      Except.ok (respond .done 0#32 (memWrite ha.toNat n.toNat b s))) = Except.ok t) : Effect i s t := by
  obtain ⟨v, hv, h⟩ := bind_ok_eq h
  obtain ⟨u, hu, h⟩ := bind_ok_eq h
  obtain rfl : _ = t := by simpa using h
  exact .wrote _ _ _ _ (resolveBv_ok.mp hv).2.2 (checkIndex_lt hu)

theorem effect_bmWrite {i : Instr} {ha : Handle} {r c : Half} {b : Bool} {s t : State}
    (h : (do
      let m ← resolveBm ha s
      checkRC m r c
      Except.ok (respond .done 0#32 (memWrite ha.toNat (flatIndex m r c) b s))) = Except.ok t) : Effect i s t := by
  obtain ⟨m, hm, h⟩ := bind_ok_eq h
  obtain ⟨u, hu, h⟩ := bind_ok_eq h
  obtain rfl : _ = t := by simpa using h
  exact .wrote _ _ _ _ (resolveBm_ok.mp hm).2.2 (flatIndex_lt (checkRC_lt hu).1 (checkRC_lt hu).2)

/-- EVERYTHING A COMMAND CAN DO when it answers a next state. -/
theorem exec_effect {i : Instr} {s t : State} (h : exec i s = .next t) : s.halted = false ∧ Effect i s t := by
  cases i with
  | bvCreate n => exact effect_of_ok h (.created _ (Vec.wf_zero n))
  | bvDelete ha =>
    refine effect_of_perform h fun u hu => ?_
    split_ifs at hu
    · obtain rfl : _ = u := by simpa using hu
      exact effect_answered _ _ _ _ (by decide)
    · obtain ⟨v, hv, hu⟩ := bind_ok_eq hu
      obtain rfl : _ = u := by simpa using hu
      exact .freed _ _ (resolveBv_ok.mp hv).2.2
  | bvLength ha =>
    refine effect_of_perform h fun u hu => ?_
    obtain ⟨v, -, hu⟩ := bind_ok_eq hu
    obtain rfl : _ = u := by simpa using hu
    exact effect_answered _ _ _ _ (by decide)
  | bvSet ha n => exact effect_of_perform h fun u hu => effect_bvWrite hu
  | bvClear ha n => exact effect_of_perform h fun u hu => effect_bvWrite hu
  | bvGet ha n =>
    refine effect_of_perform h fun u hu => ?_
    obtain ⟨v, -, hu⟩ := bind_ok_eq hu
    obtain ⟨-, -, hu⟩ := bind_ok_eq hu
    obtain rfl : _ = u := by simpa using hu
    exact effect_answered _ _ _ _ (by decide)
  | bvXor ha n b8 =>
    refine effect_of_perform h fun u hu => ?_
    obtain ⟨-, -, hu⟩ := bind_ok_eq hu
    exact effect_bvWrite hu
  | bvDump ha =>
    refine effect_of_perform h fun u hu => ?_
    obtain ⟨v, -, hu⟩ := bind_ok_eq hu
    obtain rfl : _ = u := by simpa using hu
    exact effect_dumped _ _ _ _
  | bmCreate r c => exact effect_of_ok h (.created _ (Mat.wf_zero r c))
  | bmDelete ha =>
    refine effect_of_perform h fun u hu => ?_
    split_ifs at hu
    · obtain rfl : _ = u := by simpa using hu
      exact effect_answered _ _ _ _ (by decide)
    · obtain ⟨v, hv, hu⟩ := bind_ok_eq hu
      obtain rfl : _ = u := by simpa using hu
      exact .freed _ _ (resolveBm_ok.mp hv).2.2
  | bmRows ha =>
    refine effect_of_perform h fun u hu => ?_
    obtain ⟨v, -, hu⟩ := bind_ok_eq hu
    obtain rfl : _ = u := by simpa using hu
    exact effect_answered _ _ _ _ (by decide)
  | bmCols ha =>
    refine effect_of_perform h fun u hu => ?_
    obtain ⟨v, -, hu⟩ := bind_ok_eq hu
    obtain rfl : _ = u := by simpa using hu
    exact effect_answered _ _ _ _ (by decide)
  | bmSet ha r c => exact effect_of_perform h fun u hu => effect_bmWrite hu
  | bmClear ha r c => exact effect_of_perform h fun u hu => effect_bmWrite hu
  | bmGet ha r c =>
    refine effect_of_perform h fun u hu => ?_
    obtain ⟨v, -, hu⟩ := bind_ok_eq hu
    obtain ⟨-, -, hu⟩ := bind_ok_eq hu
    obtain rfl : _ = u := by simpa using hu
    exact effect_answered _ _ _ _ (by decide)
  | bmFromData b8 n =>
    refine effect_of_perform h fun u hu => ?_
    split_ifs at hu
    · obtain rfl : _ = u := by simpa using hu
      exact effect_answered _ _ _ _ (by decide)
    · obtain rfl : _ = u := by simpa using hu
      exact .created _ (Mat.wf_ofEntries _ _ _)
  | bmToData ha =>
    refine effect_of_perform h fun u hu => ?_
    obtain ⟨v, -, hu⟩ := bind_ok_eq hu
    obtain ⟨-, -, hu⟩ := bind_ok_eq hu
    obtain rfl : _ = u := by simpa using hu
    exact effect_answered _ _ _ _ (by decide)
  | bmMultiply ha hb =>
    refine effect_of_perform h fun u hu => ?_
    obtain ⟨a, -, hu⟩ := bind_ok_eq hu
    obtain ⟨b, -, hu⟩ := bind_ok_eq hu
    obtain ⟨-, -, hu⟩ := bind_ok_eq hu
    obtain rfl : _ = u := by simpa using hu
    exact .created _ (Mat.wf_ofEntries _ _ _)
  | bmDump ha =>
    refine effect_of_perform h fun u hu => ?_
    obtain ⟨v, -, hu⟩ := bind_ok_eq hu
    obtain rfl : _ = u := by simpa using hu
    exact effect_dumped _ _ _ _
  | syndLookup b8 =>
    refine effect_of_perform h fun u hu => ?_
    obtain ⟨v, -, hu⟩ := bind_ok_eq hu
    obtain rfl : _ = u := by simpa using hu
    exact effect_answered _ _ _ _ (by decide)
  | hcLoadG => exact effect_of_ok h (.created _ (Mat.wf_ofEntries _ _ _))
  | hcLoadHt => exact effect_of_ok h (.created _ (Mat.wf_ofEntries _ _ _))
  | hcEncode b8 => exact effect_of_ok h (effect_answered _ _ _ _ (by decide))
  | hcDecode b8 mi =>
    refine effect_of_perform h fun u hu => ?_
    obtain ⟨v, -, hu⟩ := bind_ok_eq hu
    obtain rfl : _ = u := by simpa using hu
    exact effect_answered _ _ _ _ (by decide)

end Sys2Proof.Machine
end

