-- ==== Sys2Proof/Laws/Gf2.lean ====
section
/-! SUPPORT. Laws of GF(2) sums and of the packing of a row (R13, R157, R159, R160). -/

namespace Sys2Proof.Machine

/-- An exclusive-or of bits is the parity of how many of them are 1 (R13). -/
theorem xorSum_eq_parity (f : Nat → Bool) (n : Nat) :
    xorSum f n = decide (((List.range n).filter f).length % 2 = 1) := by
  induction n with
  | zero => rfl
  | succ n ih =>
    rw [xorSum, ih, List.range_succ, List.filter_append, List.length_append]
    cases hf : f n with
    | false => simp [hf]
    | true =>
      simp only [List.filter_cons, hf, if_true, List.filter_nil, List.length_singleton, Bool.xor_true]
      rw [← decide_not, decide_eq_decide]
      omega

theorem xorSum_congr {f g : Nat → Bool} {n : Nat} (h : ∀ k, k < n → f k = g k) : xorSum f n = xorSum g n := by
  induction n with
  | zero => rfl
  | succ n ih => rw [xorSum, xorSum, ih fun k hk => h k (by omega), h n (by omega)]

/-- A sum of exclusive-ors is the exclusive-or of the sums (R161). -/
theorem xorSum_xor (f g : Nat → Bool) (n : Nat) :
    xorSum (fun k => f k ^^ g k) n = (xorSum f n ^^ xorSum g n) := by
  induction n with
  | zero => rfl
  | succ n ih =>
    simp only [xorSum, ih]
    cases xorSum f n <;> cases xorSum g n <;> cases f n <;> cases g n <;> rfl

/-- Entry (i, j) of the product, as a count (R160). -/
theorem mulEntry_eq_productEntry (a b : Mat) (i j : Nat) :
    mulEntry a.cols.toNat a.entry b.entry i j = productEntry a b i j := xorSum_eq_parity _ _

/-- Bit `i` of a packed row is column `i` (R159). -/
theorem packBits_getLsbD (f : Nat → Bool) {n : Nat} (hn : n ≤ 8) (i : Nat) :
    (packBits f n).getLsbD i = (decide (i < n) && f i) := by
  induction n with
  | zero => simp [packBits]
  | succ n ih =>
    rw [packBits, BitVec.getLsbD_or, ih (by omega), BitVec.getLsbD_shiftLeft, BitVec.getLsbD_setWidth,
      BitVec.getLsbD_ofBool]
    rcases Nat.lt_trichotomy i n with h | h | h
    · simp [h, show i < n + 1 by omega]
    · subst h
      simp [show i < 8 by omega]
    · simp [show ¬ i < n by omega, show ¬ i < n + 1 by omega, show i - n ≠ 0 by omega]

end Sys2Proof.Machine
end

