-- ==== Sys2Proof/Laws/PerInstr.lean ====
section
/-! SUPPORT. One lemma per command about its encoding: it is a word of its own row of the opcode map. -/

namespace Sys2Proof.Laws.EncodesItsRow

/-- The command has a row in the opcode map with its opcode and its format (R93); the row reads the command's own operands
back from its word; and when its reserved bits are clear, its word is one of the row's words: `(w & mask) == match`
(R91). -/
def Statement (i : Instr) : Prop :=
  ∃ r, opRow? i.opcode = some r ∧ r.op = i.opcode ∧ r.format = i.format ∧ r.read (encode i) = i ∧
    (i.wellFormed = true → encode i &&& r.format.mask = r.pattern)

theorem of_row {i : Instr} {r : OpRow} (hr : opRow? i.opcode = some r) (ho : r.op = i.opcode)
    (hf : r.format = i.format) (hd : r.read (encode i) = i) : Statement i :=
  ⟨r, hr, ho, hf, hd, fun hw => by
    rw [OpRow.pattern, ho, hf]
    exact masked_packWord _ _ _ _ _ ((reservedClear_encode i).trans hw)⟩

theorem bvCreate (n : Word) : Statement (.bvCreate n) :=
  of_row rfl rfl rfl (by simp [encode, Instr.operandN])

theorem bvDelete (ha : Handle) : Statement (.bvDelete ha) :=
  of_row rfl rfl rfl (by simp [encode, Instr.operandHA])

theorem bvLength (ha : Handle) : Statement (.bvLength ha) :=
  of_row rfl rfl rfl (by simp [encode, Instr.operandHA])

theorem bvSet (ha : Handle) (n : Word) : Statement (.bvSet ha n) :=
  of_row rfl rfl rfl (by simp [encode, Instr.operandHA, Instr.operandN])

theorem bvClear (ha : Handle) (n : Word) : Statement (.bvClear ha n) :=
  of_row rfl rfl rfl (by simp [encode, Instr.operandHA, Instr.operandN])

theorem bvGet (ha : Handle) (n : Word) : Statement (.bvGet ha n) :=
  of_row rfl rfl rfl (by simp [encode, Instr.operandHA, Instr.operandN])

theorem bvXor (ha : Handle) (n : Word) (b8 : Byte) : Statement (.bvXor ha n b8) :=
  of_row rfl rfl rfl (by simp [encode, Instr.operandHA, Instr.operandB8, Instr.operandN])

theorem bvDump (ha : Handle) : Statement (.bvDump ha) :=
  of_row rfl rfl rfl (by simp [encode, Instr.operandHA])

theorem bmCreate (r : Half) (c : Half) : Statement (.bmCreate r c) :=
  of_row rfl rfl rfl (by simp [encode, Instr.operandN])

theorem bmDelete (ha : Handle) : Statement (.bmDelete ha) :=
  of_row rfl rfl rfl (by simp [encode, Instr.operandHA])

theorem bmRows (ha : Handle) : Statement (.bmRows ha) :=
  of_row rfl rfl rfl (by simp [encode, Instr.operandHA])

theorem bmCols (ha : Handle) : Statement (.bmCols ha) :=
  of_row rfl rfl rfl (by simp [encode, Instr.operandHA])

theorem bmSet (ha : Handle) (r : Half) (c : Half) : Statement (.bmSet ha r c) :=
  of_row rfl rfl rfl (by simp [encode, Instr.operandHA, Instr.operandN])

theorem bmClear (ha : Handle) (r : Half) (c : Half) : Statement (.bmClear ha r c) :=
  of_row rfl rfl rfl (by simp [encode, Instr.operandHA, Instr.operandN])

theorem bmGet (ha : Handle) (r : Half) (c : Half) : Statement (.bmGet ha r c) :=
  of_row rfl rfl rfl (by simp [encode, Instr.operandHA, Instr.operandN])

theorem bmFromData (b8 : Byte) (n : Word) : Statement (.bmFromData b8 n) :=
  of_row rfl rfl rfl (by simp [encode, Instr.operandB8, Instr.operandN])

theorem bmToData (ha : Handle) : Statement (.bmToData ha) :=
  of_row rfl rfl rfl (by simp [encode, Instr.operandHA])

theorem bmMultiply (ha : Handle) (hb : Handle) : Statement (.bmMultiply ha hb) :=
  of_row rfl rfl rfl (by simp [encode, Instr.operandHA, Instr.operandHB])

theorem bmDump (ha : Handle) : Statement (.bmDump ha) :=
  of_row rfl rfl rfl (by simp [encode, Instr.operandHA])

theorem syndLookup (b8 : Byte) : Statement (.syndLookup b8) :=
  of_row rfl rfl rfl (by simp [encode, Instr.operandB8])

theorem hcLoadG : Statement (.hcLoadG) :=
  of_row rfl rfl rfl rfl

theorem hcLoadHt : Statement (.hcLoadHt) :=
  of_row rfl rfl rfl rfl

theorem hcEncode (b8 : Byte) : Statement (.hcEncode b8) :=
  of_row rfl rfl rfl (by simp [encode, Instr.operandB8])

theorem hcDecode (b8 : Byte) (mi : Word) : Statement (.hcDecode b8 mi) :=
  of_row rfl rfl rfl (by simp [encode, Instr.operandB8, Instr.operandN])

end Sys2Proof.Laws.EncodesItsRow
end

