-- ==== Sys2Proof/Laws/Step.lean ====
section
/-! SUPPORT. What a step does for each thing the host can do, and, once for all, everything that a step can do. -/

namespace Sys2Proof.Machine

/-- A state with its pending host events replaced. -/
def State.withInbox (s : State) (es : List HostEvent) : State := { s with inbox := es }

section
variable (s : State) (es : List HostEvent)

@[simp] theorem withInbox_cfg : (s.withInbox es).cfg = s.cfg := rfl
@[simp] theorem withInbox_slots : (s.withInbox es).slots = s.slots := rfl
@[simp] theorem withInbox_halted : (s.withInbox es).halted = s.halted := rfl
@[simp] theorem withInbox_faultCode : (s.withInbox es).faultCode = s.faultCode := rfl
@[simp] theorem withInbox_faultCmd : (s.withInbox es).faultCmd = s.faultCmd := rfl
@[simp] theorem withInbox_inbox : (s.withInbox es).inbox = es := rfl
@[simp] theorem withInbox_out : (s.withInbox es).out = s.out := rfl
@[simp] theorem withInbox_slot (h : Nat) : (s.withInbox es).slot h = s.slot h := by cases h <;> rfl
@[simp] theorem withInbox_obj (h : Nat) : (s.withInbox es).obj h = s.obj h := by cases h <;> rfl
@[simp] theorem withInbox_gen (h : Nat) : (s.withInbox es).gen h = s.gen h := by cases h <;> rfl
@[simp] theorem withInbox_staleUse (i : Instr) (a b : Nat) : (s.withInbox es).staleUse i a b = s.staleUse i a b := by
  simp [State.staleUse, State.staleHandle]

end

/-! ### Accepting a command -/

theorem acceptCommand_halted {s : State} (h : s.halted = true) (w : CmdWord) (a b : Nat) :
    acceptCommand w a b s = .fault .halted := if_pos h

theorem acceptCommand_error {s : State} (h : s.halted = false) {w : CmdWord} {e : DecodeError}
    (hd : decode w = .error e) (a b : Nat) : acceptCommand w a b s = .next (raiseFault (decodeFault e) w s) := by
  rw [acceptCommand, if_neg (by simp [h])]
  split
  · rename_i e' he
    rw [hd] at he
    cases he
    rfl
  · rename_i i he
    rw [hd] at he
    cases he

theorem acceptCommand_ok {s : State} (h : s.halted = false) {w : CmdWord} {i : Instr} (hd : decode w = .ok i)
    (a b : Nat) : acceptCommand w a b s = if s.staleUse i a b then .refused .staleHandle else exec i s := by
  rw [acceptCommand, if_neg (by simp [h])]
  split
  · rename_i e he
    rw [hd] at he
    cases he
  · rename_i i' he
    rw [hd] at he
    cases he
    rfl

/-! ### step -/

theorem step_nothing {s : State} (h : s.inbox = []) : step s = acceptNothing s := by
  unfold step
  rw [h]

theorem step_command {s : State} {w : CmdWord} {a b : Nat} {es : List HostEvent}
    (h : s.inbox = .command w a b :: es) : step s = acceptCommand w a b (s.withInbox es) := by
  unfold step
  rw [h]
  rfl

theorem step_reset {s : State} {es : List HostEvent} (h : s.inbox = .reset :: es) :
    step s = .next (hostReset (s.withInbox es)) := by
  unfold step
  rw [h]
  rfl

theorem step_readStatus {s : State} {n : Nat} {es : List HostEvent} (h : s.inbox = .readStatus n :: es) :
    step s = .next (hostReadStatus n (s.withInbox es)) := by
  unfold step
  rw [h]
  rfl

/-- A state never holds a stale handle that its host was given at its own generations. -/
theorem staleUse_present (s : State) (i : Instr) :
    s.staleUse i (s.gen i.operandHA.toNat) (s.gen i.operandHB.toNat) = false := by
  simp [State.staleUse, State.staleHandle]

/-- What a step did, when it answered a next state. -/
inductive StepEffect (s : State) : State → Prop where
  | idle (hi : s.inbox = []) (hh : s.halted = false) : StepEffect s (hostIdle s)
  | reset (es : List HostEvent) (hi : s.inbox = .reset :: es) : StepEffect s (hostReset (s.withInbox es))
  | readStatus (n : Nat) (es : List HostEvent) (hi : s.inbox = .readStatus n :: es) :
      StepEffect s (hostReadStatus n (s.withInbox es))
  | noCommand (w : CmdWord) (a b : Nat) (es : List HostEvent) (e : DecodeError) (hi : s.inbox = .command w a b :: es)
      (hh : s.halted = false) (hd : decode w = .error e) :
      StepEffect s (raiseFault (decodeFault e) w (s.withInbox es))
  | command (w : CmdWord) (a b : Nat) (es : List HostEvent) (i : Instr) (t : State)
      (hi : s.inbox = .command w a b :: es) (hh : s.halted = false) (hd : decode w = .ok i)
      (hx : exec i (s.withInbox es) = .next t) (he : Effect i (s.withInbox es) t) : StepEffect s t

/-- EVERYTHING A STEP CAN DO when it answers a next state. -/
theorem step_effect {s t : State} (h : step s = .next t) : StepEffect s t := by
  cases hi : s.inbox with
  | nil =>
    rw [step_nothing hi, acceptNothing] at h
    split at h
    · simp at h
    · rename_i hh
      obtain rfl : hostIdle s = t := by simpa using h
      exact .idle hi (by simpa using hh)
  | cons e es =>
    cases e with
    | reset =>
      rw [step_reset hi] at h
      obtain rfl : hostReset (s.withInbox es) = t := by simpa using h
      exact .reset es hi
    | readStatus n =>
      rw [step_readStatus hi] at h
      obtain rfl : hostReadStatus n (s.withInbox es) = t := by simpa using h
      exact .readStatus n es hi
    | command w a b =>
      rw [step_command hi] at h
      cases hh : s.halted with
      | true => rw [acceptCommand_halted (by simpa using hh)] at h; simp at h
      | false =>
        cases hd : decode w with
        | error e =>
          rw [acceptCommand_error (by simpa using hh) hd] at h
          obtain rfl : raiseFault (decodeFault e) w (s.withInbox es) = t := by simpa using h
          exact .noCommand w a b es e hi hh hd
        | ok i =>
          rw [acceptCommand_ok (by simpa using hh) hd] at h
          split at h
          · simp at h
          · exact .command w a b es i t hi hh hd h (exec_effect h).2

end Sys2Proof.Machine
end

