-- ==== Sys2Proof/Tests/Slice0.lean ====
section
/-! SUPPORT. Tests of the model's parts and steps, and a witness for the hypotheses of every statement.  The words and the
results are those of spec/95_test_vectors.md (V1 to V5), as each group says, or worked by hand from the rule that it names. -/

namespace Sys2Proof.Machine.Tests

open Sys2Proof Sys2Proof.Machine

set_option maxRecDepth 20000

/-! ### Small states -/

/-- The reset block (8 slots, 64 bytes) with these objects in slots 1, 2, ..., each allocated once. -/
def pool (os : List Object) : State :=
  { State.reset with slots := os.map (fun o => { gen := 1, obj := some o }) ++ List.replicate (8 - os.length) Slot.fresh }

/-- The vector of V3.1.a after its step 9: length 10, bytes 81 02. -/
def vec10 : Vec := { length := 10#32, storage := [(0, 0x81#8), (1, 0x02#8)] }

/-- The generator as V3.2.c stores it: 4 × 8, bytes E1 D2 B4 78. -/
def matG : Mat := { rows := 4#16, cols := 8#16, storage := [(0, 0xE1#8), (1, 0xD2#8), (2, 0xB4#8), (3, 0x78#8)] }

/-- The parity-check transpose as V3.2.c stores it: 8 × 4, bytes DE 7B 21 84. -/
def matHt : Mat := { rows := 8#16, cols := 4#16, storage := [(0, 0xDE#8), (1, 0x7B#8), (2, 0x21#8), (3, 0x84#8)] }

/-- The row of V3.2.c: 1 × 4, byte 05. -/
def row5 : Mat := { rows := 1#16, cols := 4#16, storage := [(0, 0x05#8)] }

/-- A pool of one vector. -/
def onVec : State := pool [.bv vec10]

/-- A pool of a row, G and Ht. -/
def onMats : State := pool [.bm row5, .bm matG, .bm matHt]

/-- The block after its fault in V3.7, step 2. -/
def onFault : State := { onVec with halted := true, faultCode := 0x06#8, faultCmd := 0x0401000000000004#64 }

/-- A block of one slot, in use, with no byte left. -/
def full : State :=
  { State.resetWith { numHandles := 1, storageBytes := 1 } with
      slots := [{ gen := 1, obj := some (.bv (Vec.zero 8#32)) }] }

/-- The response to a word, STATUS and VALUE. -/
def answerTo (s : State) (w : CmdWord) : Option (Status × Word) :=
  match step (s.present w) with
  | .next t => t.out.response.map fun r => (r.status, r.value)
  | _ => none

/-- The diagnostic record of a word. -/
def diagOf (s : State) (w : CmdWord) : Option DiagRecord :=
  match step (s.present w) with
  | .next t => t.out.diag
  | _ => none

/-- The slot's object after a word. -/
def objAfter (s : State) (w : CmdWord) (h : Nat) : Option Object :=
  match step (s.present w) with
  | .next t => t.obj h
  | _ => none

/-- FSTAT and FCMD after a word. -/
def statusAfter (s : State) (w : CmdWord) : Option (CmdWord × CmdWord) :=
  match step (s.present w) with
  | .next t => some (statusRead 0 t, statusRead 1 t)
  | _ => none

/-! ### WellFormed: an ill-formed term for each check (R92) -/

theorem test_wellFormed_syndLookup : (Instr.syndLookup 0x10#8).wellFormed = false := by decide
theorem test_wellFormed_hcDecode : (Instr.hcDecode 0x4F#8 0x10#32).wellFormed = false := by decide
theorem test_wellFormed_accepts :
    (Instr.syndLookup 0x0F#8).wellFormed = true ∧ (Instr.hcDecode 0x4F#8 0x0F#32).wellFormed = true ∧
      (Instr.hcEncode 0xFB#8).wellFormed = true := by decide

/-! ### Decoding: the words of V2, one for each command -/

theorem test_decode_bvCreate : decodeTableWord 64 0x010000000000000A = some (.bvCreate 10#32) := by decide
theorem test_decode_bvDelete : decodeTableWord 64 0x0201000000000000 = some (.bvDelete 1#8) := by decide
theorem test_decode_bvLength : decodeTableWord 64 0x0301000000000000 = some (.bvLength 1#8) := by decide
theorem test_decode_bvSet : decodeTableWord 64 0x0401000000000009 = some (.bvSet 1#8 9#32) := by decide
theorem test_decode_bvClear : decodeTableWord 64 0x0501000000000009 = some (.bvClear 1#8 9#32) := by decide
theorem test_decode_bvGet : decodeTableWord 64 0x0601000000000009 = some (.bvGet 1#8 9#32) := by decide
theorem test_decode_bvXor : decodeTableWord 64 0x0701000100000009 = some (.bvXor 1#8 9#32 1#8) := by decide
theorem test_decode_bvDump : decodeTableWord 64 0x0801000000000000 = some (.bvDump 1#8) := by decide
theorem test_decode_bmCreate : decodeTableWord 64 0x1000000000040008 = some (.bmCreate 4#16 8#16) := by decide
theorem test_decode_bmDelete : decodeTableWord 64 0x1102000000000000 = some (.bmDelete 2#8) := by decide
theorem test_decode_bmRows : decodeTableWord 64 0x1202000000000000 = some (.bmRows 2#8) := by decide
theorem test_decode_bmCols : decodeTableWord 64 0x1302000000000000 = some (.bmCols 2#8) := by decide
theorem test_decode_bmSet : decodeTableWord 64 0x1402000000010007 = some (.bmSet 2#8 1#16 7#16) := by decide
theorem test_decode_bmClear : decodeTableWord 64 0x1502000000010007 = some (.bmClear 2#8 1#16 7#16) := by decide
theorem test_decode_bmGet : decodeTableWord 64 0x1602000000010007 = some (.bmGet 2#8 1#16 7#16) := by decide
theorem test_decode_bmFromData : decodeTableWord 64 0x170000B500000004 = some (.bmFromData 0xB5#8 4#32) := by decide
theorem test_decode_bmToData : decodeTableWord 64 0x1803000000000000 = some (.bmToData 3#8) := by decide
theorem test_decode_bmMultiply : decodeTableWord 64 0x1903040000000000 = some (.bmMultiply 3#8 4#8) := by decide
theorem test_decode_bmDump : decodeTableWord 64 0x1A02000000000000 = some (.bmDump 2#8) := by decide
theorem test_decode_syndLookup : decodeTableWord 64 0x2000000B00000000 = some (.syndLookup 11#8) := by decide
theorem test_decode_hcLoadG : decodeTableWord 64 0x2100000000000000 = some .hcLoadG := by decide
theorem test_decode_hcLoadHt : decodeTableWord 64 0x2200000000000000 = some .hcLoadHt := by decide
theorem test_decode_hcEncode : decodeTableWord 64 0x3000000B00000000 = some (.hcEncode 0x0B#8) := by decide
theorem test_decode_hcDecode : decodeTableWord 64 0x3100004F0000000A = some (.hcDecode 0x4F#8 10#32) := by decide

/-- The words that V3.6 prints as no command. -/
theorem test_decode_refuses :
    (decode 0x0900000000000000#64 = .error .illegalOp) ∧ (decode 0xFF00000000000000#64 = .error .illegalOp) ∧
    (decode 0x3200000000000000#64 = .error .illegalOp) ∧ (decode 0x2100000000000001#64 = .error .reservedField) ∧
    (decode 0x0101000000000004#64 = .error .reservedField) ∧ (decode 0x0201000000000001#64 = .error .reservedField) ∧
    (decode 0x0700010200000000#64 = .error .reservedField) ∧ (decode 0x3100004F0000001A#64 = .error .reservedField) ∧
    (decode 0x2000001000000000#64 = .error .reservedField) ∧ (decode 0x3000000B00000100#64 = .error .reservedField) := by
  decide

/-! ### bitvector_storage (V3.1) -/

theorem test_bvCreate : answerTo onVec 0x0100000000000009#64 = some (.done, 2#32) ∧
    objAfter onVec 0x0100000000000009#64 2 = some (.bv (Vec.zero 9#32)) := by decide
theorem test_bvCreate_full : answerTo full 0x0100000000000001#64 = some (.absent, 0#32) := by decide
theorem test_bvDelete : answerTo onVec 0x0201000000000000#64 = some (.done, 0#32) ∧
    objAfter onVec 0x0201000000000000#64 1 = none := by decide
theorem test_bvDelete_null : answerTo onVec 0x0200000000000000#64 = some (.done, 0#32) := by decide
theorem test_bvLength : answerTo onVec 0x0301000000000000#64 = some (.done, 0xA#32) := by decide
theorem test_bvLength_kind : answerTo onMats 0x0301000000000000#64 = some (.fault, 5#32) := by decide
theorem test_bvSet : objAfter onVec 0x0401000000000002#64 1 =
    some (.bv { length := 10#32, storage := [(0, 0x85#8), (1, 0x02#8)] }) := by decide
theorem test_bvSet_past_end : answerTo onVec 0x04010000FFFFFFFF#64 = some (.fault, 6#32) := by decide
theorem test_bvClear : objAfter onVec 0x0501000000000009#64 1 =
    some (.bv { length := 10#32, storage := [(0, 0x81#8)] }) := by decide
theorem test_bvGet : answerTo onVec 0x0601000000000009#64 = some (.done, 1#32) ∧
    answerTo onVec 0x0601000000000008#64 = some (.done, 0#32) := by decide
theorem test_bvGet_at_length : statusAfter onVec 0x060100000000000A#64 = some (0x106#64, 0x060100000000000A#64) := by decide
theorem test_bvXor : objAfter onVec 0x0701000100000000#64 1 =
    some (.bv { length := 10#32, storage := [(0, 0x80#8), (1, 0x02#8)] }) := by decide
theorem test_bvXor_bad_bit_first : statusAfter State.reset 0x0700000200000003#64 =
    some (0x10A#64, 0x0700000200000003#64) := by decide
theorem test_bvDump : diagOf onVec 0x0801000000000000#64 = some (.bvDump 10#32 2#32 [0x81#8, 0x02#8]) := by decide

/-! ### bitmatrix_gf2_mult (V3.2) -/

theorem test_bmCreate : objAfter State.reset 0x1000000000040008#64 1 = some (.bm (Mat.zero 4#16 8#16)) := by decide
theorem test_bmDelete_free_slot : answerTo onMats 0x1104000000000000#64 = some (.fault, 4#32) := by decide
theorem test_bmDelete : answerTo onMats 0x1102000000000000#64 = some (.done, 0#32) ∧
    objAfter onMats 0x1102000000000000#64 2 = none := by decide
theorem test_bmRows : answerTo onMats 0x1202000000000000#64 = some (.done, 4#32) := by decide
theorem test_bmCols : answerTo onMats 0x1302000000000000#64 = some (.done, 8#32) := by decide
theorem test_bmSet : objAfter onMats 0x1401000000000003#64 1 =
    some (.bm { rows := 1#16, cols := 4#16, storage := [(0, 0x0D#8)] }) := by decide
theorem test_bmSet_column_past_end : answerTo onMats 0x1402000000000008#64 = some (.fault, 7#32) := by decide
theorem test_bmClear : objAfter onMats 0x1502000000010007#64 2 =
    some (.bm { matG with storage := [(0, 0xE1#8), (1, 0x52#8), (2, 0xB4#8), (3, 0x78#8)] }) := by decide
theorem test_bmGet : answerTo onMats 0x1602000000010007#64 = some (.done, 1#32) ∧
    answerTo onMats 0x1602000000010005#64 = some (.done, 0#32) := by decide
theorem test_bmFromData : objAfter State.reset 0x170000B500000004#64 1 = some (.bm row5) := by decide
theorem test_bmFromData_long : answerTo State.reset 0x17000001FFFFFFFF#64 = some (.absent, 0#32) := by decide
theorem test_bmToData : answerTo onMats 0x1801000000000000#64 = some (.done, 5#32) := by decide
theorem test_bmToData_shape : answerTo onMats 0x1802000000000000#64 = some (.fault, 9#32) := by decide
theorem test_bmMultiply : answerTo onMats 0x1901020000000000#64 = some (.done, 4#32) ∧
    objAfter onMats 0x1901020000000000#64 4 =
      some (.bm { rows := 1#16, cols := 8#16, storage := [(0, 0x55#8)] }) := by decide
theorem test_bmMultiply_fault_before_absent :
    answerTo { onMats with cfg := { numHandles := 8, storageBytes := 9 } } 0x1902020000000000#64 =
      some (.fault, 8#32) := by decide
theorem test_bmDump : diagOf onMats 0x1A01000000000000#64 = some (.bmDump 1#16 4#16 [true, false, true, false]) ∧
    answerTo onMats 0x1A01000000000000#64 = some (.done, 0x10004#32) := by decide

/-! ### syndrome_lookup_table and the codec (V3.2.c, V3.3 to V3.5) -/

theorem test_syndLookup : answerTo State.reset 0x2000000B00000000#64 = some (.done, 0x21#32) := by decide
theorem test_syndLookup_reserved : answerTo State.reset 0x2000001000000000#64 = some (.fault, 2#32) := by decide
theorem test_hcLoadG : objAfter State.reset 0x2100000000000000#64 1 = some (.bm matG) := by decide
theorem test_hcLoadHt : objAfter State.reset 0x2200000000000000#64 1 = some (.bm matHt) := by decide
theorem test_hcEncode : answerTo State.reset 0x3000000B00000000#64 = some (.done, 0x4B#32) := by decide
theorem test_hcEncode_high_nibble : answerTo State.reset 0x3000005A00000000#64 = some (.done, 0xAA#32) := by decide
theorem test_hcDecode_corrected : answerTo State.reset 0x310000CB00000003#64 = some (.done, 0x10B#32) := by decide
theorem test_hcDecode_uncorrectable : answerTo State.reset 0x310000480000000C#64 = some (.done, 0x20C#32) := by decide

/-! ### The step, faults, the status port and reset (V3.6, V3.7) -/

theorem test_illegal_word : statusAfter State.reset 0x3200000000000000#64 =
    some (0x101#64, 0x3200000000000000#64) := by decide
theorem test_fault_writes_no_bit : objAfter onVec 0x040100000000000A#64 1 = some (.bv vec10) := by decide
theorem test_halted_block : step (onFault.present 0x3000000100000000#64) = .fault .halted := by rfl
theorem test_status_port : statusRead 0 onFault = 0x106#64 ∧ statusRead 1 onFault = 0x0401000000000004#64 ∧
    statusRead 2 onFault = 0#64 := by decide
theorem test_reset_frees : step { onFault with inbox := [.reset] } = .next State.reset := by rfl
theorem test_stale_handle :
    step { onVec with slots := [{ gen := 2, obj := some (.bv vec10) }],
                      inbox := [.command 0x0301000000000000#64 1 0] } = .refused .staleHandle := by rfl
theorem test_withFetchWord_reset :
    answerTo State.reset 0x3000000100000000#64 = some (.done, 0xE1#32) ∧
      (State.reset.withFetchWord 64 0x3000000100000000).inbox = [.command 0x3000000100000000#64 0 0] := by decide

/-! ### The host's drivers (V1.7 to V1.9) -/

/-- A host whose lanes start at 0. -/
def host0 : HostConfig :=
  { msgInitLo := some 0#4, msgInitHi := some 0#4, oddTail := .drop, bytesCounted := .outputBytes, rateZero := some 0 }

/-- The output bytes and the counters of a decoded stream. -/
def decoded (cs : List Byte) : Option (List (Option Byte) × Nat × Nat) :=
  match hostDecode host0 cs (HostDecoder.start host0) State.reset with
  | .ok (bs, h, _) => some (bs, h.corrected, h.uncorrected)
  | .error _ => none

theorem test_host_encode : ((hostEncode [0xAB#8] State.reset).toOption.map Prod.fst) = some [0x4B#8, 0xAA#8] := by decide
theorem test_host_decode_one_flip : decoded [0x4F#8, 0xAA#8] = some ([some 0xAB#8], 1, 0) := by decide
theorem test_host_decode_two_flips :
    decoded [0x4B#8, 0xAA#8, 0xD1#8, 0xE1#8] = some ([some 0xAB#8, some 0x1B#8], 0, 1) := by decide

/-! ### The assembler (R103 to R105) -/

theorem test_asm_line : readLine "v = BV_CREATE 0x0A ; ten bits".toList =
    .ok (some { bind := some "v", mnemonic := "BV_CREATE", operands := [.number 10] }) := by decide
theorem test_asm_comment : readLine "  ; nothing".toList = .ok none := by decide
theorem test_asm_word : assemble "BV_XOR" [.handle 1#8, .number 9, .number 1] = some [0x0701000100000009#64] := by decide
theorem test_asm_pseudo : assemble "ENCB" [.number 0xAB] =
    some [0x3000000B00000000#64, 0x3000000A00000000#64] := by decide
theorem test_asm_text : (Instr.bmSet 2#8 1#16 7#16).asm = "BM_SET h2, 1, 7" := by decide
theorem test_asm_binds :
    (runSource ["v = BV_CREATE 10".toList, "BV_LENGTH v".toList] [] State.reset).toOption.map Prod.fst =
      some [{ status := .done, value := 1#32 }, { status := .done, value := 10#32 }] := by decide

/-! ### Witnesses: for every statement with hypotheses, a concrete input that meets them (each clause, at a boundary) -/

theorem witness_DecodeOfEncode :
    (Instr.syndLookup 15#8).wellFormed = true ∧ (Instr.hcDecode 0xFF#8 15#32).wellFormed = true ∧
      (Instr.bvXor 255#8 0xFFFFFFFF#32 255#8).wellFormed = true := by decide

theorem witness_EncodeOfDecode : decode 0x14FF0000FFFFFFFF#64 = .ok (.bmSet 255#8 0xFFFF#16 0xFFFF#16) := by decide

theorem witness_WordIsOfRowIffMasked :
    ∃ r ∈ opcodeTable, (0x310000FF0000000F#64 : CmdWord) &&& r.format.mask = r.op.setWidth 64 <<< 56 := by decide

theorem witness_OperandsAreFields :
    decode 0x1000000000040008#64 = .ok (.bmCreate 4#16 8#16) ∧
      decode 0x1502000000010007#64 = .ok (.bmClear 2#8 1#16 7#16) ∧
      decode 0x3100004F0000000A#64 = .ok (.hcDecode 0x4F#8 10#32) := by decide

/-- Each boundary of the ranges of R94. -/
theorem witness_UnassignedOpcodeFaults :
    State.reset.halted = false ∧
    ((0x0000000000000000#64 : CmdWord).extractLsb' 56 8).toNat = 0x00 ∧
    ((0x0900000000000000#64 : CmdWord).extractLsb' 56 8).toNat = 0x09 ∧
    ((0x0F00000000000000#64 : CmdWord).extractLsb' 56 8).toNat = 0x0F ∧
    ((0x1B00000000000000#64 : CmdWord).extractLsb' 56 8).toNat = 0x1B ∧
    ((0x1F00000000000000#64 : CmdWord).extractLsb' 56 8).toNat = 0x1F ∧
    ((0x2300000000000000#64 : CmdWord).extractLsb' 56 8).toNat = 0x23 ∧
    ((0x2F00000000000000#64 : CmdWord).extractLsb' 56 8).toNat = 0x2F ∧
    ((0x3200000000000000#64 : CmdWord).extractLsb' 56 8).toNat = 0x32 ∧
    ((0xFFFFFFFFFFFFFFFF#64 : CmdWord).extractLsb' 56 8).toNat = 0xFF ∧
    (State.reset.present 0x3200000000000000#64).inbox = .command 0x3200000000000000#64 0 0 :: [] := by decide

theorem witness_ReservedBitFaults :
    onVec.halted = false ∧ (onVec.present 0x0201000000000001#64).inbox = .command 0x0201000000000001#64 1 0 :: [] ∧
    (∃ r ∈ opcodeTable, (0x0201000000000001#64 : CmdWord).extractLsb' 56 8 = r.op ∧
      (0x0201000000000001#64 : CmdWord) &&& r.format.mask &&& 0x00FFFFFFFFFFFFFF#64 ≠ 0#64) ∧
    16 ≤ (16#8 : Byte).toNat ∧ 16 ≤ (16#32 : Word).toNat := by decide

/-- A command whose handle names a live object, and one whose handle names a free slot. -/
theorem witness_StepRunsDecodedCommand :
    onVec.halted = false ∧ (onVec.present 0x0601000000000009#64).inbox = .command 0x0601000000000009#64 1 0 :: [] ∧
    decode 0x0601000000000009#64 = .ok (.bvGet 1#8 9#32) ∧ onVec.gen 1 = 1 ∧ onVec.obj 1 ≠ none ∧
    onVec.obj 0 = none ∧ onVec.obj 2 = none := by decide

theorem witness_StaleHandleRefused :
    let s : State := { onMats with inbox := [.command 0x1901020000000000#64 1 7] }
    s.halted = false ∧ decode 0x1901020000000000#64 = .ok (.bmMultiply 1#8 2#8) ∧ s.obj 2 ≠ none ∧ s.gen 2 ≠ 7 ∧
      s.obj 1 ≠ none ∧ s.gen 1 ≠ 0 := by decide

theorem witness_ResetFromAnyState :
    { onFault with inbox := [.reset] }.inbox = .reset :: [] ∧ onFault.halted = true ∧
      ∃ t, step { onFault with inbox := [.reset] } = .next t ∧ t.halted = false :=
  ⟨rfl, rfl, _, rfl, rfl⟩

theorem witness_ConfigurationNeverChanges : ∃ t, step State.reset = .next t := ⟨_, rfl⟩

theorem witness_InvariantAfterReset :
    ({ numHandles := 1, storageBytes := 0 } : Config).legal = true ∧
      ({ numHandles := 255, storageBytes := 0xFFFFFFFF } : Config).legal = true := by decide

theorem witness_StepKeepsInvariant :
    onMats.inv = true ∧ onVec.inv = true ∧ onFault.inv = true ∧ ∃ t, step (onMats.present 0x1901020000000000#64) = .next t :=
  ⟨by decide, by decide, by decide, _, rfl⟩

/-- The first and the last padding bit of the ten-bit vector. -/
theorem witness_PaddingStaysZero :
    onVec.inv = true ∧ (∃ t, step (onVec.present 0x0401000000000009#64) = .next t) ∧ onVec.obj 1 = some (.bv vec10) ∧
      1 < bytesFor (Object.bv vec10).bits ∧ (Object.bv vec10).bits ≤ 8 * 1 + 2 ∧ (Object.bv vec10).bits ≤ 8 * 1 + 7 :=
  ⟨by decide, ⟨_, rfl⟩, by decide, by decide, by decide, by decide⟩

theorem witness_ObjectShapeIsFixed :
    ∃ t, step (onVec.present 0x0401000000000002#64) = .next t ∧ onVec.obj 1 = some (.bv vec10) ∧
      t.obj 1 ≠ none ∧ t.gen 1 = onVec.gen 1 :=
  ⟨_, rfl, by decide, by decide, by decide⟩

/-- A create allocates slot 2, and leaves slot 3 Free at its generation. -/
theorem witness_GenerationCountsAllocations :
    NotReset (onVec.present 0x0100000000000009#64) ∧ ∃ t, step (onVec.present 0x0100000000000009#64) = .next t ∧
      t.gen 2 = 1 ∧ t.obj 2 ≠ none ∧ t.gen 3 = 0 ∧ t.obj 3 = none :=
  ⟨fun rest h => (by cases h), _, rfl, by decide, by decide, by decide, by decide⟩

theorem witness_OnlyDeleteReleases :
    NotReset (onVec.present 0x0201000000000000#64) ∧ ∃ t, step (onVec.present 0x0201000000000000#64) = .next t ∧
      onVec.obj 1 ≠ none ∧ t.obj 1 = none :=
  ⟨fun rest h => (by cases h), _, rfl, by decide, by decide⟩

theorem witness_FaultsArePrecise :
    ∃ t, exec (.bvGet 1#8 10#32) onVec = .next t ∧
      t.out.response = some { status := .fault, value := 6#32 } := ⟨_, rfl, by decide⟩

theorem witness_HaltedBlockIsStuck :
    onFault.halted = true ∧ onFault.inbox = [] ∧
      (onFault.present 0x3000000100000000#64).inbox = .command 0x3000000100000000#64 0 0 :: [] ∧
      NotReset { onFault with inbox := [.readStatus 0] } ∧
      ∃ t, step { onFault with inbox := [.readStatus 0] } = .next t :=
  ⟨rfl, rfl, by decide, (fun rest h => by simp at h), _, rfl⟩

theorem witness_StatusPortReads :
    ({ onFault with inbox := [.readStatus 0, .readStatus 1, .readStatus 2] } : State).inbox =
      .readStatus 0 :: [.readStatus 1, .readStatus 2] := rfl

/-- A block of one slot, in use, has room for nothing. -/
theorem full_no_room (bits : Nat) : ¬ HasRoom full bits := by
  rintro ⟨⟨h, h1, h2, hn⟩, -⟩
  obtain rfl : h = 1 := by
    have : full.cfg.numHandles = 1 := rfl
    omega
  exact absurd hn (by decide)

/-- A pool with a row and a 4 × 2 matrix in its only two slots. -/
def fullMats : State :=
  { State.resetWith { numHandles := 2, storageBytes := 2 } with
      slots := [{ gen := 1, obj := some (.bm row5) }, { gen := 1, obj := some (.bm (Mat.zero 4#16 2#16)) }] }

/-- A pool with a vector and a row of nine columns in its only two slots. -/
def fullPair : State :=
  { State.resetWith { numHandles := 2, storageBytes := 4 } with
      slots := [{ gen := 1, obj := some (.bv vec10) }, { gen := 1, obj := some (.bm (Mat.zero 1#16 9#16)) }] }

theorem fullMats_no_room (bits : Nat) : ¬ HasRoom fullMats bits := by
  rintro ⟨⟨h, h1, h2, hn⟩, -⟩
  have h2' : h ≤ 2 := h2
  have : h = 1 ∨ h = 2 := by omega
  rcases this with rfl | rfl <;> exact absurd hn (by decide)

/-- One byte is free and two are asked for. -/
theorem bytes_no_room : ¬ HasRoom { State.reset with cfg := { numHandles := 8, storageBytes := 1 } } 9 := by
  rintro ⟨-, h⟩
  exact absurd h (by decide)

theorem witness_AbsentExactlyWhenNoRoom :
    full.halted = false ∧ ¬ HasRoom full (1#32 : Word).toNat ∧ ¬ HasRoom full ((0#16 : Half).toNat * (5#16 : Half).toNat) ∧
    8 < (9#32 : Word).toNat ∧ ¬ HasRoom full 32 ∧
    fullMats.halted = false ∧ LiveBm fullMats 1#8 row5 ∧ LiveBm fullMats 2#8 (Mat.zero 4#16 2#16) ∧
    row5.cols = (Mat.zero 4#16 2#16).rows ∧ ¬ HasRoom fullMats 2 ∧
    ∃ t, exec (.bvCreate 1#32) full = .next t ∧ t.out.response = some { status := .absent, value := 0#32 } :=
  ⟨rfl, full_no_room _, full_no_room _, by decide, full_no_room _, rfl, ⟨by decide, by decide, by decide⟩,
    ⟨by decide, by decide, by decide⟩, rfl, fullMats_no_room _, _, rfl, by decide⟩

theorem onVec_live : LiveBv onVec 1#8 vec10 := ⟨by decide, by decide, by decide⟩
theorem row_live : LiveBm onMats 1#8 row5 := ⟨by decide, by decide, by decide⟩
theorem matG_live : LiveBm onMats 2#8 matG := ⟨by decide, by decide, by decide⟩
theorem matHt_live : LiveBm onMats 3#8 matHt := ⟨by decide, by decide, by decide⟩

/-- The reset pool has room for up to 64 bytes, and the pool of three matrices for the rest. -/
theorem reset_room {bits : Nat} (h : bits ≤ 512) : HasRoom State.reset bits :=
  ⟨⟨1, by decide, by decide, by decide⟩, by
    have h1 : State.reset.usedBytes = 0 := by decide
    have h2 : State.reset.cfg.storageBytes = 64 := rfl
    rw [h1, h2, bytesFor]
    omega⟩

theorem onMats_room {bits : Nat} (h : bits ≤ 440) : HasRoom onMats bits :=
  ⟨⟨4, by decide, by decide, by decide⟩, by
    have h1 : onMats.usedBytes = 9 := by decide
    have h2 : onMats.cfg.storageBytes = 64 := rfl
    rw [h1, h2, bytesFor]
    omega⟩

/-- The handle just above NUM_HANDLES, a free slot's, and live handles of both kinds. -/
theorem witness_HandleChecks :
    onVec.halted = false ∧ (1#8 : Byte).toNat ≤ 1 ∧ NamesNothing onVec 9#8 ∧ NamesNothing onVec 2#8 ∧
      LiveBv onVec 1#8 vec10 ∧ LiveBm onMats 1#8 row5 :=
  ⟨rfl, by decide, ⟨by decide, .inl (by decide)⟩, ⟨by decide, .inr (by decide)⟩, onVec_live, row_live⟩

theorem witness_IndexOutOfRangeFaults :
    onVec.halted = false ∧ (1#8 : Byte).toNat ≤ 1 ∧ LiveBv onVec 1#8 vec10 ∧ vec10.length.toNat ≤ (10#32 : Word).toNat ∧
      LiveBm onMats 2#8 matG ∧ matG.rows.toNat ≤ (4#16 : Half).toNat ∧ matG.cols.toNat ≤ (8#16 : Half).toNat :=
  ⟨rfl, by decide, onVec_live, by decide, matG_live, by decide, by decide⟩

/-- Each clause on a pool with no room: a vector beside a row of nine columns, and two matrices whose product has a shape. -/
theorem witness_CheckOrder :
    fullPair.halted = false ∧ fullMats.halted = false ∧ 1 < (2#8 : Byte).toNat ∧ NamesNothing fullPair 3#8 ∧
      LiveBv fullPair 1#8 vec10 ∧ LiveBm fullPair 2#8 (Mat.zero 1#16 9#16) ∧
      LiveBm fullMats 1#8 row5 ∧ LiveBm fullMats 2#8 (Mat.zero 4#16 2#16) ∧
      (Mat.zero 4#16 2#16).cols ≠ row5.rows ∧ row5.cols = (Mat.zero 4#16 2#16).rows ∧
      ¬ HasRoom fullMats (row5.rows.toNat * (Mat.zero 4#16 2#16).cols.toNat) ∧
      (Mat.zero 4#16 2#16).rows.toNat ≠ 1 ∧ 8 < (Mat.zero 1#16 9#16).cols.toNat ∧ 8 < (9#32 : Word).toNat :=
  ⟨rfl, rfl, by decide, ⟨by decide, .inl (by decide)⟩, ⟨by decide, by decide, by decide⟩,
    ⟨by decide, by decide, by decide⟩, ⟨by decide, by decide, by decide⟩, ⟨by decide, by decide, by decide⟩,
    by decide, by decide, fullMats_no_room _, by decide, by decide, by decide⟩

theorem witness_BvCreateResult :
    State.reset.halted = false ∧ State.reset.poolSized ∧ HasRoom State.reset (512#32 : Word).toNat ∧
      ¬ HasRoom full (1#32 : Word).toNat ∧ full.halted = false ∧ full.poolSized :=
  ⟨rfl, rfl, reset_room (by decide), full_no_room _, rfl, rfl⟩

theorem witness_DeleteResult :
    onVec.halted = false ∧ LiveBv onVec 1#8 vec10 ∧ onMats.halted = false ∧ LiveBm onMats 2#8 matG ∧
      NamesNothing onVec 9#8 ∧ NamesNothing onVec 2#8 :=
  ⟨rfl, onVec_live, rfl, matG_live, ⟨by decide, .inl (by decide)⟩, ⟨by decide, .inr (by decide)⟩⟩

/-- What the handle faults of the statements below start from: a handle above NUM_HANDLES, a free slot's, and a live one of the
other kind, in blocks that are not halted. -/
theorem witness_handle_faults :
    onMats.halted = false ∧ NamesNothing onMats 9#8 ∧ NamesNothing onMats 4#8 ∧ LiveBm onMats 1#8 row5 ∧
      onVec.halted = false ∧ NamesNothing onVec 9#8 ∧ NamesNothing onVec 2#8 ∧ LiveBv onVec 1#8 vec10 :=
  ⟨rfl, ⟨by decide, .inl (by decide)⟩, ⟨by decide, .inr (by decide)⟩, row_live, rfl, ⟨by decide, .inl (by decide)⟩,
    ⟨by decide, .inr (by decide)⟩, onVec_live⟩

theorem witness_BvLengthResult : onVec.halted = false ∧ LiveBv onVec 1#8 vec10 := ⟨rfl, onVec_live⟩

theorem witness_BvBitWrites :
    onVec.halted = false ∧ onVec.inv = true ∧ LiveBv onVec 1#8 vec10 ∧ (9#32 : Word).toNat < vec10.length.toNat ∧
      vec10.length.toNat ≤ (10#32 : Word).toNat ∧ 1 < (2#8 : Byte).toNat :=
  ⟨rfl, by decide, onVec_live, by decide, by decide, by decide⟩

theorem witness_BvGetResult :
    onVec.halted = false ∧ LiveBv onVec 1#8 vec10 ∧ (9#32 : Word).toNat < vec10.length.toNat ∧
      vec10.length.toNat ≤ (10#32 : Word).toNat :=
  ⟨rfl, onVec_live, by decide, by decide⟩

theorem witness_BvDumpResult :
    onVec.halted = false ∧ LiveBv onVec 1#8 vec10 ∧ 1 < (vec10.length.toNat + 7) / 8 ∧ 7 < 8 :=
  ⟨rfl, onVec_live, by decide, by decide⟩

/-- The last index of ten bits beside another one, and the only index of a vector of length 1. -/
theorem witness_BvReadAfterWriteLaws :
    onVec.halted = false ∧ onVec.inv = true ∧ LiveBv onVec 1#8 vec10 ∧ (9#32 : Word).toNat < vec10.length.toNat ∧
      (0#32 : Word).toNat < vec10.length.toNat ∧ (0#32 : Word) ≠ 9#32 ∧
      ∃ t, exec (.bvCreate 1#32) State.reset = .next t ∧ t.halted = false ∧ t.inv = true ∧
        LiveBv t 1#8 { length := 1#32, storage := [] } ∧ (0#32 : Word).toNat < (1#32 : Word).toNat :=
  ⟨rfl, by decide, onVec_live, by decide, by decide, by decide, _, rfl, by decide, by decide,
    ⟨by decide, by decide, by decide⟩, by decide⟩

theorem witness_BmCreateResult :
    State.reset.halted = false ∧ State.reset.poolSized ∧ HasRoom State.reset ((4#16 : Half).toNat * (8#16 : Half).toNat) ∧
      full.halted = false ∧ full.poolSized ∧ ¬ HasRoom full ((0#16 : Half).toNat * (5#16 : Half).toNat) :=
  ⟨rfl, rfl, reset_room (by decide), rfl, rfl, full_no_room _⟩

theorem witness_BmDimensionsResult : onMats.halted = false ∧ LiveBm onMats 2#8 matG := ⟨rfl, matG_live⟩

theorem witness_BmEntryWrites :
    onMats.halted = false ∧ onMats.inv = true ∧ LiveBm onMats 2#8 matG ∧ (3#16 : Half).toNat < matG.rows.toNat ∧
      (7#16 : Half).toNat < matG.cols.toNat ∧ matG.rows.toNat ≤ (4#16 : Half).toNat ∧
      matG.cols.toNat ≤ (8#16 : Half).toNat :=
  ⟨rfl, by decide, matG_live, by decide, by decide, by decide, by decide⟩

theorem witness_BmGetResult :
    onMats.halted = false ∧ LiveBm onMats 2#8 matG ∧ (3#16 : Half).toNat < matG.rows.toNat ∧
      (7#16 : Half).toNat < matG.cols.toNat ∧ matG.rows.toNat ≤ (4#16 : Half).toNat ∧
      matG.cols.toNat ≤ (8#16 : Half).toNat :=
  ⟨rfl, matG_live, by decide, by decide, by decide, by decide⟩

theorem witness_BmFromDataResult :
    State.reset.halted = false ∧ State.reset.poolSized ∧ (8#32 : Word).toNat ≤ 8 ∧
      HasRoom State.reset (8#32 : Word).toNat ∧ 8 < (9#32 : Word).toNat ∧ ¬ HasRoom full (0#32 : Word).toNat ∧
      full.halted = false ∧ full.poolSized :=
  ⟨rfl, rfl, by decide, reset_room (by decide), by decide, full_no_room _, rfl, rfl⟩

theorem witness_BmToDataResult :
    onMats.halted = false ∧ LiveBm onMats 1#8 row5 ∧ row5.rows.toNat = 1 ∧ row5.cols.toNat ≤ 8 ∧
      LiveBm onMats 2#8 matG ∧ matG.rows.toNat ≠ 1 ∧
      LiveBm (pool [.bm (Mat.zero 1#16 9#16)]) 1#8 (Mat.zero 1#16 9#16) ∧ 8 < (Mat.zero 1#16 9#16).cols.toNat :=
  ⟨rfl, row_live, by decide, by decide, matG_live, by decide, ⟨by decide, by decide, by decide⟩, by decide⟩

theorem witness_PackingRoundTrip :
    State.reset.halted = false ∧ State.reset.inv = true ∧ (8#32 : Word).toNat ≤ 8 ∧
      HasRoom State.reset (8#32 : Word).toNat ∧
      onMats.halted = false ∧ onMats.inv = true ∧ LiveBm onMats 1#8 row5 ∧ row5.rows.toNat = 1 ∧ row5.cols.toNat ≤ 8 ∧
      HasRoom onMats row5.cols.toNat :=
  ⟨rfl, by decide, by decide, reset_room (by decide), rfl, by decide, row_live, by decide, by decide,
    onMats_room (by decide)⟩

theorem witness_BmMultiplyResult :
    onMats.halted = false ∧ onMats.poolSized ∧ LiveBm onMats 1#8 row5 ∧ LiveBm onMats 2#8 matG ∧
      row5.cols = matG.rows ∧ HasRoom onMats (row5.rows.toNat * matG.cols.toNat) ∧ matG.cols ≠ matG.rows ∧
      fullMats.halted = false ∧ fullMats.poolSized ∧ LiveBm fullMats 1#8 row5 ∧
      LiveBm fullMats 2#8 (Mat.zero 4#16 2#16) ∧ row5.cols = (Mat.zero 4#16 2#16).rows ∧
      ¬ HasRoom fullMats (row5.rows.toNat * (Mat.zero 4#16 2#16).cols.toNat) :=
  ⟨rfl, rfl, row_live, matG_live, rfl, onMats_room (by decide), by decide, rfl, rfl, ⟨by decide, by decide, by decide⟩,
    ⟨by decide, by decide, by decide⟩, rfl, fullMats_no_room _⟩

theorem witness_BmDumpResult :
    onMats.halted = false ∧ LiveBm onMats 2#8 matG ∧ 3 < matG.rows.toNat ∧ 7 < matG.cols.toNat :=
  ⟨rfl, matG_live, by decide, by decide⟩

theorem matG_isG : IsG matG := by
  refine ⟨rfl, rfl, fun i j hi hj => ?_⟩
  have : ∀ (i : Fin 4) (j : Fin 8), matG.entry i.val j.val =
      if j.val < 4 then decide (i.val = j.val) else decide (i.val ≠ j.val - 4) := by decide
  exact this ⟨i, hi⟩ ⟨j, hj⟩

theorem matHt_isHt : IsHt matHt := by
  refine ⟨rfl, rfl, fun i j hi hj => ?_⟩
  have : ∀ (i : Fin 8) (j : Fin 4), matHt.entry i.val j.val =
      if i.val < 4 then decide (i.val ≠ j.val) else decide (j.val = i.val - 4) := by decide
  exact this ⟨i, hi⟩ ⟨j, hj⟩

theorem witness_GeneratorTimesParityIsZero :
    onMats.halted = false ∧ onMats.poolSized ∧ LiveBm onMats 2#8 matG ∧ LiveBm onMats 3#8 matHt ∧ IsG matG ∧ IsHt matHt ∧
      HasRoom onMats 16 := ⟨rfl, rfl, matG_live, matHt_live, matG_isG, matHt_isHt, onMats_room (by decide)⟩

theorem witness_SyndLookupResult :
    State.reset.halted = false ∧ (15#8 : Byte).toNat < 16 ∧ 16 ≤ (16#8 : Byte).toNat := ⟨rfl, by decide, by decide⟩

theorem witness_LoadConstantsResult :
    State.reset.halted = false ∧ State.reset.poolSized ∧ HasRoom State.reset 32 ∧ full.halted = false ∧ full.poolSized ∧
      ¬ HasRoom full 32 := ⟨rfl, rfl, reset_room (by decide), rfl, rfl, full_no_room _⟩

theorem witness_HcEncodeResult : State.reset.halted = false := rfl

/-- A codeword, one at position 7 from a codeword, a double error, and both sides of the bound on MI. -/
theorem witness_HcDecodeResult :
    State.reset.halted = false ∧ (15#32 : Word).toNat < 16 ∧ closedSyndrome 0x4B#8 = 0#4 ∧
      closedSyndrome 0xCB#8 = printedHtRows.getD (7 : Fin 8).val 0#4 ∧
      closedSyndrome 0x48#8 ≠ 0#4 ∧ closedSyndrome 0x48#8 ∉ printedHtRows ∧ 16 ≤ (16#32 : Word).toNat := by decide

theorem witness_EncoderLaws : syndromeFn {} 0x4B#8 = 0#4 ∧ (0#4 : Nibble) ≠ 1#4 := by decide

theorem witness_DecodeOfEncodedMessage : State.reset.halted = false ∧ (15#32 : Word).toNat < 16 := by decide

theorem witness_SingleErrorIsCorrected : State.reset.halted = false ∧ (15#32 : Word).toNat < 16 := by decide

theorem witness_SyndromeTableFollowsHt : (3#4 : Nibble) ≠ 0#4 ∧ popcount (3#4 : Nibble) % 2 = 0 := by decide

theorem witness_DoubleErrorIsDetected :
    State.reset.halted = false ∧ (15#32 : Word).toNat < 16 ∧ (0 : Fin 8) ≠ 7 := by decide

theorem witness_DecoderOutcomeCounts :
    State.reset.halted = false ∧ (3#4 : Nibble) ≠ 0#4 ∧ popcount (3#4 : Nibble) % 2 = 0 := by decide

theorem witness_CodecReadsNoState :
    (15#8 : Byte).toNat < 16 ∧ (15#32 : Word).toNat < 16 ∧ State.reset.halted = false := by decide

theorem witness_HostEncoderWritesCodewords : onVec.halted = false := rfl

theorem witness_HostRoundTrip : onVec.halted = false := rfl

theorem witness_HostRecoversOneFlippedBit : onVec.halted = false ∧ 1 < 2 * [0xAB#8].length := by decide

theorem witness_HostRetainsOnDoubleError :
    onVec.halted = false ∧ (0 : Fin 8) ≠ 7 ∧ (HostDecoder.start host0).lower = some 0#4 ∧
      (HostDecoder.start host0).upper = some 0#4 := by decide

end Sys2Proof.Machine.Tests
end

section
/-! PROOFS. The statements of 00_scope.md: the product over GF(2) (R13, R161), the step of a word that decodes (R7, R64,
R95), and the invariant after reset (R8, R37). -/

namespace Sys2Proof.Machine

/-! ### Sums and products over GF(2) -/

/-- A sum of products with a selector is the exclusive-or, from the left, of the terms that the selector picks (R13). -/
theorem xorSum_and_eq_foldl (p f : Nat → Bool) (n : Nat) :
    xorSum (fun k => p k && f k) n = (((List.range n).filter p).map f).foldl Bool.xor false := by
  induction n with
  | zero => rfl
  | succ n ih =>
    rw [xorSum, ih, List.range_succ, List.filter_append, List.map_append, List.foldl_append]
    cases hp : p n with
    | false => simp [hp]
    | true => simp [hp]

/-- The product is additive in its first operand. -/
theorem mulEntry_xor_left (n i j : Nat) (a1 a2 b : Nat → Nat → Bool) :
    mulEntry n (fun p q => a1 p q ^^ a2 p q) b i j = (mulEntry n a1 b i j ^^ mulEntry n a2 b i j) := by
  simp only [mulEntry, Bool.and_xor_distrib_right, xorSum_xor]

/-- The product is additive in its second operand. -/
theorem mulEntry_xor_right (n i j : Nat) (a b1 b2 : Nat → Nat → Bool) :
    mulEntry n a (fun p q => b1 p q ^^ b2 p q) i j = (mulEntry n a b1 i j ^^ mulEntry n a b2 i j) := by
  simp only [mulEntry, Bool.and_xor_distrib_left, xorSum_xor]

/-- Row `i` of the first operand selects rows of the second. -/
theorem mulEntry_eq_selected_rows (n i j : Nat) (a b : Nat → Nat → Bool) :
    mulEntry n a b i j = (((List.range n).filter fun k => a i k).map fun k => b k j).foldl Bool.xor false :=
  xorSum_and_eq_foldl (a i) (fun k => b k j) n

/-! ### Stale handles (R64) -/

theorem State.staleHandle_eq_false_iff {s : State} {h : Handle} {g : Nat} :
    s.staleHandle h g = false ↔ s.obj h.toNat = none ∨ s.gen h.toNat = g := by
  simp [State.staleHandle, Classical.or_iff_not_imp_left, Option.isSome_iff_ne_none]

theorem State.staleUse_eq_false_iff {s : State} {i : Instr} {gA gB : Nat} :
    s.staleUse i gA gB = false ↔
      (s.obj i.operandHA.toNat = none ∨ s.gen i.operandHA.toNat = gA) ∧
      (s.obj i.operandHB.toNat = none ∨ s.gen i.operandHB.toNat = gB) := by
  rw [State.staleUse, Bool.or_eq_false_iff, staleHandle_eq_false_iff, staleHandle_eq_false_iff]

/-- A step of a block that is not halted, for a presented word that decodes. -/
theorem step_decoded {s : State} {w : CmdWord} {gA gB : Nat} {es : List HostEvent} {i : Instr}
    (hh : s.halted = false) (hi : s.inbox = .command w gA gB :: es) (hd : decode w = .ok i) :
    step s = if s.staleUse i gA gB then .refused .staleHandle else exec i (s.withInbox es) := by
  rw [step_command hi, acceptCommand_ok (by simpa using hh) hd, withInbox_staleUse]

/-! ### The invariant after reset (R37) -/

theorem State.inv_iff {s : State} :
    s.inv = true ↔ s.cfg.legal = true ∧ s.slots.length = s.cfg.numHandles ∧ s.usedBytes ≤ s.cfg.storageBytes ∧
      (∀ sl ∈ s.slots, sl.wf = true) ∧ s.faultStatusWf = true := by
  simp only [State.inv, Bool.and_eq_true, decide_eq_true_eq, List.all_eq_true, and_assoc]

@[simp] theorem Slot.wf_fresh : Slot.fresh.wf = true := rfl

@[simp] theorem Slot.bytes_fresh : Slot.fresh.bytes = 0 := rfl

@[simp] theorem State.resetWith_cfg (cfg : Config) : (State.resetWith cfg).cfg = cfg := rfl

@[simp] theorem State.resetWith_slots (cfg : Config) :
    (State.resetWith cfg).slots = List.replicate cfg.numHandles Slot.fresh := rfl

@[simp] theorem State.resetWith_usedBytes (cfg : Config) : (State.resetWith cfg).usedBytes = 0 := by
  simp [State.usedBytes]

theorem State.resetWith_faultStatusWf (cfg : Config) : (State.resetWith cfg).faultStatusWf = true := rfl

theorem State.resetWith_inv {cfg : Config} (hc : cfg.legal = true) : (State.resetWith cfg).inv = true := by
  refine State.inv_iff.mpr ⟨hc, by simp, by simp, fun sl hsl => ?_, State.resetWith_faultStatusWf cfg⟩
  obtain rfl : sl = Slot.fresh := List.eq_of_mem_replicate hsl
  exact Slot.wf_fresh

theorem Config.reference_legal : Config.reference.legal = true := by decide

/-! ### The obligations -/

/-- Settles O42: a sum of exclusive-ors splits, and a selected sum is a fold over the selected terms. -/
theorem multiplyIsBilinear : Obligations.MultiplyIsBilinear :=
  ⟨mulEntry_xor_left, mulEntry_xor_right, fun n j a b => mulEntry_eq_selected_rows n 0 j a b⟩

/-- Settles O8: with neither handle stale, the step's only other answer is that of `exec`. -/
theorem stepRunsDecodedCommand : Obligations.StepRunsDecodedCommand := by
  intro s w gA gB rest i hh hi hd hA hB
  have hfresh : s.staleUse i gA gB = false := State.staleUse_eq_false_iff.mpr ⟨hA, hB⟩
  rw [step_decoded hh hi hd, hfresh]
  rfl

/-- Settles O14: after reset every slot is fresh, so it is well-formed and holds no bytes. -/
theorem invariantAfterReset : Obligations.InvariantAfterReset :=
  ⟨fun _ hc => State.resetWith_inv hc, State.resetWith_inv Config.reference_legal⟩

end Sys2Proof.Machine
end

section
/-! PROOFS. The statements of 10_state.md: what every step keeps (R20, R27, R34, R36, R38, R52, R54, R61), the ports (R23,
R35), reset (R37), stale handles (R64), the tables (R32, R33), and the codec's independence of the state (R24, R190). -/

namespace Sys2Proof.Machine

/-! ### What a step does to the pool -/

/-- What a command may make of the one slot it writes: a Free slot takes a new object that fits, a live object has one bit
written, or a live slot becomes Free. -/
inductive SlotWrite (s : State) : Slot → Slot → Prop where
  | alloc (g : Nat) (o : Object) (hw : o.wf = true) (hr : s.usedBytes + bytesFor o.bits ≤ s.cfg.storageBytes) :
      SlotWrite s ⟨g, none⟩ ⟨g + 1, some o⟩
  | store (g : Nat) (o : Object) (n : Nat) (b : Bool) (hn : n < o.bits) :
      SlotWrite s ⟨g, some o⟩ ⟨g, some (o.withStorage (o.storage.writeBit n b))⟩
  | free (g : Nat) (o : Object) : SlotWrite s ⟨g, some o⟩ ⟨g, none⟩

/-- The pool of `t` is that of `s`, or that of `s` with one slot written. -/
def PoolStep (s t : State) : Prop :=
  t.slots = s.slots ∨
    ∃ h sl, 1 ≤ h ∧ h ≤ s.slots.length ∧ SlotWrite s (s.slot h) sl ∧ t.slots = (s.setSlot h sl).slots

/-- The fault status of `t` is that of `s`, or `t` has taken a fault of R235. -/
def FaultStep (s t : State) : Prop :=
  (t.halted = s.halted ∧ t.faultCode = s.faultCode ∧ t.faultCmd = s.faultCmd) ∨
    t.halted = true ∧ ∃ c : FaultCode, t.faultCode = c.code

theorem State.slot_eq {s : State} {h : Nat} {x : Option Object} (hx : s.obj h = x) : s.slot h = ⟨s.gen h, x⟩ := by
  rw [← hx]
  rfl

theorem SlotWrite.of_alloc {s : State} {h : Nat} {o : Object} (hn : s.obj h = none) (hw : o.wf = true)
    (hr : s.usedBytes + bytesFor o.bits ≤ s.cfg.storageBytes) : SlotWrite s (s.slot h) ⟨s.gen h + 1, some o⟩ := by
  rw [State.slot_eq hn]
  exact .alloc _ o hw hr

theorem SlotWrite.of_store {s : State} {h n : Nat} {o : Object} (ho : s.obj h = some o) (hn : n < o.bits) (b : Bool) :
    SlotWrite s (s.slot h) ⟨s.gen h, some (o.withStorage (o.storage.writeBit n b))⟩ := by
  rw [State.slot_eq ho]
  exact .store _ o n b hn

theorem SlotWrite.of_free {s : State} {h : Nat} {o : Object} (ho : s.obj h = some o) :
    SlotWrite s (s.slot h) ⟨s.gen h, none⟩ := by
  rw [State.slot_eq ho]
  exact .free _ o

/-- A write to a handle that names no slot changes nothing. -/
theorem State.setSlot_of_lt {s : State} {h : Nat} (hh : s.slots.length < h) (sl : Slot) : s.setSlot h sl = s := by
  cases h with
  | zero => rfl
  | succ k => rw [State.setSlot, List.set_eq_of_length_le (by omega)]

/-- A command answers, faults, or writes one slot of the pool and answers. -/
theorem Effect.shape {i : Instr} {s t : State} (he : Effect i s t) :
    (∃ o, t = { s with out := o }) ∨ (∃ c, t = raiseFault c (encode i) s) ∨
      ∃ h sl st v, 1 ≤ h ∧ h ≤ s.slots.length ∧ SlotWrite s (s.slot h) sl ∧ t = respond st v (s.setSlot h sl) := by
  cases he with
  | answered o => exact .inl ⟨o, rfl⟩
  | faulted c => exact .inr (.inl ⟨c, rfl⟩)
  | created o hw =>
    obtain ⟨-, hc⟩ | ⟨hr, h, ⟨h1, -, hn, -⟩, hc⟩ := create_cases o s
    · exact .inl ⟨_, hc⟩
    · rcases Nat.lt_or_ge s.slots.length h with hlt | h2
      · rw [State.setSlot_of_lt hlt] at hc
        exact .inl ⟨_, hc⟩
      · exact .inr (.inr ⟨h, _, _, _, h1, h2, .of_alloc hn hw hr.2, hc⟩)
  | wrote h o n b ho hn =>
    obtain ⟨h1, h2⟩ := State.lt_of_obj ho
    exact .inr (.inr ⟨h, _, _, _, h1, h2, .of_store ho hn b, by rw [memWrite_eq ho]⟩)
  | freed h o ho =>
    obtain ⟨h1, h2⟩ := State.lt_of_obj ho
    exact .inr (.inr ⟨h, _, _, _, h1, h2, .of_free ho, rfl⟩)

theorem Effect.cfg_eq {i : Instr} {s t : State} (he : Effect i s t) : t.cfg = s.cfg := by
  obtain ⟨o, rfl⟩ | ⟨c, rfl⟩ | ⟨h, sl, st, v, -, -, -, rfl⟩ := he.shape
  · rfl
  · rfl
  · rw [respond_cfg, State.setSlot_cfg]

theorem Effect.poolStep {i : Instr} {s t : State} (he : Effect i s t) : PoolStep s t := by
  obtain ⟨o, rfl⟩ | ⟨c, rfl⟩ | ⟨h, sl, st, v, h1, h2, hw, rfl⟩ := he.shape
  · exact .inl rfl
  · exact .inl rfl
  · exact .inr ⟨h, sl, h1, h2, hw, rfl⟩

theorem Effect.faultStep {i : Instr} {s t : State} (he : Effect i s t) : FaultStep s t := by
  obtain ⟨o, rfl⟩ | ⟨c, rfl⟩ | ⟨h, sl, st, v, -, -, -, rfl⟩ := he.shape
  · exact .inl ⟨rfl, rfl, rfl⟩
  · exact .inr ⟨rfl, c, rfl⟩
  · exact .inl (by simp)

/-- The pending events are no part of the pool. -/
theorem SlotWrite.of_withInbox {s : State} {es : List HostEvent} {old new : Slot}
    (hw : SlotWrite (s.withInbox es) old new) : SlotWrite s old new := by
  cases hw with
  | alloc g o hw hr => exact .alloc g o hw hr
  | store g o n b hn => exact .store g o n b hn
  | free g o => exact .free g o

theorem PoolStep.of_withInbox {s t : State} {es : List HostEvent} (hp : PoolStep (s.withInbox es) t) :
    PoolStep s t := by
  obtain hk | ⟨h, sl, h1, h2, hw, ht⟩ := hp
  · exact .inl hk
  · refine .inr ⟨h, sl, h1, h2, ?_, ?_⟩
    · simpa using hw.of_withInbox
    · rw [ht]
      cases h <;> rfl

/-- No step changes the configuration (R38). -/
theorem StepEffect.cfg_eq {s t : State} (he : StepEffect s t) : t.cfg = s.cfg := by
  cases he with
  | command w a b es i t hi hh hd hx he => exact he.cfg_eq
  | idle | reset | readStatus | noCommand => rfl

/-- A step empties the pool by reset, or writes at most one slot. -/
theorem StepEffect.reset_or_poolStep {s t : State} (he : StepEffect s t) :
    (∃ es, s.inbox = .reset :: es ∧ t = hostReset (s.withInbox es)) ∨ PoolStep s t ∧ FaultStep s t := by
  cases he with
  | reset es hi => exact .inl ⟨es, hi, rfl⟩
  | command w a b es i t hi hh hd hx he => exact .inr ⟨he.poolStep.of_withInbox, he.faultStep⟩
  | noCommand w a b es e hi hh hd => exact .inr ⟨.inl rfl, .inr ⟨rfl, decodeFault e, rfl⟩⟩
  | idle | readStatus => exact .inr ⟨.inl rfl, .inl ⟨rfl, rfl, rfl⟩⟩

/-! ### A write to one slot keeps the invariant of the pool (R52, R54, R61) -/

/-- A write to one bit inside a well-formed object keeps it well-formed (R52, R54). -/
theorem Object.wf_writeBit {o : Object} (hw : o.wf = true) {n : Nat} (hn : n < o.bits) (b : Bool) :
    (o.withStorage (o.storage.writeBit n b)).wf = true := by
  simp only [Object.wf, Bool.and_eq_true, Object.withStorage_storage, Object.withStorage_bits] at hw ⊢
  obtain ⟨hc, hin⟩ := hw
  exact ⟨Memory.wf_writeBit hc n b, Memory.within_writeBit hc hin hn b⟩

theorem SlotWrite.wf {s : State} {old new : Slot} (hw : SlotWrite s old new) (hold : old.wf = true) :
    new.wf = true := by
  cases hw with
  | alloc g o ho hr => simp [Slot.wf, ho]
  | free g o => rfl
  | store g o n b hn =>
    simp only [Slot.wf, Bool.and_eq_true] at hold ⊢
    exact ⟨Object.wf_writeBit hold.1 hn b, hold.2⟩

/-- The slot written takes no more bytes than before, or than the pool has left. -/
theorem SlotWrite.bytes_le {s : State} {old new : Slot} (hw : SlotWrite s old new) :
    new.bytes ≤ old.bytes ∨ s.usedBytes + new.bytes ≤ s.cfg.storageBytes := by
  cases hw with
  | alloc g o ho hr => exact .inr hr
  | free g o => exact .inl (Nat.zero_le _)
  | store g o n b hn => exact .inl (by simp [Slot.bytes])

/-! ### The pool after a step -/

theorem State.slot_congr {s t : State} (ht : t.slots = s.slots) (h : Nat) : t.slot h = s.slot h := by
  cases h with
  | zero => rfl
  | succ k => simp [State.slot, ht]

/-- Each slot is as it was, or it is the one that the step wrote. -/
theorem PoolStep.slot {s t : State} (hp : PoolStep s t) (h : Nat) :
    t.slot h = s.slot h ∨ SlotWrite s (s.slot h) (t.slot h) := by
  obtain hk | ⟨k, sl, h1, h2, hw, ht⟩ := hp
  · exact .inl (State.slot_congr hk h)
  · rw [State.slot_congr ht]
    by_cases hkh : h = k
    · subst hkh
      exact .inr (by rwa [State.slot_setSlot_self h1 h2])
    · exact .inl (State.slot_setSlot_ne hkh sl)

theorem PoolStep.slots_length {s t : State} (hp : PoolStep s t) : t.slots.length = s.slots.length := by
  obtain hk | ⟨h, sl, -, -, -, ht⟩ := hp
  · rw [hk]
  · rw [ht, State.setSlot_slots_length]

/-- A step within STORAGE_BYTES stays within (R61). -/
theorem PoolStep.usedBytes_le {s t : State} (hp : PoolStep s t) (hs : s.usedBytes ≤ s.cfg.storageBytes) :
    t.usedBytes ≤ s.cfg.storageBytes := by
  obtain hk | ⟨h, sl, h1, h2, hw, ht⟩ := hp
  · rwa [State.usedBytes, hk]
  · have hsum : t.usedBytes + (s.slot h).bytes = s.usedBytes + sl.bytes := by
      rw [State.usedBytes, ht]
      exact State.usedBytes_setSlot h1 h2 sl
    have hbytes := hw.bytes_le
    omega

theorem PoolStep.slots_wf {s t : State} (hp : PoolStep s t) (hs : ∀ sl ∈ s.slots, sl.wf = true) :
    ∀ sl ∈ t.slots, sl.wf = true := by
  obtain hk | ⟨h, new, h1, h2, hw, ht⟩ := hp
  · rwa [hk]
  · obtain ⟨k, rfl⟩ := Nat.exists_eq_add_of_le' h1
    intro sl hsl
    rw [ht] at hsl
    obtain hold | rfl := List.mem_or_eq_of_mem_set hsl
    · exact hs sl hold
    · exact hw.wf (hs _ (State.slot_mem h1 h2))

/-! ### Every step keeps the invariant -/

theorem FaultCode.code_range (c : FaultCode) : 1 ≤ c.code.toNat ∧ c.code.toNat ≤ 0x0A := by
  cases c <;> decide

theorem FaultStep.wf {s t : State} (hf : FaultStep s t) (hs : s.faultStatusWf = true) : t.faultStatusWf = true := by
  obtain ⟨hh, hc, hw⟩ | ⟨hh, c, hc⟩ := hf
  · rwa [State.faultStatusWf, hh, hc, hw]
  · simpa [State.faultStatusWf, hh, hc] using c.code_range

/-- Reset from a state of the invariant leads to one (R280). -/
theorem hostReset_inv {s : State} (hs : s.inv = true) : (hostReset s).inv = true := by
  obtain ⟨hcfg, hlen, -, -, -⟩ := State.inv_iff.mp hs
  refine State.inv_iff.mpr ⟨hcfg, ?_, ?_, ?_, rfl⟩
  · simpa [hostReset] using hlen
  · simp [State.usedBytes, hostReset]
  · intro sl hsl
    obtain ⟨-, -, rfl⟩ := List.mem_map.mp hsl
    exact Slot.wf_fresh

/-- A step other than reset keeps each part of the invariant. -/
theorem PoolStep.inv {s t : State} (hp : PoolStep s t) (hf : FaultStep s t) (hcfg : t.cfg = s.cfg)
    (hs : s.inv = true) : t.inv = true := by
  obtain ⟨hlegal, hlen, hused, hwf, hfault⟩ := State.inv_iff.mp hs
  rw [State.inv_iff, hcfg, hp.slots_length]
  exact ⟨hlegal, hlen, hp.usedBytes_le hused, hp.slots_wf hwf, hf.wf hfault⟩

/-! ### What a write does to one slot (R27, R36) -/

/-- A write that leaves a live slot live keeps its object's kind and size (R27). -/
theorem SlotWrite.shape_fixed {s : State} {old new : Slot} (hw : SlotWrite s old new) {o o' : Object}
    (ho : old.obj = some o) (ho' : new.obj = some o') : ∃ st, o' = o.withStorage st := by
  cases hw with
  | alloc g x => cases ho
  | free g x => cases ho'
  | store g x n b hn =>
    obtain rfl : x = o := by simpa using ho
    exact ⟨_, by simpa using ho'.symm⟩

/-- A write raises the generation by one exactly where it allocates a Free slot (R36, R61, R62). -/
theorem SlotWrite.gen_cases {s : State} {old new : Slot} (hw : SlotWrite s old new) :
    (new.gen = old.gen ∧ old.obj ≠ none) ∨ (old.obj = none ∧ new.obj ≠ none ∧ new.gen = old.gen + 1) := by
  cases hw with
  | alloc g o hw hr => exact .inr ⟨rfl, by simp, rfl⟩
  | store g o n b hn => exact .inl ⟨rfl, by simp⟩
  | free g o => exact .inl ⟨rfl, by simp⟩

theorem Object.withStorage_self (o : Object) : o.withStorage o.storage = o := by
  cases o <;> rfl

/-! ### The ports are no state (R20, R23) -/

/-- A state that shows something else at its ports. -/
def State.withOut (s : State) (o : PortOut) : State := { s with out := o }

section
variable (s : State) (o : PortOut)

@[simp] theorem withOut_halted : (s.withOut o).halted = s.halted := rfl
@[simp] theorem withOut_cfg : (s.withOut o).cfg = s.cfg := rfl
@[simp] theorem withOut_inbox : (s.withOut o).inbox = s.inbox := rfl
@[simp] theorem withOut_rom : (s.withOut o).rom = s.rom := rfl
@[simp] theorem withOut_usedBytes : (s.withOut o).usedBytes = s.usedBytes := rfl
@[simp] theorem withOut_slot (h : Nat) : (s.withOut o).slot h = s.slot h := State.slot_out s o h
@[simp] theorem withOut_obj (h : Nat) : (s.withOut o).obj h = s.obj h := by simp [State.obj]
@[simp] theorem withOut_gen (h : Nat) : (s.withOut o).gen h = s.gen h := by simp [State.gen]
@[simp] theorem withOut_freeHandle : (s.withOut o).freeHandle = s.freeHandle := by simp [State.freeHandle]
@[simp] theorem withOut_staleUse (i : Instr) (a b : Nat) : (s.withOut o).staleUse i a b = s.staleUse i a b := by
  simp [State.staleUse, State.staleHandle]
@[simp] theorem withOut_resolveBv (h : Handle) : resolveBv h (s.withOut o) = resolveBv h s := by
  simp [resolveBv, lookup]
@[simp] theorem withOut_resolveBm (h : Handle) : resolveBm h (s.withOut o) = resolveBm h s := by
  simp [resolveBm, lookup]
@[simp] theorem withOut_memRead (h i : Nat) : memRead (s.withOut o) h i = memRead s h i := by
  simp [memRead]

theorem setSlot_withOut (h : Nat) (sl : Slot) : (s.withOut o).setSlot h sl = (s.setSlot h sl).withOut o := by
  cases h <;> rfl

theorem memWrite_withOut (h i : Nat) (b : Bool) : memWrite h i b (s.withOut o) = (memWrite h i b s).withOut o := by
  simp only [memWrite, withOut_obj, withOut_gen, setSlot_withOut]
  cases s.obj h <;> rfl

theorem free_withOut (h : Nat) : free h (s.withOut o) = (free h s).withOut o := by
  simp only [free, withOut_gen, setSlot_withOut]

theorem alloc_withOut (x : Object) :
    alloc x (s.withOut o) = (alloc x s).map fun p => (p.1, p.2.withOut o) := by
  simp only [alloc, withOut_freeHandle, withOut_usedBytes, withOut_cfg, withOut_gen, setSlot_withOut]
  cases s.freeHandle with
  | none => rfl
  | some h => split_ifs <;> rfl

/-! ### Every answer writes all three ports over -/

@[simp] theorem respond_withOut (st : Status) (v : Word) : respond st v (s.withOut o) = respond st v s := rfl
@[simp] theorem respondDump_withOut (d : DiagRecord) (v : Word) :
    respondDump d v (s.withOut o) = respondDump d v s := rfl
@[simp] theorem raiseFault_withOut (c : FaultCode) (w : CmdWord) :
    raiseFault c w (s.withOut o) = raiseFault c w s := rfl
@[simp] theorem respond_memWrite_withOut (st : Status) (v : Word) (h i : Nat) (b : Bool) :
    respond st v (memWrite h i b (s.withOut o)) = respond st v (memWrite h i b s) := by
  rw [memWrite_withOut, respond_withOut]
@[simp] theorem respond_free_withOut (st : Status) (v : Word) (h : Nat) :
    respond st v (free h (s.withOut o)) = respond st v (free h s) := by
  rw [free_withOut, respond_withOut]
@[simp] theorem create_withOut (x : Object) : create x (s.withOut o) = create x s := by
  rw [create, alloc_withOut, create]
  cases alloc x s <;> rfl
@[simp] theorem perform_withOut (i : Instr) (b : Except FaultCode State) :
    perform i (s.withOut o) b = perform i s b := rfl

/-- No command's checks read the ports, and every answer writes them over. -/
theorem exec_withOut (i : Instr) : exec i (s.withOut o) = exec i s := by
  cases i with
  | bvCreate n => simp [exec, execBvCreate]
  | bvDelete ha => simp [exec, execBvDelete]
  | bvLength ha => simp [exec, execBvLength]
  | bvSet ha n => simp [exec, execBvSet]
  | bvClear ha n => simp [exec, execBvClear]
  | bvGet ha n => simp [exec, execBvGet]
  | bvXor ha n b8 => simp [exec, execBvXor]
  | bvDump ha => simp [exec, execBvDump]
  | bmCreate r c => simp [exec, execBmCreate]
  | bmDelete ha => simp [exec, execBmDelete]
  | bmRows ha => simp [exec, execBmRows]
  | bmCols ha => simp [exec, execBmCols]
  | bmSet ha r c => simp [exec, execBmSet]
  | bmClear ha r c => simp [exec, execBmClear]
  | bmGet ha r c => simp [exec, execBmGet]
  | bmFromData b8 n => simp [exec, execBmFromData]
  | bmToData ha => simp [exec, execBmToData]
  | bmMultiply ha hb => simp [exec, execBmMultiply]
  | bmDump ha => simp [exec, execBmDump]
  | syndLookup b8 => simp [exec, execSyndLookup]
  | hcLoadG => simp [exec, execHcLoadG]
  | hcLoadHt => simp [exec, execHcLoadHt]
  | hcEncode b8 => simp [exec, execHcEncode]
  | hcDecode b8 mi => simp [exec, execHcDecode]

theorem acceptCommand_withOut (w : CmdWord) (a b : Nat) :
    acceptCommand w a b (s.withOut o) = acceptCommand w a b s := by
  unfold acceptCommand
  simp only [withOut_halted, withOut_staleUse, exec_withOut, raiseFault_withOut]

/-- Each event's answer writes all three ports, and none reads them. -/
theorem step_withOut : step (s.withOut o) = step s := by
  cases hi : s.inbox with
  | nil =>
    rw [step_nothing hi, step_nothing (s := s.withOut o) hi]
    rfl
  | cons e es =>
    cases e with
    | command w a b =>
      rw [step_command hi, step_command (s := s.withOut o) hi]
      exact acceptCommand_withOut (s.withInbox es) o w a b
    | reset =>
      rw [step_reset hi, step_reset (s := s.withOut o) hi]
      rfl
    | readStatus n =>
      rw [step_readStatus hi, step_readStatus (s := s.withOut o) hi]
      rfl

end

/-! ### The status port (R34, R35) -/

/-- Bit by bit, FSTAT holds `fault_code` in bits 7:0, `halted` in bit 8 and 0 above (R34). -/
theorem fstatWord_getLsbD (halted : Bool) (code : BitVec 8) (i : Nat) :
    (fstatWord halted code).getLsbD i = if i < 8 then code.getLsbD i else decide (i = 8) && halted := by
  simp only [fstatWord, BitVec.getLsbD_append, BitVec.getLsbD_ofBool, BitVec.getLsbD_zero]
  split_ifs with h8 h9
  · rfl
  · simp [show (i - 8 = 0) ↔ i = 8 by omega]
  · simp [show i ≠ 8 by omega]

/-- FSTAT as the 64-bit port shows it (R35). -/
theorem fstatWord_port (halted : Bool) (code : BitVec 8) :
    ((fstatWord halted code).setWidth 64).extractLsb' 9 55 = 0#55 ∧
      ((fstatWord halted code).setWidth 64).getLsbD 8 = halted ∧
      ((fstatWord halted code).setWidth 64).extractLsb' 0 8 = code := by
  refine ⟨?_, ?_, ?_⟩
  · refine BitVec.eq_of_getLsbD_eq fun i hi => ?_
    simp [BitVec.getLsbD_extractLsb', BitVec.getLsbD_setWidth, fstatWord_getLsbD, show ¬ 9 + i < 8 by omega,
      show 9 + i ≠ 8 by omega]
  · rw [BitVec.getLsbD_setWidth, fstatWord_getLsbD]
    simp
  · refine BitVec.eq_of_getLsbD_eq fun i hi => ?_
    simp [fstatWord_getLsbD, hi, show i < 64 by omega]

/-! ### Stale handles and reset -/

theorem State.staleUse_eq_true_iff {s : State} {i : Instr} {gA gB : Nat} :
    s.staleUse i gA gB = true ↔
      (s.obj i.operandHA.toNat ≠ none ∧ s.gen i.operandHA.toNat ≠ gA) ∨
      (s.obj i.operandHB.toNat ≠ none ∧ s.gen i.operandHB.toNat ≠ gB) := by
  simp [State.staleUse, State.staleHandle, Option.isSome_iff_ne_none]

theorem State.resetWith_slot (cfg : Config) (h : Nat) : (State.resetWith cfg).slot h = Slot.fresh := by
  cases h with
  | zero => rfl
  | succ k =>
    simp only [State.slot, State.resetWith_slots, List.getD_eq_getElem?_getD, List.getElem?_replicate]
    split_ifs <;> rfl

/-! ### The tables (R32, R33) -/

/-- G × Ht is zero: each row of G is orthogonal to each column of Ht. -/
theorem mulEntry_g_ht (rom : Rom) : ∀ i < 4, ∀ j < 4, mulEntry 8 rom.g rom.ht i j = false := by
  cases rom
  decide

theorem mulEntry_congr {n : Nat} {a a' b b' : Nat → Nat → Bool} {i j : Nat} (ha : ∀ k < n, a i k = a' i k)
    (hb : ∀ k < n, b k j = b' k j) : mulEntry n a b i j = mulEntry n a' b' i j :=
  xorSum_congr fun k hk => by rw [ha k hk, hb k hk]

/-- The matrix that `BM_MULTIPLY` creates (R160). -/
def Mat.product (a b : Mat) : Mat := Mat.ofEntries a.rows b.cols (mulEntry a.cols.toNat a.entry b.entry)

theorem Mat.entry_product (a b : Mat) {i j : Nat} (hi : i < a.rows.toNat) (hj : j < b.cols.toNat) :
    (a.product b).entry i j = mulEntry a.cols.toNat a.entry b.entry i j := Mat.entry_ofEntries _ _ _ hi hj

theorem exec_bmMultiply_ok {s : State} {ha hb : Handle} {a b : Mat} (hh : s.halted = false) (hA : LiveBm s ha a)
    (hB : LiveBm s hb b) (hd : a.cols = b.rows) :
    exec (.bmMultiply ha hb) s = .next (create (.bm (a.product b)) s) := by
  rw [exec, execBmMultiply, resolveBm_ok.mpr hA, resolveBm_ok.mpr hB]
  simp only [bind, Except.bind, checkDims_ok hd]
  exact perform_ok hh

/-- A matrix with the entries of G times one with the entries of Ht: every entry is 0 (R33). -/
theorem IsG.entry_product_isHt {g ht : Mat} (hg : IsG g) (hht : IsHt ht) {i j : Nat} (hi : i < 4) (hj : j < 4) :
    (g.product ht).entry i j = false := by
  obtain ⟨hgr, hgc, hge⟩ := hg
  obtain ⟨-, hhc, hhe⟩ := hht
  calc (g.product ht).entry i j = mulEntry g.cols.toNat g.entry ht.entry i j :=
        Mat.entry_product g ht (by simpa [hgr] using hi) (by simpa [hhc] using hj)
    _ = mulEntry 8 g.entry ht.entry i j := by rw [hgc]; rfl
    _ = mulEntry 8 (Rom.g {}) (Rom.ht {}) i j :=
        mulEntry_congr (fun k hk => hge i k hi hk) (fun k hk => hhe k j hk hj)
    _ = false := mulEntry_g_ht {} i hi j hj

/-! ### The codec's independence of the state (R24, R190, R191) -/

theorem exec_syndLookup_ok {s : State} {b : Byte} (hh : s.halted = false) (hb : b.toNat < 16) :
    exec (.syndLookup b) s = .next (respond .done ((s.rom.synd (lowNibble b)).code.setWidth 32) s) := by
  rw [exec, execSyndLookup, checkReserved_ok (by simpa [Instr.wellFormed] using hb)]
  exact perform_ok hh

theorem exec_hcEncode_ok {s : State} (b : Byte) (hh : s.halted = false) :
    exec (.hcEncode b) s = .next (respond .done ((encodeFn s.rom b).setWidth 32) s) :=
  perform_ok (i := .hcEncode b) hh

theorem exec_hcDecode_ok {s : State} (c : Byte) {mi : Word} (hh : s.halted = false) (hm : mi.toNat < 16) :
    exec (.hcDecode c mi) s = .next (respond .done
      (decodeValue (decodeFn s.rom c (mi.setWidth 4)).1 (decodeFn s.rom c (mi.setWidth 4)).2) s) := by
  rw [exec, execHcDecode, checkReserved_ok (by simpa [Instr.wellFormed] using hm)]
  exact perform_ok hh

/-! ### The obligations -/

/-- Settles O15: each part of the invariant is kept by a write to one slot, by a fault, and by reset. -/
theorem stepKeepsInvariant : Obligations.StepKeepsInvariant := by
  intro s t hs hst
  have he := step_effect hst
  obtain ⟨es, -, rfl⟩ | ⟨hp, hf⟩ := he.reset_or_poolStep
  · exact hostReset_inv hs
  · exact hp.inv hf he.cfg_eq hs

/-- Settles O10: the three ports are written over by whatever the step answers. -/
theorem portsAreNotState : Obligations.PortsAreNotState := step_withOut

/-- Settles O13: no effect of a step writes the configuration. -/
theorem configurationNeverChanges : Obligations.ConfigurationNeverChanges :=
  fun _ _ hst => (step_effect hst).cfg_eq

/-- Settles O17: reset leaves no object, and a write to a live slot that leaves it live writes only its storage. -/
theorem objectShapeIsFixed : Obligations.ObjectShapeIsFixed := by
  intro s t h o o' hst ho ho' _
  obtain ⟨es, -, rfl⟩ | ⟨hp, -⟩ := (step_effect hst).reset_or_poolStep
  · simp [State.obj, Slot.fresh] at ho'
  · obtain hk | hw := hp.slot h
    · have hoo : some o' = some o := by rw [← ho, ← ho', State.obj, hk, State.obj]
      obtain rfl := Option.some.inj hoo
      exact ⟨_, (Object.withStorage_self _).symm⟩
    · exact hw.shape_fixed ho ho'

/-- Settles O18: a slot that a step writes was Free and is allocated, or was live and keeps its generation. -/
theorem generationCountsAllocations : Obligations.GenerationCountsAllocations := by
  intro s t h hr hst
  obtain ⟨es, hi, -⟩ | ⟨hp, -⟩ := (step_effect hst).reset_or_poolStep
  · exact absurd hi (hr es)
  · obtain hk | hw := hp.slot h
    · exact .inl (by simp [State.gen, State.obj, hk])
    · obtain ⟨hg, hlive⟩ | halloc := hw.gen_cases
      · exact .inl ⟨hg, fun hn => absurd hn hlive⟩
      · exact .inr halloc

/-- Settles O22: the three readings of the port's number. -/
theorem statusPortReads : Obligations.StatusPortReads := by
  intro s number rest hi
  refine ⟨statusRead number s, step_readStatus hi, ?_, ?_, ?_⟩
  · rintro rfl
    exact fstatWord_port s.halted s.faultCode
  · rintro rfl
    rfl
  · intro hn
    obtain ⟨k, rfl⟩ := Nat.exists_eq_add_of_le' hn
    rfl

/-- Settles O44: the operands' entries are those of the tables, whose product is zero. -/
theorem generatorTimesParityIsZero : Obligations.GeneratorTimesParityIsZero := by
  intro s ha hb g ht hh hp hg hht hG hHt hroom
  obtain ⟨hgr, hgc, -⟩ := id hG
  obtain ⟨hhr, hhc, -⟩ := id hHt
  have hbits : (Object.bm (g.product ht)).bits = 16 := by simp [Object.bits, Mat.product, Mat.ofEntries, hgr, hhc]
  obtain ⟨h, hc⟩ := create_created hp (hbits ▸ hroom)
  exact ⟨_, h, _, exec_bmMultiply_ok hh hg hht (hgc.trans hhr.symm), hc, hgr, hhc,
    fun _ _ hi hj => hG.entry_product_isHt hHt hi hj⟩

/-- Settles O56: each codec command's value is a function of its operands and of the one content that the tables have. -/
theorem codecReadsNoState : Obligations.CodecReadsNoState := by
  rintro i (⟨b, rfl, hb⟩ | ⟨b, rfl⟩ | ⟨c, mi, rfl, hm⟩)
  · exact ⟨answers .done ((Rom.synd {} (lowNibble b)).code.setWidth 32), fun s hh => exec_syndLookup_ok hh hb⟩
  · exact ⟨answers .done ((encodeFn {} b).setWidth 32), fun s hh => exec_hcEncode_ok b hh⟩
  · exact ⟨answers .done (decodeValue (decodeFn {} c (mi.setWidth 4)).1 (decodeFn {} c (mi.setWidth 4)).2),
      fun s hh => exec_hcDecode_ok c hh hm⟩

/-- Settles O9: the step refuses a word that decodes when either handle is stale. -/
theorem staleHandleRefused : Obligations.StaleHandleRefused := by
  intro s w gA gB rest i hh hi hd hstale
  rw [step_decoded hh hi hd, if_pos (State.staleUse_eq_true_iff.mpr hstale)]

/-- Settles O11: every slot reads as a fresh one, and the other fields stand in the reset state. -/
theorem resetLeavesEmptyPool : Obligations.ResetLeavesEmptyPool := by
  intro cfg
  refine ⟨fun h => ?_, State.resetWith_usedBytes cfg, rfl, rfl, rfl, rfl⟩
  rw [State.obj, State.gen, State.resetWith_slot]
  exact ⟨rfl, rfl⟩

/-- Settles O46: the table has 16 entries, and each clause is read off them. -/
theorem syndromeTableFollowsHt : Obligations.SyndromeTableFollowsHt := by
  rintro ⟨⟩
  refine ⟨rfl, ?_, ?_, ?_, ?_⟩
  · decide
  · decide
  · decide
  · decide

end Sys2Proof.Machine
end

section
/-! PROOFS. The statements of 20_memory.md: padding bits (R54), what takes an object away (R65), the checks of a handle
operand (R63), and the order of the checks (R240). -/

namespace Sys2Proof.Machine

/-! ### Padding bits (R54) -/

/-- A live object of a pool that meets the invariant is well-formed. -/
theorem State.obj_wf {s : State} (hs : s.inv = true) {h : Nat} {o : Object} (ho : s.obj h = some o) : o.wf = true := by
  obtain ⟨-, -, -, hwf, -⟩ := State.inv_iff.mp hs
  obtain ⟨h1, h2⟩ := State.lt_of_obj ho
  have hslot : (s.slot h).wf = true := hwf _ (State.slot_mem h1 h2)
  rw [State.slot_eq ho, Slot.wf, Bool.and_eq_true] at hslot
  exact hslot.1

/-- A well-formed object's bits at `bits` and above are 0, read by byte and position. -/
theorem Object.readByte_getLsbD_of_wf {o : Object} (hw : o.wf = true) {k p : Nat} (hp : p < 8)
    (hk : o.bits ≤ 8 * k + p) : (o.storage.readByte k).getLsbD p = false := by
  rw [Object.wf, Bool.and_eq_true] at hw
  obtain ⟨hc, hin⟩ := hw
  have hbit : o.storage.readBit (8 * k + p) = false := (Memory.within_iff hc _).mp hin _ hk
  rwa [Memory.readBit, show (8 * k + p) / 8 = k by omega, show (8 * k + p) % 8 = p by omega] at hbit

/-! ### What takes an object away (R65) -/

/-- Every live slot of `s` is live in `t`. -/
def KeepsLive (s t : State) : Prop := ∀ h, s.obj h ≠ none → t.obj h ≠ none

theorem KeepsLive.refl (s : State) : KeepsLive s s := fun _ hl => hl

/-- A slot that is written with an object is live, and no other slot changes. -/
theorem KeepsLive.setSlot (s : State) (h g : Nat) (o : Object) : KeepsLive s (s.setSlot h ⟨g, some o⟩) := by
  intro k hl
  by_cases hk : k = h
  · subst hk
    obtain ⟨o', ho'⟩ := Option.ne_none_iff_exists'.mp hl
    obtain ⟨h1, h2⟩ := State.lt_of_obj ho'
    simp [State.obj, State.slot_setSlot_self h1 h2]
  · rwa [State.obj, State.slot_setSlot_ne hk]

theorem KeepsLive.respond {s t : State} (ht : KeepsLive s t) (st : Status) (v : Word) : KeepsLive s (respond st v t) :=
  fun h hl => by simpa using ht h hl

theorem KeepsLive.memWrite (s : State) (h i : Nat) (b : Bool) : KeepsLive s (memWrite h i b s) := by
  cases ho : s.obj h with
  | none =>
    rw [Machine.memWrite, ho]
    exact .refl s
  | some o =>
    rw [memWrite_eq ho]
    exact .setSlot s h _ _

theorem KeepsLive.create (o : Object) (s : State) : KeepsLive s (create o s) := by
  obtain ⟨-, hc⟩ | ⟨-, h, -, hc⟩ := create_cases o s
  · rw [hc]
    exact (KeepsLive.refl s).respond _ _
  · rw [hc]
    exact (KeepsLive.setSlot s h _ o).respond _ _

theorem KeepsLive.raiseFault (c : FaultCode) (w : CmdWord) (s : State) : KeepsLive s (raiseFault c w s) :=
  fun h hl => by simpa [State.obj] using hl

/-- A command's body takes no object away when it succeeds. -/
def BodyKeepsLive (s : State) (body : Except FaultCode State) : Prop := ∀ t, body = .ok t → KeepsLive s t

theorem BodyKeepsLive.of_ok {s t : State} (ht : KeepsLive s t) : BodyKeepsLive s (.ok t) := by
  rintro _ ⟨⟩
  exact ht

/-- A check before it changes nothing about what a body takes away. -/
theorem BodyKeepsLive.of_bind {α : Type} {s : State} {check : Except FaultCode α}
    {body : α → Except FaultCode State} (hb : ∀ x, BodyKeepsLive s (body x)) : BodyKeepsLive s (check >>= body) := by
  intro t ht
  obtain ⟨x, -, hx⟩ := bind_ok_eq ht
  exact hb x t hx

theorem BodyKeepsLive.answer (s : State) (st : Status) (v : Word) : BodyKeepsLive s (.ok (respond st v s)) :=
  .of_ok ((KeepsLive.refl s).respond st v)

theorem BodyKeepsLive.dump (s : State) (d : DiagRecord) (v : Word) : BodyKeepsLive s (.ok (respondDump d v s)) :=
  .of_ok fun h hl => by simpa [State.obj] using hl

theorem BodyKeepsLive.create (o : Object) (s : State) : BodyKeepsLive s (.ok (create o s)) := .of_ok (.create o s)

theorem BodyKeepsLive.write (s : State) (h i : Nat) (b : Bool) :
    BodyKeepsLive s (.ok (Machine.respond .done 0#32 (memWrite h i b s))) :=
  .of_ok ((KeepsLive.memWrite s h i b).respond _ _)

theorem KeepsLive.of_perform {i : Instr} {s t : State} {body : Except FaultCode State} (h : perform i s body = .next t)
    (hb : BodyKeepsLive s body) : KeepsLive s t := by
  obtain ⟨-, hok | ⟨c, -, rfl⟩⟩ := perform_next h
  · exact hb t hok
  · exact .raiseFault c _ s

theorem KeepsLive.of_perform_ok {i : Instr} {s t u : State} (h : perform i s (.ok u) = .next t) (hu : KeepsLive s u) :
    KeepsLive s t := .of_perform h (.of_ok hu)

/-- No command but a delete takes an object away. -/
theorem exec_keepsLive {i : Instr} {s t : State} (hbv : ∀ ha, i ≠ .bvDelete ha) (hbm : ∀ ha, i ≠ .bmDelete ha)
    (hx : exec i s = .next t) : KeepsLive s t := by
  cases i with
  | bvDelete ha => exact absurd rfl (hbv ha)
  | bmDelete ha => exact absurd rfl (hbm ha)
  | bvCreate n => exact .of_perform_ok (i := .bvCreate n) hx (.create _ s)
  | bmCreate r c => exact .of_perform_ok (i := .bmCreate r c) hx (.create _ s)
  | hcLoadG => exact .of_perform_ok (i := .hcLoadG) hx (.create _ s)
  | hcLoadHt => exact .of_perform_ok (i := .hcLoadHt) hx (.create _ s)
  | bmMultiply ha hb =>
    exact .of_perform hx (.of_bind fun _ => .of_bind fun _ => .of_bind fun _ => .create _ s)
  | bmFromData b8 n =>
    refine .of_perform hx ?_
    split_ifs
    · exact .answer s _ _
    · exact .create _ s
  | hcEncode b8 => exact .of_perform_ok (i := .hcEncode b8) hx ((KeepsLive.refl s).respond _ _)
  | bvLength | bmRows | bmCols | syndLookup | hcDecode => exact .of_perform hx (.of_bind fun _ => .answer s _ _)
  | bvGet | bmGet | bmToData => exact .of_perform hx (.of_bind fun _ => .of_bind fun _ => .answer s _ _)
  | bvDump | bmDump => exact .of_perform hx (.of_bind fun _ => .dump s _ _)
  | bvSet | bvClear | bmSet | bmClear => exact .of_perform hx (.of_bind fun _ => .of_bind fun _ => .write s _ _ _)
  | bvXor => exact .of_perform hx (.of_bind fun _ => .of_bind fun _ => .of_bind fun _ => .write s _ _ _)

theorem obj_free_ne {s : State} {h k : Nat} (hk : k ≠ h) : (free h s).obj k = s.obj k := by
  rw [free, State.obj, State.slot_setSlot_ne hk, State.obj]

/-- A delete takes away no object but the one that it names. -/
theorem eq_of_deleted {i : Instr} {s t : State} {ha : Handle} {h : Nat} {α : Type} {check : Except FaultCode α}
    (hx : perform i s (if ha = 0#8 then .ok (respond .done 0#32 s)
      else check >>= fun _ => .ok (respond .done 0#32 (free ha.toNat s))) = .next t)
    (hl : s.obj h ≠ none) (hn : t.obj h = none) : ha.toNat = h := by
  by_contra hne
  obtain ⟨-, hok | ⟨c, -, rfl⟩⟩ := perform_next hx
  · split_ifs at hok
    · exact BodyKeepsLive.answer s _ _ t hok h hl hn
    · obtain ⟨-, -, hok⟩ := bind_ok_eq hok
      obtain rfl : _ = t := by simpa using hok
      rw [respond_obj, obj_free_ne (Ne.symm hne)] at hn
      exact hl hn
  · exact KeepsLive.raiseFault c _ s h hl hn

/-- An object that a command takes away was named by a delete (R65). -/
theorem exec_released {i : Instr} {s t : State} {h : Nat} (hx : exec i s = .next t) (hl : s.obj h ≠ none)
    (hn : t.obj h = none) : ∃ ha : Handle, ha.toNat = h ∧ (i = .bvDelete ha ∨ i = .bmDelete ha) := by
  by_cases hbv : ∃ ha, i = .bvDelete ha
  · obtain ⟨ha, rfl⟩ := hbv
    exact ⟨ha, eq_of_deleted hx hl hn, .inl rfl⟩
  · by_cases hbm : ∃ ha, i = .bmDelete ha
    · obtain ⟨ha, rfl⟩ := hbm
      exact ⟨ha, eq_of_deleted hx hl hn, .inr rfl⟩
    · exact absurd hn (exec_keepsLive (not_exists.mp hbv) (not_exists.mp hbm) hx h hl)

/-! ### A check that fails -/

/-- A check that fails takes its fault, whatever the checks after it would say. -/
theorem takesFault_of_check {i : Instr} {s : State} {α : Type} {check : Except FaultCode α}
    {body : α → Except FaultCode State} {c : FaultCode} (hh : s.halted = false)
    (hx : exec i s = perform i s (check >>= body)) (hc : check = .error c) : TakesFault i s c.code := by
  rw [TakesFault, hx, hc]
  exact perform_error hh

section
variable {i : Instr} {s : State} {ha : Handle}

/-- A command that first resolves `ha` as a vector takes the handle faults of R63. -/
theorem bvHandleFaults_of_resolve {body : Vec → Except FaultCode State} (hh : s.halted = false)
    (hx : exec i s = perform i s (resolveBv ha s >>= body)) : BvHandleFaults i s ha := by
  refine ⟨?_, ?_, ?_⟩
  · rintro rfl
    exact takesFault_of_check hh hx (resolveBv_null s)
  · rintro ⟨h0, hnone⟩
    exact takesFault_of_check hh hx (resolveBv_bad h0 hnone)
  · intro m hm
    exact takesFault_of_check hh hx (resolveBv_kind hm)

/-- A command that first resolves `ha` as a matrix takes the handle faults of R63. -/
theorem bmHandleFaults_of_resolve {body : Mat → Except FaultCode State} (hh : s.halted = false)
    (hx : exec i s = perform i s (resolveBm ha s >>= body)) : BmHandleFaults i s ha := by
  refine ⟨?_, ?_, ?_⟩
  · rintro rfl
    exact takesFault_of_check hh hx (resolveBm_null s)
  · rintro ⟨h0, hnone⟩
    exact takesFault_of_check hh hx (resolveBm_bad h0 hnone)
  · intro v hv
    exact takesFault_of_check hh hx (resolveBm_kind hv)

end

/-! ### The commands, up to the check that decides -/

theorem perform_bind_ok {i : Instr} {s : State} {α : Type} {check : Except FaultCode α} {x : α}
    (hc : check = .ok x) (body : α → Except FaultCode State) :
    perform i s (check >>= body) = perform i s (body x) := by
  rw [hc]
  rfl

section
variable {s : State} {ha hb : Handle}

/-- A delete of handle 0 is a no-op (R63, R121). -/
theorem exec_bvDelete_null (hh : s.halted = false) : exec (.bvDelete 0#8) s = .next (s.answered .done 0#32) :=
  perform_ok (i := .bvDelete 0#8) hh

/-- A delete of handle 0 is a no-op (R63, R152). -/
theorem exec_bmDelete_null (hh : s.halted = false) : exec (.bmDelete 0#8) s = .next (s.answered .done 0#32) :=
  perform_ok (i := .bmDelete 0#8) hh

theorem exec_bvDelete_of_ne (h0 : ha ≠ 0#8) : exec (.bvDelete ha) s = perform (.bvDelete ha) s
    (resolveBv ha s >>= fun _ => .ok (respond .done 0#32 (free ha.toNat s))) := by
  rw [exec, execBvDelete, if_neg h0]

theorem exec_bmDelete_of_ne (h0 : ha ≠ 0#8) : exec (.bmDelete ha) s = perform (.bmDelete ha) s
    (resolveBm ha s >>= fun _ => .ok (respond .done 0#32 (free ha.toNat s))) := by
  rw [exec, execBmDelete, if_neg h0]

/-- With its bit operand in range, `BV_XOR` resolves the handle (R128). -/
theorem exec_bvXor_of_bit {n : Word} {b8 : Byte} (hbit : b8.toNat ≤ 1) : exec (.bvXor ha n b8) s =
    perform (.bvXor ha n b8) s (resolveBv ha s >>= fun v => checkIndex v n >>= fun _ => .ok (respond .done 0#32
      (memWrite ha.toNat n.toNat (memRead s ha.toNat n.toNat ^^ b8.getLsbD 0) s))) :=
  perform_bind_ok (checkBit_ok hbit) _

/-- With its handle resolved, `BM_TO_DATA` checks the shape (R159). -/
theorem exec_bmToData_of_live {m : Mat} (hm : LiveBm s ha m) : exec (.bmToData ha) s =
    perform (.bmToData ha) s (checkPackable m >>= fun _ =>
      .ok (respond .done ((packBits (m.entry 0) m.cols.toNat).setWidth 32) s)) :=
  perform_bind_ok (resolveBm_ok.mpr hm) _

/-- With HA resolved, `BM_MULTIPLY` resolves HB (R63, R160). -/
theorem exec_bmMultiply_of_left {a : Mat} (hA : LiveBm s ha a) : exec (.bmMultiply ha hb) s =
    perform (.bmMultiply ha hb) s (resolveBm hb s >>= fun b => checkDims a b >>= fun _ =>
      .ok (create (.bm (a.product b)) s)) :=
  perform_bind_ok (resolveBm_ok.mpr hA) _

/-- With both handles resolved, `BM_MULTIPLY` checks the dimensions (R160). -/
theorem exec_bmMultiply_of_live {a b : Mat} (hA : LiveBm s ha a) (hB : LiveBm s hb b) : exec (.bmMultiply ha hb) s =
    perform (.bmMultiply ha hb) s (checkDims a b >>= fun _ => .ok (create (.bm (a.product b)) s)) :=
  (exec_bmMultiply_of_left hA).trans (perform_bind_ok (resolveBm_ok.mpr hB) _)

end

theorem create_absent {o : Object} {s : State} (hr : ¬ HasRoom s o.bits) : create o s = respond .absent 0#32 s := by
  obtain ⟨-, hc⟩ | ⟨hroom, -⟩ := create_cases o s
  · exact hc
  · exact absurd hroom hr

/-! ### The obligations -/

/-- Settles O16: both states meet the invariant, so their live objects hold no bit outside. -/
theorem paddingStaysZero : Obligations.PaddingStaysZero := by
  intro s t hs hst h o ho k p _ hp hk
  have hw : o.wf = true := ho.elim (State.obj_wf hs) (State.obj_wf (stepKeepsInvariant s t hs hst))
  exact Object.readByte_getLsbD_of_wf hw hp hk

/-- Settles O19: of all that a step can do, only reset and a delete empty a live slot. -/
theorem onlyDeleteReleases : Obligations.OnlyDeleteReleases := by
  intro s t h hr hst hl hn
  cases step_effect hst with
  | idle => exact absurd hn hl
  | reset es hi => exact absurd hi (hr es)
  | readStatus n es hi => exact absurd hn hl
  | noCommand w a b es e hi hh hd => exact absurd hn hl
  | command w a b es i t hi hh hd hx he =>
    obtain ⟨ha, hha, rfl | rfl⟩ := exec_released hx (by simpa using hl) hn
    · exact ⟨w, a, b, es, ha, hi, hha, .inl hd⟩
    · exact ⟨w, a, b, es, ha, hi, hha, .inr hd⟩

/-- Settles O24: each command resolves its handle before anything else that its operands leave to check. -/
theorem handleChecks : Obligations.HandleChecks := by
  intro s ha n b8 r c hh hb8
  refine ⟨?_, ?_, ?_, ?_, ?_, fun hb => ⟨bmHandleFaults_of_resolve hh rfl, fun a hA => ?_⟩⟩
  · simp only [bvAccess, List.forall_mem_cons]
    have hxor : BvHandleFaults (.bvXor ha n b8) s ha := bvHandleFaults_of_resolve hh (exec_bvXor_of_bit hb8)
    refine ⟨?_, ?_, ?_, ?_, hxor, ?_, by simp⟩ <;> exact bvHandleFaults_of_resolve hh rfl
  · simp only [bmAccess, List.forall_mem_cons]
    refine ⟨?_, ?_, ?_, ?_, ?_, ?_, ?_, by simp⟩ <;> exact bmHandleFaults_of_resolve hh rfl
  · simp only [List.forall_mem_cons]
    refine ⟨⟨?_, ?_⟩, ⟨?_, ?_⟩, by simp⟩
    · rintro rfl
      exact exec_bvDelete_null hh
    · rintro ⟨h0, hnone⟩
      exact takesFault_of_check hh (exec_bvDelete_of_ne h0) (resolveBv_bad h0 hnone)
    · rintro rfl
      exact exec_bmDelete_null hh
    · rintro ⟨h0, hnone⟩
      exact takesFault_of_check hh (exec_bmDelete_of_ne h0) (resolveBm_bad h0 hnone)
  · intro m hm
    exact takesFault_of_check hh (exec_bvDelete_of_ne hm.1) (resolveBv_kind hm)
  · intro v hv
    exact takesFault_of_check hh (exec_bmDelete_of_ne hv.1) (resolveBm_kind hv)
  · exact bmHandleFaults_of_resolve hh (exec_bmMultiply_of_left hA)

/-- Settles O26: each clause is the first check that fails, or what is left when none does. -/
theorem checkOrder : Obligations.CheckOrder := by
  intro s hh
  refine ⟨?_, ?_, ?_, ?_, ?_, ?_, ?_, ?_⟩
  · intro ha n b8 hb8
    exact takesFault_of_check hh rfl (checkBit_error hb8)
  · intro ha hb
    exact bmHandleFaults_of_resolve hh rfl
  · intro ha hb a hA
    exact bmHandleFaults_of_resolve hh (exec_bmMultiply_of_left hA)
  · intro ha hb a b hA hB hd
    exact takesFault_of_check hh (exec_bmMultiply_of_live hA hB) (checkDims_error hd)
  · intro ha hb a b hA hB hd hr
    rw [exec_bmMultiply_ok hh hA hB hd, create_absent hr]
    rfl
  · intro ha
    exact bmHandleFaults_of_resolve hh rfl
  · intro ha m hm hshape
    exact takesFault_of_check hh (exec_bmToData_of_live hm) (checkPackable_error hshape)
  · intro b8 n hn
    rw [exec, execBmFromData, if_pos hn]
    exact perform_ok hh

end Sys2Proof.Machine
end

section
/-! PROOFS. The statements of 30_encoding.md: each word of a row stands for one command and each command for one word
(R89 to R93), the faults of a word that is no command (R92, R94), and the closed forms of the codec (R82, R84). -/

namespace Sys2Proof

/-! ### The opcode map (R93) -/

theorem opRow?_of_mem {r : OpRow} (hr : r ∈ opcodeTable) : opRow? r.op = some r := by
  fin_cases hr <;> rfl

/-- The map has one row per assigned opcode. -/
theorem opRow?_eq_some_iff {op : Byte} {r : OpRow} : opRow? op = some r ↔ r ∈ opcodeTable ∧ r.op = op := by
  constructor
  · intro h
    exact ⟨List.mem_of_find?_eq_some h, by simpa using List.find?_some h⟩
  · rintro ⟨hr, rfl⟩
    exact opRow?_of_mem hr

/-- Every command's word is of the command's own row. -/
theorem Laws.EncodesItsRow.holds : ∀ i : Instr, Statement i
  | .bvCreate n => bvCreate n
  | .bvDelete ha => bvDelete ha
  | .bvLength ha => bvLength ha
  | .bvSet ha n => bvSet ha n
  | .bvClear ha n => bvClear ha n
  | .bvGet ha n => bvGet ha n
  | .bvXor ha n b8 => bvXor ha n b8
  | .bvDump ha => bvDump ha
  | .bmCreate r c => bmCreate r c
  | .bmDelete ha => bmDelete ha
  | .bmRows ha => bmRows ha
  | .bmCols ha => bmCols ha
  | .bmSet ha r c => bmSet ha r c
  | .bmClear ha r c => bmClear ha r c
  | .bmGet ha r c => bmGet ha r c
  | .bmFromData b8 n => bmFromData b8 n
  | .bmToData ha => bmToData ha
  | .bmMultiply ha hb => bmMultiply ha hb
  | .bmDump ha => bmDump ha
  | .syndLookup b8 => syndLookup b8
  | .hcLoadG => hcLoadG
  | .hcLoadHt => hcLoadHt
  | .hcEncode b8 => hcEncode b8
  | .hcDecode b8 mi => hcDecode b8 mi

/-! ### A word and its row (R91, R92) -/

/-- The reserved bits of a word, field by field. -/
theorem Format.reservedClear_iff {f : Format} {w : CmdWord} : f.reservedClear w = true ↔
    fieldHA w &&& f.reservedFields.1 = 0#8 ∧ fieldHB w &&& f.reservedFields.2.1 = 0#8 ∧
      fieldB8 w &&& f.reservedFields.2.2.1 = 0#8 ∧ fieldN w &&& f.reservedFields.2.2.2 = 0#32 := by
  conv_lhs => rw [← packWord_fields w]
  exact Format.reservedClear_packWord _ _ _ _ _ f

/-- A word under a format's mask is an opcode alone exactly when it has that opcode and no reserved bit. -/
theorem masked_eq_iff {f : Format} {w : CmdWord} {op : Byte} :
    w &&& f.mask = packWord op 0#8 0#8 0#8 0#32 ↔ fieldOP w = op ∧ f.reservedClear w = true := by
  conv_lhs => rw [← packWord_fields w]
  rw [f.mask_eq, packWord_and, packWord_inj, and_FF, Format.reservedClear_iff]

/-- The pattern of a row is `OP << 56`. -/
theorem OpRow.pattern_eq_shift (r : OpRow) : r.pattern = r.op.setWidth 64 <<< 56 := by
  refine BitVec.eq_of_getLsbD_eq fun i hi => ?_
  rw [OpRow.pattern, packWord_getLsbD, BitVec.getLsbD_shiftLeft, BitVec.getLsbD_setWidth]
  by_cases h : i < 56
  · simp [h]
  · simp [h, hi, show i - 56 < 64 by omega, show ¬ i < 48 by omega, show ¬ i < 40 by omega, show ¬ i < 32 by omega]

/-- The command that a row reads from one of its words has the row's opcode and the word's own fields as operands: a field
that the format does not read is reserved, so it is 0 on both sides (R89, R91). -/
theorem OpRow.operands_read {r : OpRow} (hr : r ∈ opcodeTable) {w : CmdWord} (hw : r.format.reservedClear w = true) :
    (r.read w).opcode = r.op ∧ (r.read w).operandHA = fieldHA w ∧ (r.read w).operandHB = fieldHB w ∧
      (r.read w).operandB8 = fieldB8 w ∧ (r.read w).operandN = fieldN w := by
  obtain ⟨hA, hB, hb8, hN⟩ := Format.reservedClear_iff.mp hw
  fin_cases hr <;>
    simp_all [Format.reservedFields, Instr.opcode, Instr.operandHA, Instr.operandHB, Instr.operandB8, Instr.operandN,
      packRC_fields]

/-- The word of a command that a row reads from one of its words is that word. -/
theorem OpRow.encode_read {r : OpRow} (hr : r ∈ opcodeTable) {w : CmdWord} (hop : fieldOP w = r.op)
    (hw : r.format.reservedClear w = true) : encode (r.read w) = w := by
  obtain ⟨ho, hA, hB, hb8, hN⟩ := OpRow.operands_read hr hw
  rw [encode, ho, hA, hB, hb8, hN, ← hop, packWord_fields]

/-! ### The decoder (R95) -/

/-- A word decodes to what its row reads from it, when no reserved bit is set. -/
theorem decode_eq_ok_iff {w : CmdWord} {i : Instr} : decode w = .ok i ↔
    ∃ r ∈ opcodeTable, fieldOP w = r.op ∧ r.format.reservedClear w = true ∧ r.read w = i := by
  constructor
  · intro h
    unfold decode at h
    split at h
    · cases h
    · rename_i r hrow
      obtain ⟨hr, hop⟩ := opRow?_eq_some_iff.mp hrow
      split at h
      · rename_i hclear
        exact ⟨r, hr, hop.symm, hclear, by simpa using h⟩
      · cases h
  · rintro ⟨r, hr, hop, hclear, rfl⟩
    simp only [decode, hop, opRow?_of_mem hr, hclear, if_true]

/-- A word whose opcode has no row is ILLEGAL_OP (R94). -/
theorem decode_illegalOp {w : CmdWord} (h : ∀ r ∈ opcodeTable, r.op ≠ fieldOP w) : decode w = .error .illegalOp := by
  have hnone : opRow? (fieldOP w) = none := by simpa [opRow?] using h
  simp only [decode, hnone]

/-- A word with a row and one of its format's reserved bits set is RESERVED_FIELD (R92). -/
theorem decode_reservedField {r : OpRow} (hr : r ∈ opcodeTable) {w : CmdWord} (hop : fieldOP w = r.op)
    (hw : r.format.reservedClear w = false) : decode w = .error .reservedField := by
  simp [decode, hop, opRow?_of_mem hr, hw]

theorem decode_encode {i : Instr} (hi : i.wellFormed = true) : decode (encode i) = .ok i := by
  obtain ⟨r, hrow, hop, hformat, hread, -⟩ := Laws.EncodesItsRow.holds i
  refine decode_eq_ok_iff.mpr ⟨r, (opRow?_eq_some_iff.mp hrow).1, ?_, ?_, hread⟩
  · rw [encode, fieldOP_packWord, hop]
  · rw [hformat, reservedClear_encode, hi]

theorem decode_of_encode_eq {w : CmdWord} {i : Instr} (hw : encode i = w) (hi : i.wellFormed = true) :
    decode w = .ok i := hw ▸ decode_encode hi

theorem encode_of_decode {w : CmdWord} {i : Instr} (h : decode w = .ok i) : encode i = w := by
  obtain ⟨r, hr, hop, hclear, rfl⟩ := decode_eq_ok_iff.mp h
  exact OpRow.encode_read hr hop hclear

/-- The row of a command's opcode has the command's format. -/
theorem OpRow.format_eq {r : OpRow} (hr : r ∈ opcodeTable) {i : Instr} (hop : i.opcode = r.op) : r.format = i.format := by
  obtain ⟨r', hrow, -, hformat, -⟩ := Laws.EncodesItsRow.holds i
  rw [hop, opRow?_of_mem hr] at hrow
  cases hrow
  exact hformat

theorem wellFormed_of_decode {w : CmdWord} {i : Instr} (h : decode w = .ok i) : i.wellFormed = true := by
  have hw : encode i = w := encode_of_decode h
  obtain ⟨r, hr, hop, hclear, -⟩ := decode_eq_ok_iff.mp h
  have hformat : r.format = i.format := OpRow.format_eq hr (by rw [← hop, ← hw, encode, fieldOP_packWord])
  rw [← reservedClear_encode, hw, ← hformat, hclear]

/-- A word is of a row's command when its masked bits are the row's pattern (R91). -/
theorem decode_opcode_iff {r : OpRow} (hr : r ∈ opcodeTable) {w : CmdWord} :
    (∃ i, decode w = .ok i ∧ i.opcode = r.op) ↔ w &&& r.format.mask = r.pattern := by
  rw [OpRow.pattern, masked_eq_iff]
  constructor
  · rintro ⟨i, hd, hop⟩
    have hw : encode i = w := encode_of_decode hd
    rw [OpRow.format_eq hr hop, ← hw, reservedClear_encode, wellFormed_of_decode hd, encode, fieldOP_packWord]
    exact ⟨hop, rfl⟩
  · rintro ⟨hop, hclear⟩
    exact ⟨r.read w, decode_eq_ok_iff.mpr ⟨r, hr, hop, hclear, rfl⟩, (OpRow.operands_read hr hclear).1⟩

/-- The low nibble of a word is that of its field N. -/
theorem extract_low_nibble (w : CmdWord) : w.extractLsb' 0 4 = (fieldN w).extractLsb' 0 4 := by
  refine BitVec.eq_of_getLsbD_eq fun i hi => ?_
  simp [fieldN, hi]

/-- A value of at most 15 in the field N is its low four bits (R90, format D). -/
theorem setWidth_low_nibble {mi : Word} (h : mi.toNat < 16) : (mi.extractLsb' 0 4).setWidth 32 = mi := by
  apply BitVec.eq_of_toNat_eq
  simp [Nat.mod_eq_of_lt h, Nat.mod_eq_of_lt mi.isLt]

/-! ### The obligations about the word -/

/-- Settles O1: a command's row reads the command back from its word, and its reserved bits are clear. -/
theorem decodeOfEncode : Obligations.DecodeOfEncode := fun _ hi => decode_encode hi

/-- Settles O2: the row reads every field that is not reserved, so the word is the packing of what was read. -/
theorem encodeOfDecode : Obligations.EncodeOfDecode := fun _ _ h => ⟨encode_of_decode h, wellFormed_of_decode h⟩

/-- Settles O3: the mask fixes the opcode and the reserved bits, which is what the decoder checks. -/
theorem wordIsOfRowIffMasked : Obligations.WordIsOfRowIffMasked := by
  refine ⟨fun r hr w => ?_, rfl, rfl, rfl, rfl, rfl, rfl, rfl, rfl, rfl, rfl, rfl, rfl⟩
  rw [← r.pattern_eq_shift]
  exact decode_opcode_iff hr

/-- Settles O4: a word that decodes packs the operands of its command, and a field of a packed word is what was packed. -/
theorem operandsAreFields : Obligations.OperandsAreFields := by
  intro w i h
  have hwf : i.wellFormed = true := wellFormed_of_decode h
  obtain rfl : encode i = w := encode_of_decode h
  have hRC : ∀ r c, i.operandN = packRC r c → r = fieldR (encode i) ∧ c = fieldC (encode i) := by
    intro r c hN
    simp [encode, hN]
  refine ⟨(fieldOP_packWord ..).symm, (fieldHA_packWord ..).symm, (fieldHB_packWord ..).symm,
    (fieldB8_packWord ..).symm, (fieldN_packWord ..).symm, ?_, ?_, ?_⟩
  · rintro r c rfl
    exact hRC r c rfl
  · rintro ha r c (rfl | rfl | rfl) <;> exact hRC r c rfl
  · rintro b mi rfl
    have hmi : mi.toNat < 16 := by simpa [Instr.wellFormed] using hwf
    rw [extract_low_nibble, encode, fieldN_packWord]
    exact (setWidth_low_nibble hmi).symm

/-- Settles O7: each printed word is the word of its command. -/
theorem printedWordsDecode : Obligations.PrintedWordsDecode := by
  refine ⟨?_, ?_, ?_, ?_, ?_, ?_, ?_, ?_, ?_, ?_, ?_, ?_, ?_, ?_, ?_, ?_, ?_, ?_, ?_, ?_, ?_, ?_, ?_, ?_⟩ <;>
    exact decode_of_encode_eq (by decide) rfl

end Sys2Proof

namespace Sys2Proof.Machine

/-! ### The faults of a word that is no command (R92, R94) -/

/-- A step of a block that is not halted, for a presented word that is no command: the fault of the word (R95, R236). -/
theorem step_undecoded {s : State} {w : CmdWord} {gA gB : Nat} {es : List HostEvent} {e : DecodeError}
    (hh : s.halted = false) (hi : s.inbox = .command w gA gB :: es) (hd : decode w = .error e) :
    step s = .next ((s.withInbox es).afterFault (decodeFault e).code w) := by
  rw [step_command hi, acceptCommand_error (by simpa using hh) hd]
  rfl

/-- An opcode in one of the ranges that R94 lists as unassigned. -/
abbrev UnassignedOpcode (op : Byte) : Prop :=
  op.toNat = 0x00 ∨ (0x09 ≤ op.toNat ∧ op.toNat ≤ 0x0F) ∨ (0x1B ≤ op.toNat ∧ op.toNat ≤ 0x1F) ∨
    (0x23 ≤ op.toNat ∧ op.toNat ≤ 0x2F) ∨ (0x32 ≤ op.toNat ∧ op.toNat ≤ 0xFF)

theorem opcodeTable_assigned : ∀ r ∈ opcodeTable, ¬ UnassignedOpcode r.op := by decide

/-- Settles O5: no row has an unassigned opcode, so the decoder finds none. -/
theorem unassignedOpcodeFaults : Obligations.UnassignedOpcodeFaults := by
  intro s w gA gB rest hh hi hop
  refine step_undecoded hh hi (decode_illegalOp fun r hr heq => ?_)
  exact opcodeTable_assigned r hr (heq ▸ hop)

/-- A command that checks its reserved bits first faults when one is set (log entry 11). -/
theorem takesFault_of_not_wellFormed {i : Instr} {s : State} {body : Unit → Except FaultCode State}
    (hh : s.halted = false) (hx : exec i s = perform i s (checkReserved i >>= body)) (hi : i.wellFormed = false) :
    TakesFault i s 0x02#8 :=
  takesFault_of_check hh hx (checkReserved_error hi)

/-- Settles O6: the decoder's check of the reserved bits fails, and for a term wider than its field the command's own. -/
theorem reservedBitFaults : Obligations.ReservedBitFaults := by
  refine ⟨fun s w gA gB rest hh hi r hr hop hbits => ?_, fun s b8 hh hb => ?_, fun s b8 mi hh hm => ?_, fun b8 => ?_⟩
  · have hclear : r.format.reservedClear w = false := by
      rw [Format.reservedClear, ← BitVec.and_assoc]
      exact decide_eq_false hbits
    exact step_undecoded hh hi (decode_reservedField hr hop hclear)
  · exact takesFault_of_not_wellFormed hh rfl (by simpa [Instr.wellFormed] using hb)
  · exact takesFault_of_not_wellFormed hh rfl (by simpa [Instr.wellFormed] using hm)
  · exact decode_encode rfl

/-! ### The codec's sums (R81 to R84) -/

/-- A sum of terms selected at one place is the term there. -/
theorem xorSum_and_eq (f : Nat → Bool) (j n : Nat) :
    xorSum (fun k => f k && decide (k = j)) n = (decide (j < n) && f j) := by
  induction n with
  | zero => rfl
  | succ n ih =>
    rw [xorSum, ih]
    rcases Nat.lt_trichotomy j n with h | rfl | h
    · simp [h, show n ≠ j by omega, show j < n + 1 by omega]
    · simp
    · simp [show n ≠ j by omega, show ¬ j < n by omega, show ¬ j < n + 1 by omega]

/-- A sum of terms selected at every place but one is the whole sum and that term (R84). -/
theorem xorSum_and_ne (f : Nat → Bool) (j n : Nat) :
    xorSum (fun k => f k && decide (k ≠ j)) n = (xorSum f n ^^ (decide (j < n) && f j)) := by
  rw [← xorSum_and_eq f j n, ← xorSum_xor]
  refine xorSum_congr fun k _ => ?_
  cases f k <;> simp

/-- A sum is the sum of its first part and its second. -/
theorem xorSum_add (f : Nat → Bool) (m n : Nat) : xorSum f (m + n) = (xorSum f m ^^ xorSum (fun k => f (m + k)) n) := by
  induction n with
  | zero => simp [xorSum]
  | succ n ih => rw [← Nat.add_assoc, xorSum, ih, xorSum, Bool.xor_assoc]

theorem parity_eq_xorSum {n : Nat} (v : BitVec n) : parity v = xorSum v.getLsbD n := (xorSum_eq_parity _ _).symm

/-- The sum of a byte's low four bits is the parity of its low nibble. -/
theorem xorSum_low_nibble (b : Byte) : xorSum b.getLsbD 4 = parity (b.extractLsb' 0 4) := by
  rw [parity_eq_xorSum]
  exact xorSum_congr fun k hk => by simp [hk]

/-- A message bit of the codeword: column `j < 4` of G selects bit `j` (R82). -/
theorem encodeFn_getLsbD_message (rom : Rom) (b : Byte) {j : Nat} (hj : j < 4) :
    (encodeFn rom b).getLsbD j = b.getLsbD j := by
  have hcol : ∀ k < 4, (rowOfByte b 0 k && rom.g k j) = (b.getLsbD k && decide (k = j)) := by
    simp [rowOfByte, Rom.g, hj]
  rw [encodeFn, packBits_getLsbD _ le_rfl, mulEntry, xorSum_congr hcol, xorSum_and_eq]
  simp [hj, show j < 8 by omega]

/-- A parity bit of the codeword: column `4 + j` of G leaves out bit `j` (R82). -/
theorem encodeFn_getLsbD_parity (rom : Rom) (b : Byte) {j : Nat} (hj : j < 4) :
    (encodeFn rom b).getLsbD (4 + j) = (parity (b.extractLsb' 0 4) ^^ b.getLsbD j) := by
  have hcol : ∀ k < 4, (rowOfByte b 0 k && rom.g k (4 + j)) = (b.getLsbD k && decide (k ≠ j)) := by
    simp [rowOfByte, Rom.g]
  rw [encodeFn, packBits_getLsbD _ le_rfl, mulEntry, xorSum_congr hcol, xorSum_and_ne, xorSum_low_nibble]
  simp [hj, show 4 + j < 8 by omega]

/-- The codeword in closed form (R82). -/
theorem encodeFn_eq_append (rom : Rom) (b : Byte) : encodeFn rom b =
    (if parity (b.extractLsb' 0 4) then ~~~ b.extractLsb' 0 4 else b.extractLsb' 0 4) ++ b.extractLsb' 0 4 := by
  refine BitVec.eq_of_getLsbD_eq fun i hi => ?_
  rw [BitVec.getLsbD_append]
  by_cases h : i < 4
  · rw [encodeFn_getLsbD_message rom b h]
    simp [h]
  · obtain ⟨j, rfl⟩ : ∃ j, i = 4 + j := ⟨i - 4, by omega⟩
    have hj : j < 4 := by omega
    rw [encodeFn_getLsbD_parity rom b hj]
    cases parity (b.extractLsb' 0 4) <;> simp [hj]

/-- The printed codewords have that closed form. -/
theorem printedCodeword_eq_append : ∀ m : Nibble, printedCodeword m = (if parity m then ~~~ m else m) ++ m := by
  decide

/-- A bit of the syndrome: column `j` of Ht leaves out bit `j` of the low nibble and selects bit `j` of the high one (R84). -/
theorem syndromeFn_getLsbD (rom : Rom) (c : Byte) {j : Nat} (hj : j < 4) :
    (syndromeFn rom c).getLsbD j = (parity (c.extractLsb' 0 4) ^^ c.getLsbD j ^^ c.getLsbD (4 + j)) := by
  have hlow : ∀ k < 4, (rowOfByte c 0 k && rom.ht k j) = (c.getLsbD k && decide (k ≠ j)) := by
    intro k hk
    simp [rowOfByte, Rom.ht, hk]
  have hhigh : ∀ k < 4, (rowOfByte c 0 (4 + k) && rom.ht (4 + k) j) = (c.getLsbD (4 + k) && decide (k = j)) := by
    intro k _
    simp [rowOfByte, Rom.ht, eq_comm]
  rw [syndromeFn, BitVec.getLsbD_setWidth, packBits_getLsbD _ (by decide), mulEntry, xorSum_add _ 4 4,
    xorSum_congr hlow, xorSum_congr hhigh, xorSum_and_ne, xorSum_and_eq (fun k => c.getLsbD (4 + k)), xorSum_low_nibble]
  simp [hj]

/-- The nibble 0xF or 0x0 of R84 repeats the parity that chooses it. -/
theorem getLsbD_parity_mask (p : Bool) {j : Nat} (hj : j < 4) :
    (if p then 0xF#4 else 0x0#4 : Nibble).getLsbD j = p := by
  cases p with
  | false => simp
  | true =>
    rw [if_pos rfl, show (0xF#4 : Nibble) = BitVec.allOnes 4 from rfl, BitVec.getLsbD_allOnes]
    exact decide_eq_true hj

/-- The product with Ht is the closed form of the syndrome (R84). -/
theorem syndromeFn_eq_closedSyndrome (rom : Rom) (c : Byte) : syndromeFn rom c = closedSyndrome c := by
  refine BitVec.eq_of_getLsbD_eq fun j hj => ?_
  rw [syndromeFn_getLsbD rom c hj, closedSyndrome, BitVec.getLsbD_xor, getLsbD_parity_mask _ hj]
  simp only [BitVec.getLsbD_xor, BitVec.getLsbD_extractLsb', hj, decide_true, Bool.true_and, Nat.zero_add]
  rw [Bool.xor_comm, Bool.xor_comm (parity _), Bool.xor_assoc]

theorem closedSyndrome_eq_zero_iff : ∀ c : Byte, closedSyndrome c = 0#4 ↔ c ∈ printedCodewords := by
  decide

/-- Settles O50: bit by bit, a column of G or Ht selects one bit of a nibble or leaves one out of its parity. -/
theorem codecClosedForms : Obligations.CodecClosedForms := by
  intro rom
  refine ⟨fun b => ?_, encodeFn_eq_append rom, fun b j => encodeFn_getLsbD_parity rom b j.isLt,
    syndromeFn_eq_closedSyndrome rom, fun c => ?_⟩
  · rw [encodeFn_eq_append, printedCodeword_eq_append]
  · rw [syndromeFn_eq_closedSyndrome, closedSyndrome_eq_zero_iff]

end Sys2Proof.Machine
end

section
/-! PROOFS. The statements of 40_bitvector.md: the commands of bitvector_storage (R120 to R129), and what their twins of
bitmatrix_gf2_mult share with them: the index checks (R154) and the delete (R152). -/

namespace Sys2Proof.Machine

/-! ### A command that resolves its handle and checks its index -/

section
variable {i : Instr} {s : State} {ha : Handle}

/-- A command that resolves `ha` as a vector and then checks the index `n` takes the faults of R63 and R123. -/
theorem bvAccessFaults_of_checks {n : Word} {body : Vec → Unit → Except FaultCode State} (hh : s.halted = false)
    (hx : exec i s = perform i s (resolveBv ha s >>= fun v => checkIndex v n >>= body v)) : BvAccessFaults i s ha n :=
  ⟨bvHandleFaults_of_resolve hh hx, fun _ hv hn =>
    takesFault_of_check hh (hx.trans (perform_bind_ok (resolveBv_ok.mpr hv) _)) (checkIndex_error hn)⟩

/-- A command that resolves `ha` as a matrix and then checks the entry (r, c) takes the faults of R63 and R154. -/
theorem bmAccessFaults_of_checks {r c : Half} {body : Mat → Unit → Except FaultCode State} (hh : s.halted = false)
    (hx : exec i s = perform i s (resolveBm ha s >>= fun m => checkRC m r c >>= body m)) : BmAccessFaults i s ha r c :=
  ⟨bmHandleFaults_of_resolve hh hx, fun _ hm hrc =>
    takesFault_of_check hh (hx.trans (perform_bind_ok (resolveBm_ok.mpr hm) _)) (checkRC_error hrc)⟩

/-- With a live vector and an index in range, both checks pass and the command's own effect stands. -/
theorem exec_next_of_bvChecks {n : Word} {v : Vec} {t : State} (hh : s.halted = false)
    (hx : exec i s = perform i s (resolveBv ha s >>= fun v => checkIndex v n >>= fun _ => .ok t)) (hv : LiveBv s ha v)
    (hn : n.toNat < v.length.toNat) : exec i s = .next t := by
  rw [hx, perform_bind_ok (resolveBv_ok.mpr hv), perform_bind_ok (checkIndex_ok hn), perform_ok hh]

end

/-! ### The commands that write one bit (R124, R125, R128) -/

/-- The command is a checked write of `b` to bit `n` of the vector at `ha`, answered DONE, 0. -/
def WritesBvBit (i : Instr) (s : State) (ha : Handle) (n : Word) (b : Bool) : Prop :=
  exec i s = perform i s (resolveBv ha s >>= fun v => checkIndex v n >>= fun _ =>
    .ok (respond .done 0#32 (memWrite ha.toNat n.toNat b s)))

section
variable {i : Instr} {s : State} {ha : Handle} {n : Word} {b : Bool} {v : Vec}

theorem writesBvBit_bvSet (s : State) (ha : Handle) (n : Word) : WritesBvBit (.bvSet ha n) s ha n true := rfl

theorem writesBvBit_bvClear (s : State) (ha : Handle) (n : Word) : WritesBvBit (.bvClear ha n) s ha n false := rfl

/-- `b = 0` leaves the bit unchanged (R128). -/
theorem writesBvBit_bvXor_zero (s : State) (ha : Handle) (n : Word) :
    WritesBvBit (.bvXor ha n 0#8) s ha n (memRead s ha.toNat n.toNat) := by
  rw [WritesBvBit, exec_bvXor_of_bit (by decide), show (0#8 : Byte).getLsbD 0 = false from rfl, Bool.xor_false]

/-- `b = 1` toggles the bit (R128). -/
theorem writesBvBit_bvXor_one (s : State) (ha : Handle) (n : Word) :
    WritesBvBit (.bvXor ha n 1#8) s ha n (!memRead s ha.toNat n.toNat) := by
  rw [WritesBvBit, exec_bvXor_of_bit (by decide), show (1#8 : Byte).getLsbD 0 = true from rfl, Bool.xor_true]

theorem WritesBvBit.accessFaults (hi : WritesBvBit i s ha n b) (hh : s.halted = false) : BvAccessFaults i s ha n :=
  bvAccessFaults_of_checks hh hi

/-- Storage is canonical under the invariant, so the write changes the one bit and nothing else. -/
theorem WritesBvBit.bitWritten (hi : WritesBvBit i s ha n b) (hh : s.halted = false) (hs : s.inv = true)
    (hv : LiveBv s ha v) (hn : n.toNat < v.length.toNat) :
    ∃ t, exec i s = .next t ∧ BitWritten s t ha.toNat n.toNat b := by
  have hx := exec_next_of_bvChecks hh hi hv hn
  obtain ⟨-, -, hobj⟩ := hv
  have hwf := State.obj_wf hs hobj
  rw [Object.wf, Bool.and_eq_true] at hwf
  exact ⟨_, hx, bitWritten_memWrite hobj hwf.1 _ b⟩

theorem BitWritten.halted_eq {s t : State} {h i : Nat} {b : Bool} (hw : BitWritten s t h i b) : t.halted = s.halted := by
  obtain ⟨⟨⟨-, -, hhalted, -⟩, -⟩, -⟩ := hw
  exact hhalted

/-- After a write to one bit the handle names a live vector of the same length. -/
theorem BitWritten.liveBv {t : State} {k : Nat} (hw : BitWritten s t ha.toNat k b) (hv : LiveBv s ha v) :
    ∃ v', LiveBv t ha v' ∧ v'.length = v.length := by
  obtain ⟨h0, hle, hobj⟩ := hv
  obtain ⟨⟨⟨hcfg, -⟩, -⟩, -, ⟨o, st, ho, ht⟩, -⟩ := hw
  obtain rfl : o = .bv v := Option.some.inj (ho.symm.trans hobj)
  exact ⟨{ v with storage := st }, ⟨h0, hcfg ▸ hle, ht⟩, rfl⟩

end

/-! ### The commands that only read (R122, R126, R127) -/

section
variable {s : State} {ha : Handle} {v : Vec}

theorem exec_bvLength_ok (hh : s.halted = false) (hv : LiveBv s ha v) :
    exec (.bvLength ha) s = .next (s.answered .done v.length) :=
  (perform_bind_ok (i := .bvLength ha) (resolveBv_ok.mpr hv) _).trans (perform_ok hh)

theorem ofBool_setWidth_word (b : Bool) : (BitVec.ofBool b).setWidth 32 = if b then 1#32 else 0#32 := by
  cases b <;> rfl

theorem exec_bvGet_ok {n : Word} (hh : s.halted = false) (hv : LiveBv s ha v) (hn : n.toNat < v.length.toNat) :
    exec (.bvGet ha n) s =
      .next (s.answered .done (if memRead s ha.toNat n.toNat then 1#32 else 0#32)) := by
  rw [← ofBool_setWidth_word]
  exact exec_next_of_bvChecks hh rfl hv hn

theorem exec_bvDump_ok (hh : s.halted = false) (hv : LiveBv s ha v) :
    exec (.bvDump ha) s = .next { s with out := dumps (.bvDump v.length (BitVec.ofNat 32 (bytesFor v.length.toNat))
      (v.storage.bytes (bytesFor v.length.toNat))) v.length } :=
  (perform_bind_ok (i := .bvDump ha) (resolveBv_ok.mpr hv) _).trans (perform_ok hh)

theorem memRead_of_obj {h : Nat} {o : Object} (ho : s.obj h = some o) (k : Nat) :
    memRead s h k = o.storage.readBit k := by
  simp [memRead, ho]

end

/-- Bit p of byte k is bit 8k + p (R51). -/
theorem Memory.readBit_byte (m : Memory) (k : Nat) {p : Nat} (hp : p < 8) :
    m.readBit (8 * k + p) = (m.readByte k).getLsbD p := by
  rw [Memory.readBit, show (8 * k + p) / 8 = k by omega, show (8 * k + p) % 8 = p by omega]

theorem Memory.bytes_getD (m : Memory) {n k : Nat} (hk : k < n) (d : Byte) : (m.bytes n).getD k d = m.readByte k := by
  simp [Memory.bytes, hk]

theorem bytesFor_word_toNat (n : Word) : (BitVec.ofNat 32 (bytesFor n.toNat)).toNat = (n.toNat + 7) / 8 := by
  rw [BitVec.toNat_ofNat, bytesFor, Nat.mod_eq_of_lt (by omega)]

/-! ### The deletes (R121, R152) -/

/-- A write to one slot and a response leave every other slot and everything outside the pool. -/
theorem onlySlot_respond_setSlot (s : State) (h : Nat) (sl : Slot) (st : Status) (v : Word) :
    OnlySlot h s (respond st v (s.setSlot h sl)) :=
  ⟨by simp [SameOutsidePool], fun k hk => by rw [respond_slot, State.slot_setSlot_ne hk]⟩

/-- `t` is `s` with the object `o` of slot `h` gone and its bytes given back, answered DONE, 0 (R62). -/
def Released (s t : State) (h : Nat) (o : Object) : Prop :=
  t.obj h = none ∧ t.gen h = s.gen h ∧ OnlySlot h s t ∧ t.usedBytes + bytesFor o.bits = s.usedBytes ∧
    t.out = answers .done 0#32

theorem released_free {s : State} {h : Nat} {o : Object} (ho : s.obj h = some o) :
    Released s (respond .done 0#32 (free h s)) h o := by
  obtain ⟨h1, h2⟩ := State.lt_of_obj ho
  have hslot : (free h s).slot h = ⟨s.gen h, none⟩ := State.slot_setSlot_self h1 h2 _
  have hbytes := State.usedBytes_setSlot h1 h2 ⟨s.gen h, none⟩
  rw [State.slot_eq ho] at hbytes
  refine ⟨?_, ?_, onlySlot_respond_setSlot s h _ _ _, hbytes, rfl⟩
  · rw [respond_obj, State.obj, hslot]
  · rw [respond_gen, State.gen, hslot]

theorem exec_bvDelete_ok {s : State} {ha : Handle} {v : Vec} (hh : s.halted = false) (hv : LiveBv s ha v) :
    exec (.bvDelete ha) s = .next (respond .done 0#32 (free ha.toNat s)) := by
  rw [exec_bvDelete_of_ne hv.1, perform_bind_ok (resolveBv_ok.mpr hv), perform_ok hh]

theorem exec_bmDelete_ok {s : State} {ha : Handle} {m : Mat} (hh : s.halted = false) (hm : LiveBm s ha m) :
    exec (.bmDelete ha) s = .next (respond .done 0#32 (free ha.toNat s)) := by
  rw [exec_bmDelete_of_ne hm.1, perform_bind_ok (resolveBm_ok.mpr hm), perform_ok hh]

/-- A delete through a handle that names nothing faults with BAD_HANDLE (R63). -/
theorem delete_takesFault_of_namesNothing {s : State} {ha : Handle} (hh : s.halted = false) (hn : NamesNothing s ha) :
    TakesFault (.bvDelete ha) s 0x04#8 ∧ TakesFault (.bmDelete ha) s 0x04#8 := by
  obtain ⟨h0, hnone⟩ := hn
  exact ⟨takesFault_of_check hh (exec_bvDelete_of_ne h0) (resolveBv_bad h0 hnone),
    takesFault_of_check hh (exec_bmDelete_of_ne h0) (resolveBm_bad h0 hnone)⟩

/-! ### The obligations -/

/-- Settles O25: with its handle resolved, each addressing command checks its index before all else. -/
theorem indexOutOfRangeFaults : Obligations.IndexOutOfRangeFaults := by
  refine ⟨fun s ha n b8 v hh hb8 hv hn => ?_, fun s ha r c m hh hm hrc => ?_⟩
  · have hxor : BvAccessFaults (.bvXor ha n b8) s ha n := bvAccessFaults_of_checks hh (exec_bvXor_of_bit hb8)
    simp only [List.forall_mem_cons]
    refine ⟨?_, ?_, ?_, hxor.2 v hv hn, by simp⟩ <;> exact (bvAccessFaults_of_checks hh rfl).2 v hv hn
  · simp only [List.forall_mem_cons]
    refine ⟨?_, ?_, ?_, by simp⟩ <;> exact (bmAccessFaults_of_checks hh rfl).2 m hm hrc

/-- Settles O27: the new vector's storage is empty, and an unlisted byte reads as 0. -/
theorem bvCreateResult : Obligations.BvCreateResult := by
  intro s n hh hp
  have hx : exec (.bvCreate n) s = .next (create (.bv (Vec.zero n)) s) := perform_ok (i := .bvCreate n) hh
  refine ⟨fun hr => ?_, fun hr => ?_⟩
  · obtain ⟨h, hc⟩ := create_created (o := .bv (Vec.zero n)) hp hr
    have ⟨_, hobj, _⟩ := hc
    refine ⟨_, h, Vec.zero n, hx, hc, rfl, fun i => ?_⟩
    rw [memRead_of_obj hobj]
    exact Memory.readBit_nil i
  · rw [hx, create_absent (o := .bv (Vec.zero n)) hr]
    rfl

/-- Settles O28: both deletes end in `Free`, after which the handle names nothing. -/
theorem deleteResult : Obligations.DeleteResult := by
  intro s ha hh
  refine ⟨?_, exec_bvDelete_null hh, exec_bmDelete_null hh, delete_takesFault_of_namesNothing hh,
    fun m hm => takesFault_of_check hh (exec_bvDelete_of_ne hm.1) (resolveBv_kind hm),
    fun v hv => takesFault_of_check hh (exec_bmDelete_of_ne hv.1) (resolveBm_kind hv)⟩
  have hagain {o : Object} (h0 : ha ≠ 0#8) (ho : s.obj ha.toNat = some o) :=
    delete_takesFault_of_namesNothing (s := respond .done 0#32 (free ha.toNat s)) (by simpa [free] using hh)
      ⟨h0, .inr (released_free ho).1⟩
  rintro i o (⟨rfl, v, rfl, hv⟩ | ⟨rfl, m, rfl, hm⟩)
  · have ⟨h0, _, hobj⟩ := hv
    obtain ⟨hnone, hgen, honly, hbytes, hout⟩ := released_free hobj
    exact ⟨_, exec_bvDelete_ok hh hv, hnone, hgen, honly, hbytes, hout, (hagain h0 hobj).1⟩
  · have ⟨h0, _, hobj⟩ := hm
    obtain ⟨hnone, hgen, honly, hbytes, hout⟩ := released_free hobj
    exact ⟨_, exec_bmDelete_ok hh hm, hnone, hgen, honly, hbytes, hout, (hagain h0 hobj).2⟩

/-- Settles O30: each of the four is a checked write of its bit, and the bit operand of the exclusive-or comes first. -/
theorem bvBitWrites : Obligations.BvBitWrites := by
  intro s ha n hh
  have hset := writesBvBit_bvSet s ha n
  have hclear := writesBvBit_bvClear s ha n
  have hkeep := writesBvBit_bvXor_zero s ha n
  have htoggle := writesBvBit_bvXor_one s ha n
  refine ⟨fun v hs hv hn => ?_, ?_, fun b8 hb8 => takesFault_of_check hh rfl (checkBit_error hb8)⟩
  · exact ⟨hset.bitWritten hh hs hv hn, hclear.bitWritten hh hs hv hn, hkeep.bitWritten hh hs hv hn,
      htoggle.bitWritten hh hs hv hn⟩
  · simp only [List.forall_mem_cons]
    exact ⟨hset.accessFaults hh, hclear.accessFaults hh, hkeep.accessFaults hh, htoggle.accessFaults hh, by simp⟩

/-- Settles O32: byte k of the storage holds bits 8k to 8k + 7. -/
theorem bvDumpResult : Obligations.BvDumpResult := by
  refine fun s ha hh => ⟨fun v hv => ?_, bvHandleFaults_of_resolve hh rfl⟩
  have ⟨_, _, hobj⟩ := hv
  refine ⟨_, _, exec_bvDump_ok hh hv, bytesFor_word_toNat v.length, by simp [Memory.bytes, bytesFor], ?_⟩
  intro k p hk hp
  calc ((v.storage.bytes (bytesFor v.length.toNat)).getD k 0#8).getLsbD p
      = (v.storage.readByte k).getLsbD p := by rw [Memory.bytes_getD (n := bytesFor _) _ hk]
    _ = v.storage.readBit (8 * k + p) := (Memory.readBit_byte _ k hp).symm
    _ = memRead s ha.toNat (8 * k + p) := (memRead_of_obj hobj _).symm

/-- What the reads answer after a checked write (R129). -/
theorem WritesBvBit.readsAfter {i : Instr} {s : State} {ha : Handle} {n : Word} {b : Bool} {v : Vec}
    (hi : WritesBvBit i s ha n b) (hh : s.halted = false) (hs : s.inv = true) (hv : LiveBv s ha v)
    (hn : n.toNat < v.length.toNat) :
    ∃ t, exec i s = .next t ∧
      exec (.bvGet ha n) t = .next (t.answered .done (if b then 1#32 else 0#32)) ∧
      (∀ j : Word, j.toNat < v.length.toNat → j ≠ n →
        exec (.bvGet ha j) t = .next (t.answered .done (if memRead s ha.toNat j.toNat then 1#32 else 0#32))) ∧
      exec (.bvLength ha) t = .next (t.answered .done v.length) := by
  obtain ⟨t, hx, hw⟩ := hi.bitWritten hh hs hv hn
  have ht : t.halted = false := hw.halted_eq.trans hh
  obtain ⟨v', hv', hlen⟩ := hw.liveBv hv
  obtain ⟨-, -, -, hread, -⟩ := hw
  rw [← hlen] at hn ⊢
  refine ⟨t, hx, ?_, fun j hj hne => ?_, exec_bvLength_ok ht hv'⟩
  · rw [exec_bvGet_ok ht hv' hn, hread, if_pos rfl]
  · rw [exec_bvGet_ok ht hv' hj, hread, if_neg fun h => hne (BitVec.eq_of_toNat_eq h)]

/-- Settles O33: each of the four writes is a checked write of the bit that the law expects. -/
theorem bvReadAfterWriteLaws : Obligations.BvReadAfterWriteLaws := by
  rintro s ha n v hh hs hv hn i expected (⟨rfl, rfl⟩ | ⟨rfl, rfl⟩ | ⟨rfl, rfl⟩ | ⟨rfl, rfl⟩)
  · exact (writesBvBit_bvSet s ha n).readsAfter hh hs hv hn
  · exact (writesBvBit_bvClear s ha n).readsAfter hh hs hv hn
  · exact (writesBvBit_bvXor_zero s ha n).readsAfter hh hs hv hn
  · exact (writesBvBit_bvXor_one s ha n).readsAfter hh hs hv hn

/-- Settles O29: once the handle resolves, only the ports change. -/
theorem bvLengthResult : Obligations.BvLengthResult := fun _ _ hh =>
  ⟨fun _ hv => exec_bvLength_ok hh hv, bvHandleFaults_of_resolve hh rfl⟩

/-- Settles O31: once the handle and the index are checked, only the ports change. -/
theorem bvGetResult : Obligations.BvGetResult := fun _ _ _ hh =>
  ⟨fun _ hv hn => exec_bvGet_ok hh hv hn, bvAccessFaults_of_checks hh rfl⟩

end Sys2Proof.Machine
end

section
/-! PROOFS. The statements of 41_bitmatrix.md: the commands of bitmatrix_gf2_mult (R150 to R164), but for the delete, the
checks that they share with bitvector_storage, and the algebra of the product (R161), which stand above. -/

namespace Sys2Proof.Machine

/-! ### Entries and flat indices (R55) -/

/-- Two positions whose columns are in range have the same flat index exactly when they are the same position. -/
theorem mul_add_eq_mul_add_iff {n r c r' c' : Nat} (hc : c < n) (hc' : c' < n) :
    r * n + c = r' * n + c' ↔ r = r' ∧ c = c' := by
  have hparts {p q : Nat} (hq : q < n) : (p * n + q) / n = p ∧ (p * n + q) % n = q :=
    (Nat.div_mod_unique (by omega)).mpr ⟨by ring, hq⟩
  refine ⟨fun h => ?_, fun ⟨hr, hcol⟩ => by rw [hr, hcol]⟩
  obtain ⟨hdiv, hmod⟩ := hparts (p := r) hc
  obtain ⟨hdiv', hmod'⟩ := hparts (p := r') hc'
  rw [h] at hdiv hmod
  exact ⟨hdiv.symm.trans hdiv', hmod.symm.trans hmod'⟩

section
variable {s : State} {ha : Handle} {m : Mat}

/-- An entry is the bit of the inner vector at its flat index. -/
theorem LiveBm.memRead_eq_entry (hm : LiveBm s ha m) (r c : Nat) :
    memRead s ha.toNat (r * m.cols.toNat + c) = m.entry r c := by
  obtain ⟨-, -, hobj⟩ := hm
  exact memRead_of_obj hobj _

/-- After a write to one bit the handle names a live matrix of the same shape. -/
theorem BitWritten.liveBm {t : State} {k : Nat} {b : Bool} (hw : BitWritten s t ha.toNat k b) (hm : LiveBm s ha m) :
    ∃ m', LiveBm t ha m' ∧ m'.rows = m.rows ∧ m'.cols = m.cols := by
  obtain ⟨h0, hle, hobj⟩ := hm
  obtain ⟨⟨⟨hcfg, -⟩, -⟩, -, ⟨o, st, ho, ht⟩, -⟩ := hw
  obtain rfl : o = .bm m := Option.some.inj (ho.symm.trans hobj)
  exact ⟨{ m with storage := st }, ⟨h0, hcfg ▸ hle, ht⟩, rfl, rfl⟩

/-- A write to the bit of entry (r, c) writes that entry and no other. -/
theorem BitWritten.entry_eq {t : State} {m' : Mat} {r c i j : Nat} {b : Bool}
    (hw : BitWritten s t ha.toNat (r * m.cols.toNat + c) b) (hm : LiveBm s ha m) (hm' : LiveBm t ha m')
    (hcols : m'.cols = m.cols) (hc : c < m.cols.toNat) (hj : j < m.cols.toNat) :
    m'.entry i j = if i = r ∧ j = c then b else m.entry i j := by
  obtain ⟨-, -, -, hread, -⟩ := hw
  calc m'.entry i j = memRead t ha.toNat (i * m.cols.toNat + j) := by rw [← hm'.memRead_eq_entry, hcols]
    _ = if i * m.cols.toNat + j = r * m.cols.toNat + c then b else memRead s ha.toNat (i * m.cols.toNat + j) := hread _
    _ = if i = r ∧ j = c then b else m.entry i j :=
        if_congr (mul_add_eq_mul_add_iff hj hc) rfl (hm.memRead_eq_entry i j)

/-! ### The commands that write one entry (R155, R156) -/

/-- With a live matrix and an entry in range, both checks pass and the command's own effect stands. -/
theorem exec_next_of_bmChecks {i : Instr} {r c : Half} {t : Mat → State} (hh : s.halted = false)
    (hx : exec i s = perform i s (resolveBm ha s >>= fun m => checkRC m r c >>= fun _ => .ok (t m)))
    (hm : LiveBm s ha m) (hr : r.toNat < m.rows.toNat) (hc : c.toNat < m.cols.toNat) : exec i s = .next (t m) := by
  rw [hx, perform_bind_ok (resolveBm_ok.mpr hm), perform_bind_ok (checkRC_ok hr hc), perform_ok hh]

/-- The command is a checked write of `b` to entry (r, c) of the matrix at `ha`, answered DONE, 0. -/
def WritesBmEntry (i : Instr) (s : State) (ha : Handle) (r c : Half) (b : Bool) : Prop :=
  exec i s = perform i s (resolveBm ha s >>= fun m => checkRC m r c >>= fun _ =>
    .ok (respond .done 0#32 (memWrite ha.toNat (flatIndex m r c) b s)))

theorem writesBmEntry_bmSet (s : State) (ha : Handle) (r c : Half) : WritesBmEntry (.bmSet ha r c) s ha r c true := rfl

theorem writesBmEntry_bmClear (s : State) (ha : Handle) (r c : Half) : WritesBmEntry (.bmClear ha r c) s ha r c false :=
  rfl

/-- Storage is canonical under the invariant, so the write changes the one bit and nothing else. -/
theorem WritesBmEntry.bitWritten {i : Instr} {r c : Half} {b : Bool} (hi : WritesBmEntry i s ha r c b)
    (hh : s.halted = false) (hs : s.inv = true) (hm : LiveBm s ha m) (hr : r.toNat < m.rows.toNat)
    (hc : c.toNat < m.cols.toNat) : ∃ t, exec i s = .next t ∧ BitWritten s t ha.toNat (flatIndex m r c) b := by
  have hx := exec_next_of_bmChecks hh hi hm hr hc
  obtain ⟨-, -, hobj⟩ := hm
  have hwf := State.obj_wf hs hobj
  rw [Object.wf, Bool.and_eq_true] at hwf
  exact ⟨_, hx, bitWritten_memWrite hobj hwf.1 _ b⟩

/-! ### The commands that only read (R153, R158, R159, R162, R163) -/

theorem exec_bmRows_ok (hh : s.halted = false) (hm : LiveBm s ha m) :
    exec (.bmRows ha) s = .next (s.answered .done (m.rows.setWidth 32)) :=
  (perform_bind_ok (i := .bmRows ha) (resolveBm_ok.mpr hm) _).trans (perform_ok hh)

theorem exec_bmCols_ok (hh : s.halted = false) (hm : LiveBm s ha m) :
    exec (.bmCols ha) s = .next (s.answered .done (m.cols.setWidth 32)) :=
  (perform_bind_ok (i := .bmCols ha) (resolveBm_ok.mpr hm) _).trans (perform_ok hh)

theorem exec_bmGet_ok {r c : Half} (hh : s.halted = false) (hm : LiveBm s ha m) (hr : r.toNat < m.rows.toNat)
    (hc : c.toNat < m.cols.toNat) :
    exec (.bmGet ha r c) s = .next (s.answered .done (if m.entry r.toNat c.toNat then 1#32 else 0#32)) := by
  rw [← ofBool_setWidth_word, ← hm.memRead_eq_entry]
  exact exec_next_of_bmChecks (i := .bmGet ha r c) hh rfl hm hr hc

/-- The byte of a row: column i in bit i (R159). -/
def Mat.packedRow (m : Mat) : Byte := packBits (m.entry 0) m.cols.toNat

theorem Mat.packedRow_getLsbD (hc : m.cols.toNat ≤ 8) (i : Nat) :
    m.packedRow.getLsbD i = (decide (i < m.cols.toNat) && m.entry 0 i) :=
  packBits_getLsbD _ hc i

theorem exec_bmToData_ok (hh : s.halted = false) (hm : LiveBm s ha m) (hr : m.rows.toNat = 1)
    (hc : m.cols.toNat ≤ 8) : exec (.bmToData ha) s = .next (s.answered .done (m.packedRow.setWidth 32)) := by
  rw [exec_bmToData_of_live hm, perform_bind_ok (checkPackable_ok hr hc), perform_ok hh]
  rfl

theorem exec_bmDump_ok (hh : s.halted = false) (hm : LiveBm s ha m) :
    exec (.bmDump ha) s = .next { s with out := dumps (.bmDump m.rows m.cols m.grid) (m.rows ++ m.cols) } :=
  (perform_bind_ok (i := .bmDump ha) (resolveBm_ok.mpr hm) _).trans (perform_ok hh)

end

/-- Counting row by row is counting straight through. -/
theorem flatMap_range_map_range {α : Type} (f : Nat → α) (R C : Nat) :
    ((List.range R).flatMap fun r => (List.range C).map fun c => f (r * C + c)) = (List.range (R * C)).map f := by
  induction R with
  | zero => simp
  | succ R ih =>
    rw [List.range_succ, List.flatMap_append, ih, Nat.succ_mul, List.range_add, List.map_append]
    simp

/-- A matrix's grid is its inner vector, bit by bit (R55, R162). -/
theorem Mat.grid_eq_map_readBit (m : Mat) :
    m.grid = (List.range (m.rows.toNat * m.cols.toNat)).map m.storage.readBit :=
  flatMap_range_map_range _ _ _

theorem Mat.grid_length (m : Mat) : m.grid.length = m.rows.toNat * m.cols.toNat := by
  rw [Mat.grid_eq_map_readBit, List.length_map, List.length_range]

theorem Mat.grid_getD (m : Mat) {r c : Nat} (hr : r < m.rows.toNat) (hc : c < m.cols.toNat) :
    m.grid.getD (r * m.cols.toNat + c) false = m.entry r c := by
  have hlt : r * m.cols.toNat + c < m.rows.toNat * m.cols.toNat := by
    calc r * m.cols.toNat + c < (r + 1) * m.cols.toNat := by rw [Nat.succ_mul]; omega
      _ ≤ m.rows.toNat * m.cols.toNat := Nat.mul_le_mul_right _ hr
  simp [Mat.grid_eq_map_readBit, hlt, Mat.entry]

/-! ### The commands that create a matrix (R151, R157, R160) -/

section
variable {i : Instr} {s t : State} {h : Nat} {o : Object}

/-- A command that ends in a create answers DONE with its object in place when there is room. -/
theorem created_of_room (hp : s.poolSized) (hx : exec i s = .next (create o s)) (hr : HasRoom s o.bits) :
    ∃ t h, exec i s = .next t ∧ Created s t h o := by
  obtain ⟨h, hc⟩ := create_created hp hr
  exact ⟨_, h, hx, hc⟩

/-- A command that ends in a create answers ABSENT with nothing changed when there is no room. -/
theorem absent_of_no_room (hx : exec i s = .next (create o s)) (hr : ¬ HasRoom s o.bits) :
    exec i s = .next (s.answered .absent 0#32) := by
  rw [hx, create_absent hr]
  rfl

theorem Created.halted_eq (hc : Created s t h o) : t.halted = s.halted := by
  obtain ⟨-, -, -, ⟨⟨-, -, hhalted, -⟩, -⟩, -⟩ := hc
  exact hhalted

/-- A create leaves every live matrix: the slot it takes was free. -/
theorem Created.liveBm_of_liveBm (hc : Created s t h o) {ha : Handle} {m : Mat} (hm : LiveBm s ha m) :
    LiveBm t ha m := by
  obtain ⟨⟨-, -, hfree, -⟩, -, -, ⟨⟨hcfg, -⟩, hslot⟩, -⟩ := hc
  obtain ⟨h0, hle, hobj⟩ := hm
  have hne : ha.toNat ≠ h := by
    rintro rfl
    rw [hfree] at hobj
    contradiction
  exact ⟨h0, hcfg ▸ hle, by rwa [State.obj, hslot _ hne]⟩

/-- Under the invariant NUM_HANDLES is at most 255 (R8), so the handle answered fits the handle field and names the new
matrix. -/
theorem Created.liveBm_new {m : Mat} (hc : Created s t h (.bm m)) (hs : s.inv = true) :
    LiveBm t (BitVec.ofNat 8 h) m := by
  obtain ⟨hlegal, -⟩ := State.inv_iff.mp hs
  simp only [Config.legal, Bool.and_eq_true, decide_eq_true_eq] at hlegal
  obtain ⟨⟨-, h255⟩, -⟩ := hlegal
  obtain ⟨⟨h1, hle, -⟩, hobj, -, ⟨⟨hcfg, -⟩, -⟩, -⟩ := hc
  have htoNat : (BitVec.ofNat 8 h).toNat = h := by rw [BitVec.toNat_ofNat, Nat.mod_eq_of_lt (by omega)]
  refine ⟨fun h0 => ?_, ?_, ?_⟩
  · have hzero : h = 0 := by rw [← htoNat, h0]; rfl
    omega
  · rwa [htoNat, hcfg]
  · rwa [htoNat]

end

theorem exec_bmCreate_ok {s : State} (r c : Half) (hh : s.halted = false) :
    exec (.bmCreate r c) s = .next (create (.bm (Mat.zero r c)) s) :=
  perform_ok (i := .bmCreate r c) hh

/-- The matrix that `BM_FROM_DATA` creates: the row of the low `n` bits of a byte (R157). -/
def Mat.ofByte (b8 : Byte) (n : Word) : Mat := Mat.ofEntries 1#16 (n.setWidth 16) (rowOfByte b8)

section
variable {s : State} {b8 : Byte} {n : Word} (hn : n.toNat ≤ 8)
include hn

theorem Mat.ofByte_cols : (Mat.ofByte b8 n).cols.toNat = n.toNat := by
  rw [Mat.ofByte, Mat.ofEntries, BitVec.toNat_setWidth, Nat.mod_eq_of_lt (by omega)]

theorem Mat.ofByte_bits : (Object.bm (Mat.ofByte b8 n)).bits = n.toNat := by
  rw [Object.bits, Mat.ofByte_cols hn]
  exact Nat.one_mul _

theorem Mat.ofByte_entry {i : Nat} (hi : i < n.toNat) : (Mat.ofByte b8 n).entry 0 i = b8.getLsbD i :=
  Mat.entry_ofEntries _ _ _ (by decide) ((Mat.ofByte_cols (b8 := b8) hn).symm ▸ hi)

theorem exec_bmFromData_ok (hh : s.halted = false) :
    exec (.bmFromData b8 n) s = .next (create (.bm (Mat.ofByte b8 n)) s) := by
  rw [exec, execBmFromData, if_neg (by omega)]
  exact perform_ok hh

/-- Packing the row of the low `n` bits gives those bits and 0 above them (R164). -/
theorem Mat.packedRow_ofByte : (Mat.ofByte b8 n).packedRow = b8 &&& BitVec.ofNat 8 (2 ^ n.toNat - 1) := by
  refine BitVec.eq_of_getLsbD_eq fun i hi => ?_
  rw [Mat.packedRow_getLsbD ((Mat.ofByte_cols hn).trans_le hn), Mat.ofByte_cols hn, BitVec.getLsbD_and,
    BitVec.getLsbD_ofNat, Nat.testBit_two_pow_sub_one]
  by_cases hin : i < n.toNat
  · simp [hin, hi, Mat.ofByte_entry hn hin]
  · simp [hin]

/-- `BM_FROM_DATA` of at most 8 bits, with room, leaves its row at the least free handle (R157). -/
theorem exec_bmFromData_created (hh : s.halted = false) (hp : s.poolSized) (hr : HasRoom s n.toNat) :
    ∃ t h, exec (.bmFromData b8 n) s = .next t ∧ Created s t h (.bm (Mat.ofByte b8 n)) :=
  created_of_room hp (exec_bmFromData_ok hn hh) (by rwa [Mat.ofByte_bits hn])

end

/-! ### The obligations -/

/-- Settles O34: the new matrix's storage is empty, and an unlisted byte reads as 0. -/
theorem bmCreateResult : Obligations.BmCreateResult := by
  refine fun s r c hh hp => ⟨fun hr => ?_, absent_of_no_room (exec_bmCreate_ok r c hh)⟩
  obtain ⟨t, h, hx, hc⟩ := created_of_room hp (exec_bmCreate_ok r c hh) hr
  exact ⟨t, h, Mat.zero r c, hx, hc, rfl, rfl, fun _ _ => Memory.readBit_nil _⟩

/-- Settles O36: both are a checked write of the entry's bit, and no other entry has its flat index. -/
theorem bmEntryWrites : Obligations.BmEntryWrites := by
  intro s ha r c hh i b hi
  have hw : WritesBmEntry i s ha r c b := by
    obtain ⟨rfl, rfl⟩ | ⟨rfl, rfl⟩ := hi
    · exact writesBmEntry_bmSet s ha r c
    · exact writesBmEntry_bmClear s ha r c
  refine ⟨fun m hs hm hr hc => ?_, bmAccessFaults_of_checks hh hw⟩
  obtain ⟨t, hx, hbit⟩ := hw.bitWritten hh hs hm hr hc
  obtain ⟨m', hm', hrows, hcols⟩ := hbit.liveBm hm
  exact ⟨t, hx, hbit, m', hm', hrows, hcols, fun _ _ _ hj => hbit.entry_eq hm hm' hcols hc hj⟩

/-- Settles O38: the length limit comes first, and within it the command is a create of the row. -/
theorem bmFromDataResult : Obligations.BmFromDataResult := by
  refine fun s b8 n hh hp => ⟨fun hn hr => ?_, fun hno => ?_⟩
  · obtain ⟨t, h, hx, hc⟩ := exec_bmFromData_created (b8 := b8) hn hh hp hr
    exact ⟨t, h, _, hx, hc, rfl, Mat.ofByte_cols hn, fun _ hi => Mat.ofByte_entry hn hi⟩
  · by_cases hn : n.toNat ≤ 8
    · have hr : ¬ HasRoom s n.toNat := hno.resolve_left (by omega)
      exact absent_of_no_room (exec_bmFromData_ok hn hh) (by rwa [Mat.ofByte_bits hn])
    · obtain ⟨-, -, -, -, -, -, -, hlong⟩ := checkOrder s hh
      exact hlong b8 n (by omega)

/-- Settles O39: the handle is checked before the shape, and past both the byte is the packed row. -/
theorem bmToDataResult : Obligations.BmToDataResult := fun _ _ hh =>
  ⟨fun m hm hr hc => ⟨m.packedRow, exec_bmToData_ok hh hm hr hc, Mat.packedRow_getLsbD hc⟩,
    fun _ hm hshape => takesFault_of_check hh (exec_bmToData_of_live hm) (checkPackable_error hshape),
    bmHandleFaults_of_resolve hh rfl⟩

/-- Settles O40: the row and its packing hold the same bits below n, and the packing is 0 above. -/
theorem packingRoundTrip : Obligations.PackingRoundTrip := by
  refine ⟨fun s b8 n hh hs hn hr => ?_, fun s ha m hh hs hm hrows hcols hr => ?_⟩
  · obtain ⟨-, hp, -⟩ := State.inv_iff.mp hs
    obtain ⟨t, h, hx, hc⟩ := exec_bmFromData_created (b8 := b8) hn hh hp hr
    have ⟨_, _, _, _, hout⟩ := hc
    refine ⟨t, h, hx, hout, ?_⟩
    rw [← Mat.packedRow_ofByte hn]
    exact exec_bmToData_ok (hc.halted_eq.trans hh) (hc.liveBm_new hs) rfl ((Mat.ofByte_cols hn).trans_le hn)
  · obtain ⟨-, hp, -⟩ := State.inv_iff.mp hs
    have hlen : (m.cols.setWidth 32).toNat = m.cols.toNat := by
      rw [BitVec.toNat_setWidth, Nat.mod_eq_of_lt (by omega)]
    have hn : (m.cols.setWidth 32).toNat ≤ 8 := hlen.trans_le hcols
    obtain ⟨t, h, hx, hc⟩ := exec_bmFromData_created (b8 := m.packedRow) hn hh hp (by rwa [hlen])
    refine ⟨m.packedRow, t, h, _, exec_bmToData_ok hh hm hrows hcols, hx, hc, BitVec.eq_of_toNat_eq hrows.symm,
      BitVec.eq_of_toNat_eq ((Mat.ofByte_cols hn).trans hlen), fun i hi => ?_⟩
    rw [Mat.ofByte_entry hn (hlen.symm ▸ hi), Mat.packedRow_getLsbD hcols, decide_eq_true hi, Bool.true_and]

/-- Settles O41: the checks in their order, and past them a create of the product, which leaves both operands. -/
theorem bmMultiplyResult : Obligations.BmMultiplyResult := by
  refine fun s ha hb hh hp => ⟨bmHandleFaults_of_resolve hh rfl, fun a hA => ?_⟩
  refine ⟨bmHandleFaults_of_resolve hh (exec_bmMultiply_of_left hA), fun b hB => ⟨fun hd => ?_, fun hd hr => ?_, ?_⟩⟩
  · exact takesFault_of_check hh (exec_bmMultiply_of_live hA hB) (checkDims_error hd)
  · obtain ⟨t, h, hx, hc⟩ := created_of_room hp (exec_bmMultiply_ok hh hA hB hd) hr
    refine ⟨t, h, a.product b, hx, hc, rfl, rfl, fun i j hi hj => ?_, hc.liveBm_of_liveBm hA, hc.liveBm_of_liveBm hB⟩
    rw [Mat.entry_product a b hi hj, mulEntry_eq_productEntry]
  · exact fun hd => absent_of_no_room (exec_bmMultiply_ok hh hA hB hd)

/-- Settles O43: the grid is the inner vector bit by bit, and each entry stands at its flat index. -/
theorem bmDumpResult : Obligations.BmDumpResult := fun _ _ hh =>
  ⟨fun m hm => ⟨m.grid, exec_bmDump_ok hh hm, m.grid_length, fun _ _ hr hc => m.grid_getD hr hc⟩,
    bmHandleFaults_of_resolve hh rfl⟩

/-- Settles O35: once the handle resolves, only the ports change. -/
theorem bmDimensionsResult : Obligations.BmDimensionsResult := fun _ _ hh =>
  ⟨fun _ hm => ⟨exec_bmRows_ok hh hm, exec_bmCols_ok hh hm⟩, bmHandleFaults_of_resolve hh rfl,
    bmHandleFaults_of_resolve hh rfl⟩

/-- Settles O37: once the handle and the entry are checked, only the ports change. -/
theorem bmGetResult : Obligations.BmGetResult := fun _ _ _ _ hh =>
  ⟨fun _ hm hr hc => exec_bmGet_ok hh hm hr hc, bmAccessFaults_of_checks hh rfl⟩

end Sys2Proof.Machine
end

section
/-! PROOFS. The statements of 42_hamming_codec.md: the syndrome table and the constant matrices as commands (R196 to
R198), the encoder (R200, R201), and the decoder on every codeword and error pattern (R202 to R207). -/

namespace Sys2Proof.Machine

/-! ### The syndrome table (R31, R32, R196) -/

section
variable (rom : Rom)

theorem Rom.synd_zero : rom.synd 0#4 = .noError := by
  obtain ⟨hzero, -⟩ := syndromeTableFollowsHt rom
  exact hzero

theorem Rom.synd_eq_flip_iff (y : Nibble) (k : Fin 8) : rom.synd y = .flip k ↔ printedHtRows.getD k.val 0#4 = y := by
  obtain ⟨-, hflip, -⟩ := syndromeTableFollowsHt rom
  exact hflip y k

theorem Rom.synd_eq_uncorrectable_iff (y : Nibble) : rom.synd y = .uncorrectable ↔ y ≠ 0#4 ∧ popcount y % 2 = 0 := by
  obtain ⟨-, -, huncorrectable, -⟩ := syndromeTableFollowsHt rom
  exact huncorrectable y

theorem Rom.synd_eq_noError_iff : ∀ y : Nibble, rom.synd y = .noError ↔ y = 0#4 := by
  cases rom
  decide

/-- A syndrome that is neither 0 nor a row of Ht is uncorrectable (R32). -/
theorem Rom.synd_of_not_mem_rows {y : Nibble} (h0 : y ≠ 0#4) (hrows : y ∉ printedHtRows) :
    rom.synd y = .uncorrectable := by
  cases he : rom.synd y with
  | uncorrectable => rfl
  | noError => exact absurd ((rom.synd_eq_noError_iff y).mp he) h0
  | flip k =>
    rw [Rom.synd_eq_flip_iff] at he
    have hmem : ∀ k : Fin 8, printedHtRows.getD k.val 0#4 ∈ printedHtRows := by decide
    exact absurd (he ▸ hmem k) hrows

theorem Rom.synd_code : ∀ y : Nibble, (rom.synd y).code.setWidth 32 = printedEntries.getD y.toNat 0#32 := by
  cases rom
  decide

end

/-- Two distinct rows of Ht differ in an even number of bits and at least one: each has an odd weight (R205). -/
theorem printedHtRows_xor : ∀ a b : Fin 8, a ≠ b →
    printedHtRows.getD a.val 0#4 ^^^ printedHtRows.getD b.val 0#4 ≠ 0#4 ∧
      popcount (printedHtRows.getD a.val 0#4 ^^^ printedHtRows.getD b.val 0#4) % 2 = 0 := by
  decide

/-! ### Low nibbles -/

theorem lowNibble_toNat (b : Byte) : (lowNibble b).toNat = b.toNat % 16 := by
  simp [lowNibble, BitVec.extractLsb'_toNat]

theorem lowNibble_xor (a b : Byte) : lowNibble (a ^^^ b) = lowNibble a ^^^ lowNibble b := BitVec.extractLsb'_xor

@[simp] theorem lowNibble_setWidth (m : Nibble) : lowNibble (m.setWidth 8) = m := by
  refine BitVec.eq_of_getLsbD_eq fun i hi => ?_
  simp [lowNibble, hi, show i < 8 by omega]

theorem lowNibble_setWidth_word (c : Byte) : (lowNibble c).setWidth 32 = (c &&& 0x0F#8).setWidth 32 := by
  refine BitVec.eq_of_toNat_eq ?_
  rw [BitVec.toNat_setWidth, BitVec.toNat_setWidth, lowNibble_toNat, BitVec.toNat_and]
  exact congrArg (· % 2 ^ 32) (Nat.and_two_pow_sub_one_eq_mod c.toNat 4).symm

/-! ### The encoder (R200, R201) -/

theorem rowOfByte_xor (a b : Byte) : rowOfByte (a ^^^ b) = fun r c => rowOfByte a r c ^^ rowOfByte b r c := by
  funext r c
  exact BitVec.getLsbD_xor

section
variable (rom : Rom)

/-- The encoder is systematic (R201). -/
@[simp] theorem lowNibble_encodeFn (b : Byte) : lowNibble (encodeFn rom b) = lowNibble b := by
  refine BitVec.eq_of_getLsbD_eq fun i hi => ?_
  simp [lowNibble, hi, encodeFn_getLsbD_message rom b hi]

/-- The encoder reads the low nibble only (R200). -/
theorem encodeFn_eq_printedCodeword (b : Byte) : encodeFn rom b = printedCodeword (lowNibble b) := by
  obtain ⟨hprinted, -⟩ := codecClosedForms rom
  exact hprinted b

theorem encodeFn_xor (a b : Byte) : encodeFn rom (a ^^^ b) = encodeFn rom a ^^^ encodeFn rom b := by
  refine BitVec.eq_of_getLsbD_eq fun i hi => ?_
  simp only [BitVec.getLsbD_xor, encodeFn, packBits_getLsbD _ le_rfl, hi, decide_true, Bool.true_and,
    rowOfByte_xor, mulEntry_xor_left]

theorem syndromeFn_xor (a b : Byte) : syndromeFn rom (a ^^^ b) = syndromeFn rom a ^^^ syndromeFn rom b := by
  refine BitVec.eq_of_getLsbD_eq fun i hi => ?_
  simp only [BitVec.getLsbD_xor, syndromeFn, BitVec.getLsbD_setWidth, packBits_getLsbD _ (show 4 ≤ 8 by decide), hi,
    decide_true, Bool.true_and, rowOfByte_xor, mulEntry_xor_left]

/-- A codeword has syndrome 0: each parity bit stands in it twice (R201). -/
theorem syndromeFn_encodeFn (b : Byte) : syndromeFn rom (encodeFn rom b) = 0#4 := by
  have hlow : (encodeFn rom b).extractLsb' 0 4 = b.extractLsb' 0 4 := lowNibble_encodeFn rom b
  refine BitVec.eq_of_getLsbD_eq fun j hj => ?_
  rw [syndromeFn_getLsbD rom _ hj, encodeFn_getLsbD_message rom b hj, encodeFn_getLsbD_parity rom b hj, hlow,
    Bool.xor_self, BitVec.getLsbD_zero]

/-- A byte with syndrome 0 is the codeword of its low nibble: its parity bits are those the encoder gives (R201). -/
theorem encodeFn_of_syndromeFn_eq_zero {c : Byte} (hc : syndromeFn rom c = 0#4) : encodeFn rom c = c := by
  refine BitVec.eq_of_getLsbD_eq fun i hi => ?_
  by_cases h : i < 4
  · exact encodeFn_getLsbD_message rom c h
  · obtain ⟨j, rfl⟩ : ∃ j, i = 4 + j := ⟨i - 4, by omega⟩
    have hj : j < 4 := by omega
    have hbit := syndromeFn_getLsbD rom c hj
    rw [hc, BitVec.getLsbD_zero] at hbit
    rw [encodeFn_getLsbD_parity rom c hj]
    exact bne_eq_false_iff_eq.mp hbit.symm

/-- The codeword of a message. -/
def codeword (m : Nibble) : Byte := encodeFn rom (m.setWidth 8)

@[simp] theorem lowNibble_codeword (m : Nibble) : lowNibble (codeword rom m) = m := by simp [codeword]

theorem syndromeFn_codeword (m : Nibble) : syndromeFn rom (codeword rom m) = 0#4 := syndromeFn_encodeFn rom _

theorem codeword_eq_printedCodeword (m : Nibble) : codeword rom m = printedCodeword m := by
  rw [codeword, encodeFn_eq_printedCodeword, lowNibble_setWidth]

theorem codeword_lowNibble_of_syndromeFn_eq_zero {c : Byte} (hc : syndromeFn rom c = 0#4) :
    codeword rom (lowNibble c) = c := by
  calc codeword rom (lowNibble c) = printedCodeword (lowNibble c) := codeword_eq_printedCodeword rom _
    _ = encodeFn rom c := (encodeFn_eq_printedCodeword rom c).symm
    _ = c := encodeFn_of_syndromeFn_eq_zero rom hc

theorem codeword_xor (m m' : Nibble) : codeword rom m ^^^ codeword rom m' = codeword rom (m ^^^ m') := by
  rw [codeword, codeword, codeword, ← encodeFn_xor, BitVec.setWidth_xor]

theorem codeword_injective : Function.Injective (codeword rom) :=
  Function.LeftInverse.injective (lowNibble_codeword rom)

/-- The weights of the 16 codewords (R201). -/
theorem popcount_codeword (m : Nibble) :
    codeword rom m = 0#8 ∨ popcount (codeword rom m) = 4 ∨ codeword rom m = 0xFF#8 := by
  have hprinted : ∀ m : Nibble,
      printedCodeword m = 0#8 ∨ popcount (printedCodeword m) = 4 ∨ printedCodeword m = 0xFF#8 := by decide
  rw [codeword_eq_printedCodeword]
  exact hprinted m

/-- Two codewords differ in a codeword, so in at least four bits (R201). -/
theorem codeword_distance {m m' : Nibble} (hne : m ≠ m') : 4 ≤ popcount (codeword rom m ^^^ codeword rom m') := by
  have hxor : codeword rom m ^^^ codeword rom m' ≠ 0#8 :=
    fun h => hne (codeword_injective rom (BitVec.xor_eq_zero_iff.mp h))
  rw [codeword_xor] at hxor ⊢
  obtain h | h | h := popcount_codeword rom (m ^^^ m')
  · exact absurd h hxor
  · exact h.ge
  · rw [h]
    decide

/-! ### Error patterns (R203, R205) -/

/-- The syndrome of a received byte is that of its error pattern. -/
theorem syndromeFn_codeword_xor (m : Nibble) (e : Byte) : syndromeFn rom (codeword rom m ^^^ e) = syndromeFn rom e := by
  rw [syndromeFn_xor, syndromeFn_codeword, BitVec.zero_xor]

/-- The syndrome of one flipped bit is its row of Ht. -/
theorem syndromeFn_bit (k : Fin 8) : syndromeFn rom (1#8 <<< k.val) = printedHtRows.getD k.val 0#4 := by
  have hclosed : ∀ k : Fin 8, closedSyndrome (1#8 <<< k.val) = printedHtRows.getD k.val 0#4 := by decide
  rw [syndromeFn_eq_closedSyndrome, hclosed]

end

/-! ### The decoder (R202) -/

section
variable (rom : Rom) {c : Byte} (mi : Nibble)

theorem decodeFn_of_syndrome_zero (hc : syndromeFn rom c = 0#4) : decodeFn rom c mi = (.ok, lowNibble c) := by
  rw [decodeFn, hc, Rom.synd_zero]

theorem decodeFn_of_syndrome_row {k : Fin 8} (hc : syndromeFn rom c = printedHtRows.getD k.val 0#4) :
    decodeFn rom c mi = (.corrected, lowNibble (c ^^^ (1#8 <<< k.val))) := by
  rw [decodeFn, (rom.synd_eq_flip_iff _ k).mpr hc.symm]

theorem decodeFn_of_uncorrectable (hc : rom.synd (syndromeFn rom c) = .uncorrectable) :
    decodeFn rom c mi = (.uncorrectable, mi) := by
  rw [decodeFn, hc]

/-- The decoder commutes with adding a codeword: its outcome is that of the error pattern alone, and its message moves
by the message sent. -/
theorem decodeFn_codeword_xor (m : Nibble) (e : Byte) : decodeFn rom (codeword rom m ^^^ e) (m ^^^ mi) =
    ((decodeFn rom e mi).1, m ^^^ (decodeFn rom e mi).2) := by
  simp only [decodeFn, syndromeFn_codeword_xor]
  cases rom.synd (syndromeFn rom e) with
  | noError => simp [lowNibble_xor]
  | flip k => simp [lowNibble_xor, BitVec.xor_assoc]
  | uncorrectable => rfl

theorem decodeFn_ok_iff : (decodeFn rom c mi).1 = .ok ↔ syndromeFn rom c = 0#4 := by
  rw [← rom.synd_eq_noError_iff, decodeFn]
  cases rom.synd (syndromeFn rom c) <;> simp

theorem decodeFn_corrected_iff :
    (decodeFn rom c mi).1 = .corrected ↔ ∃ k : Fin 8, syndromeFn rom c = printedHtRows.getD k.val 0#4 := by
  simp only [eq_comm (a := syndromeFn rom c), ← rom.synd_eq_flip_iff, decodeFn]
  cases rom.synd (syndromeFn rom c) <;> simp

theorem decodeFn_uncorrectable_iff :
    (decodeFn rom c mi).1 = .uncorrectable ↔ syndromeFn rom c ≠ 0#4 ∧ popcount (syndromeFn rom c) % 2 = 0 := by
  rw [← rom.synd_eq_uncorrectable_iff, decodeFn]
  cases rom.synd (syndromeFn rom c) <;> simp

end

/-! ### The VALUE of `HC_DECODE` (R85, R102) -/

theorem DecodeOutcome.code_inj {a b : DecodeOutcome} : a.code = b.code ↔ a = b := by
  cases a <;> cases b <;> decide

theorem decodeValue_eq_or (oc : DecodeOutcome) (msg : Nibble) :
    decodeValue oc msg = (oc.code.setWidth 32 <<< 8) ||| msg.setWidth 32 := by
  revert msg
  cases oc <;> decide

theorem decodeValue_outcome (oc : DecodeOutcome) (msg : Nibble) : (decodeValue oc msg).extractLsb' 8 2 = oc.code := by
  revert msg
  cases oc <;> decide

theorem decodeValue_message (oc : DecodeOutcome) (msg : Nibble) : (decodeValue oc msg).extractLsb' 0 4 = msg := by
  revert msg
  cases oc <;> decide

/-- A message-in of at most 15 is its own low four bits. -/
theorem setWidth_setWidth_of_lt {mi : Word} (hm : mi.toNat < 16) : (mi.setWidth 4).setWidth 32 = mi := by
  refine BitVec.eq_of_toNat_eq ?_
  rw [BitVec.toNat_setWidth, BitVec.toNat_setWidth]
  omega

section
variable {s : State} {c : Byte} {mi : Word} (hh : s.halted = false) (hm : mi.toNat < 16)
include hh hm

theorem exec_hcDecode_of_decodeFn {oc : DecodeOutcome} {msg : Nibble}
    (hd : decodeFn s.rom c (mi.setWidth 4) = (oc, msg)) :
    exec (.hcDecode c mi) s = .next (s.answered .done ((oc.code.setWidth 32 <<< 8) ||| msg.setWidth 32)) := by
  rw [exec_hcDecode_ok c hh hm, hd, decodeValue_eq_or]
  rfl

theorem exec_hcDecode_of_syndrome_zero (hc : syndromeFn s.rom c = 0#4) :
    exec (.hcDecode c mi) s = .next (s.answered .done ((lowNibble c).setWidth 32)) := by
  rw [exec_hcDecode_of_decodeFn hh hm (decodeFn_of_syndrome_zero s.rom _ hc)]
  simp [DecodeOutcome.code]

theorem exec_hcDecode_of_syndrome_row {k : Fin 8} (hc : syndromeFn s.rom c = printedHtRows.getD k.val 0#4) :
    exec (.hcDecode c mi) s =
      .next (s.answered .done (0x100#32 ||| (lowNibble (c ^^^ (1#8 <<< k.val))).setWidth 32)) := by
  rw [exec_hcDecode_of_decodeFn hh hm (decodeFn_of_syndrome_row s.rom _ hc)]
  rfl

theorem exec_hcDecode_of_uncorrectable (hc : s.rom.synd (syndromeFn s.rom c) = .uncorrectable) :
    exec (.hcDecode c mi) s = .next (s.answered .done (0x200#32 ||| mi)) := by
  rw [exec_hcDecode_of_decodeFn hh hm (decodeFn_of_uncorrectable s.rom _ hc), setWidth_setWidth_of_lt hm]
  rfl

end

/-! ### The constant matrices (R197, R198) -/

/-- The pool copy of G. -/
def Mat.ofG (rom : Rom) : Mat := Mat.ofEntries 4#16 8#16 rom.g

/-- The pool copy of Ht. -/
def Mat.ofHt (rom : Rom) : Mat := Mat.ofEntries 8#16 4#16 rom.ht

theorem Mat.isG_ofG (rom : Rom) : IsG (Mat.ofG rom) := ⟨rfl, rfl, fun _ _ hi hj => Mat.entry_ofEntries _ _ _ hi hj⟩

theorem Mat.isHt_ofHt (rom : Rom) : IsHt (Mat.ofHt rom) := ⟨rfl, rfl, fun _ _ hi hj => Mat.entry_ofEntries _ _ _ hi hj⟩

theorem exec_hcLoadG_ok {s : State} (hh : s.halted = false) :
    exec .hcLoadG s = .next (create (.bm (Mat.ofG s.rom)) s) := perform_ok (i := .hcLoadG) hh

theorem exec_hcLoadHt_ok {s : State} (hh : s.halted = false) :
    exec .hcLoadHt s = .next (create (.bm (Mat.ofHt s.rom)) s) := perform_ok (i := .hcLoadHt) hh

/-! ### Counting outcomes (R206, R207) -/

theorem hcDecodeAnswer_eq {s : State} (hh : s.halted = false) (c : Byte) (mi : Nibble) :
    hcDecodeAnswer s c mi = some ((decodeFn s.rom c mi).1.code, (decodeFn s.rom c mi).2) := by
  have hm : (mi.setWidth 32).toNat < 16 := by
    rw [BitVec.toNat_setWidth]
    omega
  have hmi : (mi.setWidth 32).setWidth 4 = mi := by simp
  rw [hcDecodeAnswer, exec_hcDecode_ok c hh hm, hmi]
  simp only [respond_response, decodeValue_outcome, decodeValue_message]

theorem hcDecodeAnswer_outcome_iff {s : State} (hh : s.halted = false) (c : Byte) (mi : Nibble) (oc : DecodeOutcome) :
    (hcDecodeAnswer s c mi).map Prod.fst = some oc.code ↔ (decodeFn s.rom c mi).1 = oc := by
  rw [hcDecodeAnswer_eq hh, Option.map_some, Option.some.injEq, DecodeOutcome.code_inj]

/-- A byte is at one flipped bit from exactly one codeword when its syndrome is a row of Ht (R207). -/
theorem existsUnique_codeword_iff (rom : Rom) (c : Byte) :
    (∃! m, ∃ k : Fin 8, c = codeword rom m ^^^ (1#8 <<< k.val)) ↔
      ∃ k : Fin 8, syndromeFn rom c = printedHtRows.getD k.val 0#4 := by
  have hsyndrome {m : Nibble} {k : Fin 8} (h : c = codeword rom m ^^^ (1#8 <<< k.val)) :
      syndromeFn rom c = printedHtRows.getD k.val 0#4 := by
    rw [h, syndromeFn_codeword_xor, syndromeFn_bit]
  constructor
  · rintro ⟨m, ⟨k, hk⟩, -⟩
    exact ⟨k, hsyndrome hk⟩
  · rintro ⟨k, hk⟩
    have hzero : syndromeFn rom (c ^^^ (1#8 <<< k.val)) = 0#4 := by
      rw [syndromeFn_xor, syndromeFn_bit, hk, BitVec.xor_self]
    refine ⟨lowNibble (c ^^^ (1#8 <<< k.val)), ⟨k, ?_⟩, ?_⟩
    · rw [codeword_lowNibble_of_syndromeFn_eq_zero rom hzero, BitVec.xor_assoc, BitVec.xor_self, BitVec.xor_zero]
    · rintro m ⟨k', hk'⟩
      have hkk : k' = k := by
        by_contra hne
        obtain ⟨hrows, -⟩ := printedHtRows_xor k' k hne
        exact hrows (BitVec.xor_eq_zero_iff.mpr ((hsyndrome hk').symm.trans hk))
      rw [hk', hkk, BitVec.xor_assoc, BitVec.xor_self, BitVec.xor_zero, lowNibble_codeword]

/-- The relation of a message that came out to the one sent and to MI does not change when a codeword is added: the
message that comes out and MI, the complement of the message sent, both move by the message sent. -/
def MovesWithMessage (msg : Nibble → Nibble → Nibble → Bool) : Prop :=
  ∀ m x : Nibble, msg m (~~~ m) (m ^^^ x) = msg 0#4 (~~~ 0#4) x

theorem movesWithMessage_right : MovesWithMessage rightMessage := by unfold MovesWithMessage; decide
theorem movesWithMessage_wrong : MovesWithMessage wrongMessage := by unfold MovesWithMessage; decide
theorem movesWithMessage_retained : MovesWithMessage retainedMessage := by unfold MovesWithMessage; decide

/-- The error pattern `e` has weight `w`, and with message 0 sent the outcome `oc` and a message in the relation
`msg`. -/
def patternMatches (rom : Rom) (w : Nat) (oc : BitVec 2) (msg : Nibble → Nibble → Nibble → Bool) (e : Byte) : Bool :=
  decide (popcount e = w) && (decide ((decodeFn rom e (~~~ 0#4)).1.code = oc) &&
    msg 0#4 (~~~ 0#4) (decodeFn rom e (~~~ 0#4)).2)

/-- How many of the 256 error patterns match. -/
def patternCount (rom : Rom) (w : Nat) (oc : BitVec 2) (msg : Nibble → Nibble → Nibble → Bool) : Nat :=
  ((List.range 256).filter fun n => patternMatches rom w oc msg (BitVec.ofNat 8 n)).length

/-- What holds of a quotient by `a` holds `a` times for each value. -/
theorem length_filter_range_div (p : Nat → Bool) {a : Nat} (ha : 0 < a) (n : Nat) :
    ((List.range (a * n)).filter fun k => p (k / a)).length = a * ((List.range n).filter p).length := by
  induction n with
  | zero => rfl
  | succ n ih =>
    have hlast : ((List.range a).map (a * n + ·)).filter (fun k => p (k / a)) =
        if p n then (List.range a).map (a * n + ·) else [] := by
      have hdiv : ∀ k ∈ (List.range a).map (a * n + ·), p (k / a) = p n := by
        intro k hk
        obtain ⟨i, hi, rfl⟩ := List.mem_map.mp hk
        rw [Nat.mul_add_div ha, Nat.div_eq_of_lt (List.mem_range.mp hi), Nat.add_zero]
      rw [List.filter_congr hdiv]
      cases p n <;> simp
    rw [Nat.mul_succ, List.range_add, List.filter_append, hlast, List.length_append, ih, List.range_succ,
      List.filter_append, List.length_append]
    cases hp : p n <;> simp [hp, Nat.mul_add]

/-- Every error pattern does the same to each of the 16 messages. -/
theorem weightCount_eq {s : State} (hh : s.halted = false) (w : Nat) (oc : BitVec 2)
    {msg : Nibble → Nibble → Nibble → Bool} (hmsg : MovesWithMessage msg) :
    weightCount s w oc msg = 16 * patternCount s.rom w oc msg := by
  rw [patternCount, ← length_filter_range_div _ (by decide)]
  refine congrArg List.length (List.filter_congr fun n _ => ?_)
  have hmi : ~~~ BitVec.ofNat 4 n = BitVec.ofNat 4 n ^^^ ~~~ 0#4 := (BitVec.xor_allOnes).symm
  simp only [hcDecodeAnswer_eq hh, ← codeword_eq_printedCodeword s.rom, patternMatches]
  rw [← hmsg (BitVec.ofNat 4 n), hmi, decodeFn_codeword_xor]

/-- The error patterns of each weight, by outcome. -/
theorem patternCount_table (rom : Rom) :
    patternCount rom 0 0b00#2 rightMessage = 1 ∧ patternCount rom 1 0b01#2 rightMessage = 8 ∧
    patternCount rom 2 0b10#2 retainedMessage = 28 ∧ patternCount rom 3 0b01#2 wrongMessage = 56 ∧
    patternCount rom 4 0b10#2 retainedMessage = 56 ∧ patternCount rom 4 0b00#2 wrongMessage = 14 ∧
    patternCount rom 5 0b01#2 wrongMessage = 56 ∧ patternCount rom 6 0b10#2 retainedMessage = 28 ∧
    patternCount rom 7 0b01#2 wrongMessage = 8 ∧ patternCount rom 8 0b00#2 wrongMessage = 1 := by
  cases rom
  decide

/-- Each nonzero syndrome of even weight has 16 bytes (R207). -/
theorem length_filter_closedSyndrome : ∀ y : Nibble, y ≠ 0#4 → popcount y % 2 = 0 →
    ((List.range 256).filter fun n => decide (closedSyndrome (BitVec.ofNat 8 n) = y)).length = 16 := by
  decide

/-! ### The obligations -/

/-- Settles O45: the checked value is its own low nibble, and the table's codes are the printed entries. -/
theorem syndLookupResult : Obligations.SyndLookupResult := by
  obtain ⟨-, hreserved, -⟩ := reservedBitFaults
  refine fun s b8 hh => ⟨fun hb => ?_, hreserved s b8 hh⟩
  rw [exec_syndLookup_ok hh hb, Rom.synd_code, lowNibble_toNat, Nat.mod_eq_of_lt hb]
  rfl

/-- Settles O47: both loads are a create of the constant matrix, whose 32 bits need the room. -/
theorem loadConstantsResult : Obligations.LoadConstantsResult := by
  refine fun s hh hp => ⟨fun hr => ?_, fun hr => ?_, absent_of_no_room (exec_hcLoadG_ok hh),
    absent_of_no_room (exec_hcLoadHt_ok hh)⟩
  · obtain ⟨t, h, hx, hc⟩ := created_of_room hp (exec_hcLoadG_ok hh) hr
    exact ⟨t, h, _, hx, hc, Mat.isG_ofG s.rom⟩
  · obtain ⟨t, h, hx, hc⟩ := created_of_room hp (exec_hcLoadHt_ok hh) hr
    exact ⟨t, h, _, hx, hc, Mat.isHt_ofHt s.rom⟩

/-- Settles O48: the product with G is the printed codeword of the low nibble. -/
theorem hcEncodeResult : Obligations.HcEncodeResult := by
  intro s b8 hh
  rw [exec_hcEncode_ok b8 hh, encodeFn_eq_printedCodeword]
  rfl

/-- Settles O49: the table's entry at the syndrome chooses among the three answers. -/
theorem hcDecodeResult : Obligations.HcDecodeResult := by
  obtain ⟨-, -, hreserved, -⟩ := reservedBitFaults
  refine fun s c mi hh => ⟨fun hm => ?_, hreserved s c mi hh⟩
  rw [← syndromeFn_eq_closedSyndrome s.rom]
  refine ⟨fun hc => ?_, fun k hc => ?_, fun h0 hrows => ?_⟩
  · rw [exec_hcDecode_of_syndrome_zero hh hm hc, lowNibble_setWidth_word]
  · rw [exec_hcDecode_of_syndrome_row hh hm hc, lowNibble_setWidth_word]
  · exact exec_hcDecode_of_uncorrectable hh hm (s.rom.synd_of_not_mem_rows h0 hrows)

/-- Settles O52: the codeword has syndrome 0 and the message in its low nibble. -/
theorem decodeOfEncodedMessage : Obligations.DecodeOfEncodedMessage := by
  intro s m mi hh hm
  have hdecode := exec_hcDecode_of_syndrome_zero (s := respond .done ((codeword s.rom m).setWidth 32) s) hh hm
    (syndromeFn_codeword s.rom m)
  rw [lowNibble_codeword] at hdecode
  exact ⟨_, codeword s.rom m, exec_hcEncode_ok _ hh, rfl, hdecode⟩

/-- Settles O53: the syndrome is that of the flipped bit, and flipping it again restores the codeword. -/
theorem singleErrorIsCorrected : Obligations.SingleErrorIsCorrected := by
  intro s m k mi hh hm r
  have hrow : syndromeFn s.rom r = printedHtRows.getD k.val 0#4 :=
    (syndromeFn_codeword_xor s.rom m _).trans (syndromeFn_bit s.rom k)
  have hrestored : lowNibble (r ^^^ (1#8 <<< k.val)) = m := by
    change lowNibble (codeword s.rom m ^^^ (1#8 <<< k.val) ^^^ (1#8 <<< k.val)) = m
    rw [BitVec.xor_assoc, BitVec.xor_self, BitVec.xor_zero, lowNibble_codeword]
  refine ⟨?_, hrow, (s.rom.synd_eq_flip_iff _ k).mpr hrow.symm⟩
  rw [exec_hcDecode_of_syndrome_row hh hm hrow, hrestored]

/-- Settles O54: the syndrome is the exclusive-or of two distinct rows of Ht, each of odd weight. -/
theorem doubleErrorIsDetected : Obligations.DoubleErrorIsDetected := by
  intro s m a b mi hh hm hab r
  have hrows : syndromeFn s.rom r = printedHtRows.getD a.val 0#4 ^^^ printedHtRows.getD b.val 0#4 := by
    rw [syndromeFn_xor, syndromeFn_bit, ← syndromeFn_bit s.rom a]
    exact congrArg (· ^^^ _) (syndromeFn_codeword_xor s.rom m _)
  obtain ⟨hne, heven⟩ := printedHtRows_xor a b hab
  rw [← hrows] at hne heven
  have hentry : s.rom.synd (syndromeFn s.rom r) = .uncorrectable := (s.rom.synd_eq_uncorrectable_iff _).mpr ⟨hne, heven⟩
  exact ⟨exec_hcDecode_of_uncorrectable hh hm hentry, hrows, hne, heven, hentry⟩

/-- Settles O55: the counts over error patterns alone, 16 times, and the outcome as a function of the syndrome. -/
theorem decoderOutcomeCounts : Obligations.DecoderOutcomeCounts := by
  intro s hh
  refine ⟨?_, fun c mi => ?_, fun c mi => ?_, fun c mi => ?_, length_filter_closedSyndrome⟩
  · obtain ⟨h0, h1, h2, h3, h4, h4', h5, h6, h7, h8⟩ := patternCount_table s.rom
    simp [weightCount_eq hh, movesWithMessage_right, movesWithMessage_wrong, movesWithMessage_retained,
      h0, h1, h2, h3, h4, h4', h5, h6, h7, h8]
  · rw [← closedSyndrome_eq_zero_iff, ← syndromeFn_eq_closedSyndrome s.rom, ← decodeFn_ok_iff s.rom mi]
    exact hcDecodeAnswer_outcome_iff hh c mi .ok
  · simp only [← codeword_eq_printedCodeword s.rom]
    rw [existsUnique_codeword_iff, ← decodeFn_corrected_iff s.rom mi]
    exact hcDecodeAnswer_outcome_iff hh c mi .corrected
  · rw [← syndromeFn_eq_closedSyndrome s.rom, ← decodeFn_uncorrectable_iff s.rom mi]
    exact hcDecodeAnswer_outcome_iff hh c mi .uncorrectable

/-- Settles O51: the codewords are the bytes with syndrome 0, and the sum of two is one. -/
theorem encoderLaws : Obligations.EncoderLaws := fun rom =>
  ⟨fun m => ⟨lowNibble_codeword rom m, syndromeFn_codeword rom m⟩,
    fun c hc => ⟨lowNibble c, codeword_lowNibble_of_syndromeFn_eq_zero rom hc⟩,
    fun _ _ hne => ⟨(codeword_injective rom).ne hne, codeword_distance rom hne⟩, popcount_codeword rom⟩

end Sys2Proof.Machine
end

section
/-! PROOFS. The statements of 60_exceptions.md: what a fault changes (R236, R237), the halted block (R238), ABSENT (R231),
and the host's two drivers end to end (R255 to R261). -/

namespace Sys2Proof.Machine

/-! ### A command that faults (R236) -/

/-- Of all that a command can do, only a fault answers FAULT: a create, a write and a delete answer DONE or ABSENT. -/
theorem Effect.eq_raiseFault {i : Instr} {s t : State} {v : Word} (he : Effect i s t)
    (hout : t.out.response = some { status := .fault, value := v }) : ∃ c, t = raiseFault c (encode i) s := by
  cases he with
  | faulted c => exact ⟨c, rfl⟩
  | answered o ho =>
    have hfault : o.response = some { status := .fault, value := v } := hout
    simp [hfault] at ho
  | created o hw => obtain ⟨-, hc⟩ | ⟨-, h, -, hc⟩ := create_cases o s <;> simp [hc] at hout
  | wrote h o n b ho hn => simp at hout
  | freed h o ho => simp at hout

/-! ### The halted block (R238) -/

/-- Every command looks at the halt first. -/
theorem exec_halted {s : State} (hh : s.halted = true) (i : Instr) : exec i s = .fault .halted := by
  cases i <;> exact if_pos hh

/-- The only step of a halted block, reset apart, is a read of the status port. -/
theorem step_halted_next {s t : State} (hh : s.halted = true) (hr : NotReset s) (hst : step s = .next t) :
    ∃ n es, t = hostReadStatus n (s.withInbox es) := by
  cases step_effect hst with
  | readStatus n es hi => exact ⟨n, es, rfl⟩
  | reset es hi => exact absurd hi (hr es)
  | idle hi h0 => simp [hh] at h0
  | noCommand w a b es e hi h0 hd => simp [hh] at h0
  | command w a b es i t hi h0 hd hx he => simp [hh] at h0

/-! ### ABSENT (R231) -/

theorem exec_bvCreate_ok {s : State} (n : Word) (hh : s.halted = false) :
    exec (.bvCreate n) s = .next (create (.bv (Vec.zero n)) s) :=
  perform_ok (i := .bvCreate n) hh

/-- `BM_FROM_DATA` with a length above 8, or with no room for its row (R157). -/
theorem exec_bmFromData_absent {s : State} {b8 : Byte} {n : Word} (hh : s.halted = false)
    (hno : 8 < n.toNat ∨ ¬ HasRoom s n.toNat) : exec (.bmFromData b8 n) s = .next (s.answered .absent 0#32) := by
  by_cases hn : n.toNat ≤ 8
  · have hr : ¬ HasRoom s n.toNat := hno.resolve_left (by omega)
    exact absent_of_no_room (exec_bmFromData_ok hn hh) (by rwa [Mat.ofByte_bits hn])
  · obtain ⟨-, -, -, -, -, -, -, hlong⟩ := checkOrder s hh
    exact hlong b8 n (by omega)

/-- The state's answer is ABSENT. -/
def AnswersAbsent (t : State) : Prop := ∃ v, t.out.response = some { status := .absent, value := v }

theorem not_answersAbsent_respond_done (v : Word) (s : State) : ¬ AnswersAbsent (respond .done v s) := by
  simp [AnswersAbsent]

theorem not_answersAbsent_respondDump (d : DiagRecord) (v : Word) (s : State) : ¬ AnswersAbsent (respondDump d v s) := by
  simp [AnswersAbsent]

theorem AnswersAbsent.no_room {o : Object} {s : State} (ha : AnswersAbsent (create o s)) : ¬ HasRoom s o.bits := by
  obtain ⟨hr, -⟩ | ⟨-, h, -, hc⟩ := create_cases o s
  · exact hr
  · rw [hc] at ha
    exact absurd ha (not_answersAbsent_respond_done _ _)

/-- A command that ends in a create answers ABSENT only for want of room. -/
theorem AnswersAbsent.no_room_of_exec {i : Instr} {o : Object} {s t : State} (ha : AnswersAbsent t)
    (hx : exec i s = .next t) (hc : exec i s = .next (create o s)) : ¬ HasRoom s o.bits := by
  obtain rfl : t = create o s := by simpa [hx] using hc
  exact ha.no_room

/-- The checks and the effect of a command never end in ABSENT. -/
def NeverAbsent (body : Except FaultCode State) : Prop := ∀ t, body = .ok t → ¬ AnswersAbsent t

theorem neverAbsent_ok {u : State} (hu : ¬ AnswersAbsent u) : NeverAbsent (.ok u) := by
  rintro _ ⟨⟩
  exact hu

theorem neverAbsent_bind {α : Type} {check : Except FaultCode α} {body : α → Except FaultCode State}
    (hb : ∀ x, NeverAbsent (body x)) : NeverAbsent (check >>= body) := by
  intro t ht
  obtain ⟨x, -, hx⟩ := bind_ok_eq ht
  exact hb x t hx

theorem neverAbsent_ite {p : Prop} [Decidable p] {b b' : Except FaultCode State} (hb : NeverAbsent b)
    (hb' : NeverAbsent b') : NeverAbsent (if p then b else b') := by
  split_ifs
  · exact hb
  · exact hb'

/-- A command that answers ABSENT has passed its checks: a check that fails answers FAULT. -/
theorem AnswersAbsent.body_ok {i : Instr} {s t : State} {body : Except FaultCode State} (ha : AnswersAbsent t)
    (hx : perform i s body = .next t) : body = .ok t := by
  obtain ⟨-, hok | ⟨c, -, rfl⟩⟩ := perform_next hx
  · exact hok
  · simp [AnswersAbsent] at ha

/-- What ABSENT can be for: the command is one of the six that create, and its length is above 8 or there is no room. -/
inductive AbsentCause (s : State) : Instr → Prop where
  | bvCreate (n : Word) (hr : ¬ HasRoom s n.toNat) : AbsentCause s (.bvCreate n)
  | bmCreate (r c : Half) (hr : ¬ HasRoom s (r.toNat * c.toNat)) : AbsentCause s (.bmCreate r c)
  | bmFromData (b8 : Byte) (n : Word) (hr : 8 < n.toNat ∨ ¬ HasRoom s n.toNat) : AbsentCause s (.bmFromData b8 n)
  | bmMultiply (ha hb : Handle) (a b : Mat) (hA : LiveBm s ha a) (hB : LiveBm s hb b) (hd : a.cols = b.rows)
      (hr : ¬ HasRoom s (a.rows.toNat * b.cols.toNat)) : AbsentCause s (.bmMultiply ha hb)
  | hcLoadG (hr : ¬ HasRoom s 32) : AbsentCause s .hcLoadG
  | hcLoadHt (hr : ¬ HasRoom s 32) : AbsentCause s .hcLoadHt

theorem checkDims_cols_eq {a b : Mat} {u : Unit} (h : checkDims a b = .ok u) : a.cols = b.rows := by
  by_contra hne
  rw [checkDims_error hne] at h
  contradiction

/-- With a cause for it, a command answers ABSENT and changes nothing. -/
theorem AbsentCause.exec_eq {s : State} {i : Instr} (hc : AbsentCause s i) (hh : s.halted = false) :
    exec i s = .next (s.answered .absent 0#32) := by
  cases hc with
  | bvCreate n hr => exact absent_of_no_room (exec_bvCreate_ok n hh) hr
  | bmCreate r c hr => exact absent_of_no_room (exec_bmCreate_ok r c hh) hr
  | bmFromData b8 n hr => exact exec_bmFromData_absent hh hr
  | bmMultiply ha hb a b hA hB hd hr => exact absent_of_no_room (exec_bmMultiply_ok hh hA hB hd) hr
  | hcLoadG hr => exact absent_of_no_room (exec_hcLoadG_ok hh) hr
  | hcLoadHt hr => exact absent_of_no_room (exec_hcLoadHt_ok hh) hr

/-- The other eighteen commands answer DONE when they do not fault. -/
theorem absentCause_of_exec {s t : State} {i : Instr} (hx : exec i s = .next t) (ha : AnswersAbsent t) :
    AbsentCause s i := by
  obtain ⟨hh, -⟩ := exec_effect hx
  have hdone (v : Word) (u : State) : NeverAbsent (.ok (respond .done v u)) :=
    neverAbsent_ok (not_answersAbsent_respond_done v u)
  have hdump (d : DiagRecord) (v : Word) (u : State) : NeverAbsent (.ok (respondDump d v u)) :=
    neverAbsent_ok (not_answersAbsent_respondDump d v u)
  have hnever {body : Except FaultCode State} (hb : NeverAbsent body) (hp : perform i s body = .next t) :
      AbsentCause s i := absurd ha (hb t (ha.body_ok hp))
  cases i with
  | bvCreate n => exact .bvCreate n (ha.no_room_of_exec hx (exec_bvCreate_ok n hh))
  | bmCreate r c => exact .bmCreate r c (ha.no_room_of_exec hx (exec_bmCreate_ok r c hh))
  | hcLoadG => exact .hcLoadG (ha.no_room_of_exec hx (exec_hcLoadG_ok hh))
  | hcLoadHt => exact .hcLoadHt (ha.no_room_of_exec hx (exec_hcLoadHt_ok hh))
  | bmFromData b8 n =>
    refine .bmFromData b8 n ((Nat.lt_or_ge 8 n.toNat).imp_right fun hn => ?_)
    rw [← Mat.ofByte_bits (b8 := b8) hn]
    exact ha.no_room_of_exec hx (exec_bmFromData_ok hn hh)
  | bmMultiply h h' =>
    obtain ⟨a, hA, hok⟩ := bind_ok_eq (ha.body_ok hx)
    obtain ⟨b, hB, hok⟩ := bind_ok_eq hok
    obtain ⟨_, hd, -⟩ := bind_ok_eq hok
    rw [resolveBm_ok] at hA hB
    have hdims : a.cols = b.rows := checkDims_cols_eq hd
    exact .bmMultiply h h' a b hA hB hdims (ha.no_room_of_exec hx (exec_bmMultiply_ok hh hA hB hdims))
  | bvDelete h | bmDelete h => exact hnever (neverAbsent_ite (hdone _ _) (neverAbsent_bind fun _ => hdone _ _)) hx
  | bvLength h | bmRows h | bmCols h => exact hnever (neverAbsent_bind fun _ => hdone _ _) hx
  | bvDump h | bmDump h => exact hnever (neverAbsent_bind fun _ => hdump _ _ _) hx
  | bvSet h n | bvClear h n | bvGet h n | bmSet h r c | bmClear h r c | bmGet h r c | bmToData h =>
    exact hnever (neverAbsent_bind fun _ => neverAbsent_bind fun _ => hdone _ _) hx
  | bvXor h n b8 =>
    exact hnever (neverAbsent_bind fun _ => neverAbsent_bind fun _ => neverAbsent_bind fun _ => hdone _ _) hx
  | syndLookup b8 | hcDecode c mi => exact hnever (neverAbsent_bind fun _ => hdone _ _) hx
  | hcEncode b8 => exact hnever (hdone _ _) hx

/-! ### The host presents a command (R255) -/

/-- A command presented at the handles' own generations is performed, and its word is taken off the inbox. -/
theorem step_present {s : State} {i : Instr} (hh : s.halted = false) (hi : i.wellFormed = true) :
    step (s.present (encode i)) = exec i s := by
  have hstale : s.staleUse i (s.gen (fieldHA (encode i)).toNat) (s.gen (fieldHB (encode i)).toNat) = false := by
    rw [encode, fieldHA_packWord, fieldHB_packWord]
    exact staleUse_present s i
  rw [step_command (State.present_inbox s (encode i))]
  change acceptCommand _ _ _ s = _
  rw [acceptCommand_ok hh (decode_encode hi), hstale]
  rfl

theorem submit_of_exec {s t : State} {i : Instr} {v : Word} (hh : s.halted = false) (hi : i.wellFormed = true)
    (hx : exec i s = .next (respond .done v t)) : submit i s = .ok (v, respond .done v t) := by
  rw [submit, step_present hh hi, hx]
  rfl

/-! ### The host encoder (R255) -/

/-- The two codewords of each byte, low nibble first. -/
def encodedStream (bs : List Byte) : List Byte :=
  bs.flatMap fun b => [printedCodeword (lowNibble b), printedCodeword (highNibble b)]

theorem encodedStream_cons (b : Byte) (bs : List Byte) : encodedStream (b :: bs) =
    printedCodeword (lowNibble b) :: printedCodeword (highNibble b) :: encodedStream bs := rfl

theorem encodedStream_length (bs : List Byte) : (encodedStream bs).length = 2 * bs.length := by
  induction bs with
  | nil => rfl
  | cons b bs ih =>
    rw [encodedStream_cons]
    simp only [List.length_cons, ih]
    ring

theorem submit_hcEncode {s : State} (m : Nibble) (hh : s.halted = false) :
    ∃ o, submit (.hcEncode (m.setWidth 8)) s = .ok ((printedCodeword m).setWidth 32, s.withOut o) := by
  have hx := exec_hcEncode_ok (m.setWidth 8) hh
  rw [encodeFn_eq_printedCodeword, lowNibble_setWidth] at hx
  exact ⟨_, submit_of_exec hh rfl hx⟩

theorem hostEncodeByte_eq {s : State} (b : Byte) (hh : s.halted = false) : ∃ o, hostEncodeByte b s =
    .ok ([printedCodeword (lowNibble b), printedCodeword (highNibble b)], s.withOut o) := by
  obtain ⟨o, hlo⟩ := submit_hcEncode (lowNibble b) hh
  obtain ⟨o', hhi⟩ := submit_hcEncode (s := s.withOut o) (highNibble b) hh
  have hbyte (c : Byte) : (c.setWidth 32).setWidth 8 = c := by simp
  refine ⟨o', ?_⟩
  simp only [hostEncodeByte, hlo, hhi, bind, Except.bind, hbyte]
  rfl

theorem hostEncode_eq (bs : List Byte) {s : State} (hh : s.halted = false) :
    ∃ o, hostEncode bs s = .ok (encodedStream bs, s.withOut o) := by
  induction bs generalizing s with
  | nil => exact ⟨s.out, rfl⟩
  | cons b bs ih =>
    obtain ⟨o, hfirst⟩ := hostEncodeByte_eq b hh
    obtain ⟨o', hrest⟩ := ih (s := s.withOut o) hh
    refine ⟨o', ?_⟩
    simp only [hostEncode, hfirst, hrest, bind, Except.bind]
    rfl

/-! ### One lane of the host decoder (R256, R260) -/

section
variable (rom : Rom) (m mi : Nibble)

theorem decodeFn_codeword : decodeFn rom (printedCodeword m) mi = (.ok, m) := by
  rw [← codeword_eq_printedCodeword rom, decodeFn_of_syndrome_zero rom mi (syndromeFn_codeword rom m),
    lowNibble_codeword]

theorem decodeFn_codeword_flip (k : Fin 8) :
    decodeFn rom (printedCodeword m ^^^ (1#8 <<< k.val)) mi = (.corrected, m) := by
  rw [← codeword_eq_printedCodeword rom, decodeFn_of_syndrome_row rom mi
    ((syndromeFn_codeword_xor rom m _).trans (syndromeFn_bit rom k)), BitVec.xor_assoc, BitVec.xor_self, BitVec.xor_zero,
    lowNibble_codeword]

theorem decodeFn_codeword_double {a b : Fin 8} (hab : a ≠ b) :
    decodeFn rom (printedCodeword m ^^^ (1#8 <<< a.val) ^^^ (1#8 <<< b.val)) mi = (.uncorrectable, mi) := by
  obtain ⟨-, -, -, -, hentry⟩ := doubleErrorIsDetected State.reset m a b 0#32 rfl (by decide) hab
  rw [← codeword_eq_printedCodeword rom]
  exact decodeFn_of_uncorrectable rom mi hentry

end

/-- A codeword `c` received in a lane that holds `lane` has the outcome `oc` and leaves the nibble `m` in the lane,
whatever the block's state. -/
def LaneDecodes (lane : Option Nibble) (c : Byte) (oc : DecodeOutcome) (m : Nibble) : Prop :=
  ∀ (n : Nat) (s : State), s.halted = false → ∃ o, hostDecodeLane lane n c s = .ok (oc.code, some m, s.withOut o)

/-- One codeword of a lane, by what the decoder makes of it. -/
theorem hostDecodeLane_eq {lane : Option Nibble} {n : Nat} {c : Byte} {s : State} {oc : DecodeOutcome} {m : Nibble}
    (hh : s.halted = false) (hd : decodeFn s.rom c (lane.getD (HostConfig.unwrittenLane n)) = (oc, m)) :
    ∃ o, hostDecodeLane lane n c s =
      .ok (oc.code, if oc = .uncorrectable then lane else some m, s.withOut o) := by
  have hmi : ((lane.getD (HostConfig.unwrittenLane n)).setWidth 32).toNat < 16 := by
    rw [BitVec.toNat_setWidth]
    omega
  have hx := exec_hcDecode_ok c hh hmi
  have hwidth : ((lane.getD (HostConfig.unwrittenLane n)).setWidth 32).setWidth 4 =
      lane.getD (HostConfig.unwrittenLane n) := by simp
  rw [hwidth, hd] at hx
  refine ⟨answers .done (decodeValue oc m), ?_⟩
  rw [hostDecodeLane, submit_of_exec hh (by simpa [Instr.wellFormed] using hmi) hx]
  simp only [bind, Except.bind, decodeValue_outcome, decodeValue_message, DecodeOutcome.code_inj]
  rfl

/-- A codeword decoded to a message leaves the message in any lane. -/
theorem laneDecodes_of_decodeFn {c : Byte} {oc : DecodeOutcome} {m : Nibble} (hoc : oc ≠ .uncorrectable)
    (hd : ∀ rom mi, decodeFn rom c mi = (oc, m)) (lane : Option Nibble) : LaneDecodes lane c oc m := by
  intro n s hh
  obtain ⟨o, ho⟩ := hostDecodeLane_eq (lane := lane) (n := n) hh (hd s.rom _)
  rw [if_neg hoc] at ho
  exact ⟨o, ho⟩

theorem laneDecodes_codeword (lane : Option Nibble) (m : Nibble) : LaneDecodes lane (printedCodeword m) .ok m :=
  laneDecodes_of_decodeFn (by decide) (fun rom mi => decodeFn_codeword rom m mi) lane

theorem laneDecodes_flip (lane : Option Nibble) (m : Nibble) (k : Fin 8) :
    LaneDecodes lane (printedCodeword m ^^^ (1#8 <<< k.val)) .corrected m :=
  laneDecodes_of_decodeFn (by decide) (fun rom mi => decodeFn_codeword_flip rom m mi k) lane

/-- A double error leaves the lane as it was. -/
theorem laneDecodes_double (prev m : Nibble) {a b : Fin 8} (hab : a ≠ b) :
    LaneDecodes (some prev) (printedCodeword m ^^^ (1#8 <<< a.val) ^^^ (1#8 <<< b.val)) .uncorrectable prev :=
  fun n s hh => hostDecodeLane_eq (lane := some prev) (n := n) hh (decodeFn_codeword_double s.rom m prev hab)

/-! ### A pair of codewords (R256) -/

/-- The host's state after a pair that left `lo` and `hi` in the lanes with these outcomes. -/
def HostDecoder.afterPair (h : HostDecoder) (lo hi : Nibble) (ocLo ocHi : DecodeOutcome) : HostDecoder :=
  { lower := some lo, upper := some hi, bytesIn := h.bytesIn + 2, bytesOut := h.bytesOut + 1,
    corrected := h.corrected + countOutcome .corrected ocLo.code ocHi.code,
    uncorrected := h.uncorrected + countOutcome .uncorrectable ocLo.code ocHi.code }

theorem hostDecodePair_eq {h : HostDecoder} {cLo cHi : Byte} {ocLo ocHi : DecodeOutcome} {lo hi : Nibble} {s : State}
    (hlo : LaneDecodes h.lower cLo ocLo lo) (hhi : LaneDecodes h.upper cHi ocHi hi) (hh : s.halted = false) :
    ∃ o, hostDecodePair cLo cHi h s = .ok (some (hi ++ lo), h.afterPair lo hi ocLo ocHi, s.withOut o) := by
  obtain ⟨o, hlo⟩ := hlo h.bytesIn s hh
  obtain ⟨o', hhi⟩ := hhi (h.bytesIn + 1) (s.withOut o) hh
  refine ⟨o', ?_⟩
  simp only [hostDecodePair, hlo, hhi, bind, Except.bind]
  rfl

/-! ### A stream with at most one flipped bit in each codeword (R261) -/

/-- `c` is the codeword of `m` with `n` flipped bits, at most one. -/
inductive Received (m : Nibble) : Byte → Nat → Prop where
  | intact : Received m (printedCodeword m) 0
  | flipped (k : Fin 8) : Received m (printedCodeword m ^^^ (1#8 <<< k.val)) 1

/-- The codeword bytes are those of the stream with `n` flipped bits in all, at most one in each codeword. -/
inductive StreamReceived : List Byte → List Byte → Nat → Prop where
  | nil : StreamReceived [] [] 0
  | cons {b cLo cHi : Byte} {bs cs : List Byte} {nLo nHi n : Nat} (hlo : Received (lowNibble b) cLo nLo)
      (hhi : Received (highNibble b) cHi nHi) (hs : StreamReceived bs cs n) :
      StreamReceived (b :: bs) (cLo :: cHi :: cs) (nLo + nHi + n)

theorem streamReceived_encodedStream (bs : List Byte) : StreamReceived bs (encodedStream bs) 0 := by
  induction bs with
  | nil => exact .nil
  | cons b bs ih => exact .cons .intact .intact ih

/-- One bit flipped at place `p` of an encoded stream. -/
theorem streamReceived_set (bs : List Byte) {p : Nat} (hp : p < 2 * bs.length) (k : Fin 8) :
    StreamReceived bs ((encodedStream bs).set p ((encodedStream bs).getD p 0#8 ^^^ (1#8 <<< k.val))) 1 := by
  induction bs generalizing p with
  | nil => simp at hp
  | cons b bs ih =>
    rw [encodedStream_cons]
    match p with
    | 0 => exact .cons (.flipped k) .intact (streamReceived_encodedStream bs)
    | 1 => exact .cons .intact (.flipped k) (streamReceived_encodedStream bs)
    | p + 2 => exact .cons .intact .intact (ih (by simp only [List.length_cons] at hp; omega))

/-- A received codeword leaves its message in any lane, and is counted as corrected when a bit was flipped. -/
theorem Received.laneDecodes {m : Nibble} {c : Byte} {n : Nat} (hr : Received m c n) :
    ∃ oc : DecodeOutcome, oc ≠ .uncorrectable ∧ (if oc.code = DecodeOutcome.corrected.code then 1 else 0) = n ∧
      ∀ lane, LaneDecodes lane c oc m := by
  cases hr with
  | intact => exact ⟨.ok, by decide, rfl, fun lane => laneDecodes_codeword lane m⟩
  | flipped k => exact ⟨.corrected, by decide, rfl, fun lane => laneDecodes_flip lane m k⟩

theorem highNibble_append_lowNibble (b : Byte) : highNibble b ++ lowNibble b = b :=
  (BitVec.extractLsb'_append_extractLsb'_eq_extractLsb' rfl).trans BitVec.extractLsb'_eq_self

/-- A pair of received codewords gives its byte back, and counts the flipped bits as corrected. -/
theorem hostDecodePair_of_received {b cLo cHi : Byte} {nLo nHi : Nat} (hlo : Received (lowNibble b) cLo nLo)
    (hhi : Received (highNibble b) cHi nHi) (h : HostDecoder) {s : State} (hh : s.halted = false) :
    ∃ h' o, hostDecodePair cLo cHi h s = .ok (some b, h', s.withOut o) ∧
      h'.corrected = h.corrected + (nLo + nHi) ∧ h'.uncorrected = h.uncorrected := by
  obtain ⟨ocLo, hokLo, rfl, hlaneLo⟩ := hlo.laneDecodes
  obtain ⟨ocHi, hokHi, rfl, hlaneHi⟩ := hhi.laneDecodes
  obtain ⟨o, ho⟩ := hostDecodePair_eq (hlaneLo h.lower) (hlaneHi h.upper) hh
  rw [highNibble_append_lowNibble] at ho
  refine ⟨_, o, ho, rfl, ?_⟩
  simp [HostDecoder.afterPair, countOutcome, DecodeOutcome.code_inj, hokLo, hokHi]

/-- A received stream decodes to the stream sent, whatever the host's configuration and lanes, and each flipped bit is
counted as corrected. -/
theorem hostDecode_of_streamReceived (cfg : HostConfig) {bs cs : List Byte} {n : Nat} (hr : StreamReceived bs cs n)
    (h : HostDecoder) {s : State} (hh : s.halted = false) :
    ∃ h' t, hostDecode cfg cs h s = .ok (bs.map some, h', t) ∧
      h'.corrected = h.corrected + n ∧ h'.uncorrected = h.uncorrected := by
  induction hr generalizing h s with
  | nil => exact ⟨h, s, rfl, rfl, rfl⟩
  | cons hlo hhi _ ih =>
    obtain ⟨h1, o, hpair, hc1, hu1⟩ := hostDecodePair_of_received hlo hhi h hh
    obtain ⟨h2, t, hrest, hc2, hu2⟩ := ih h1 (s := s.withOut o) hh
    refine ⟨h2, t, ?_, by rw [hc2, hc1, Nat.add_assoc], hu2.trans hu1⟩
    simp only [hostDecode, hpair, hrest, bind, Except.bind, List.map_cons]

/-! ### The obligations -/

/-- Settles O20: only a fault answers FAULT, and taking it writes the fault status and the ports of the state before. -/
theorem faultsArePrecise : Obligations.FaultsArePrecise := by
  intro i s t v hx hout
  obtain ⟨-, heffect⟩ := exec_effect hx
  obtain ⟨c, rfl⟩ := heffect.eq_raiseFault hout
  obtain ⟨hlo, hhi⟩ := c.code_range
  exact ⟨c.code, hlo, hhi, rfl⟩

/-- Settles O21: every command, and a step with nothing or a command presented, is the fault of a halted block. -/
theorem haltedBlockIsStuck : Obligations.HaltedBlockIsStuck := by
  intro s hh
  refine ⟨exec_halted hh, fun hi => ?_, fun w gA gB rest hi => ?_, fun n rest hi => ⟨_, step_readStatus hi⟩,
    fun t hst hr => ?_, fun k s0 hsafe => ?_⟩
  · rw [step_nothing hi, acceptNothing, if_pos hh]
  · rw [step_command hi]
    exact acceptCommand_halted (s := s.withInbox rest) hh w gA gB
  · obtain ⟨n, es, rfl⟩ := step_halted_next hh hr hst
    exact ⟨hh, rfl, rfl, rfl⟩
  · obtain ⟨-, hrunning⟩ := hsafe
    simp [hh] at hrunning

/-- Settles O23: a create answers ABSENT exactly when `Alloc` fails, and no other command ends in that answer. -/
theorem absentExactlyWhenNoRoom : Obligations.AbsentExactlyWhenNoRoom := by
  intro s hh
  refine ⟨fun n hr => ?_, fun r c hr => ?_, fun b8 n hr => ?_, fun ha hb a b hA hB hd hr => ?_, fun hr => ?_,
    fun hr => ?_, fun i t v hx hv => ?_⟩
  · exact (AbsentCause.bvCreate n hr).exec_eq hh
  · exact (AbsentCause.bmCreate r c hr).exec_eq hh
  · exact (AbsentCause.bmFromData b8 n hr).exec_eq hh
  · exact (AbsentCause.bmMultiply ha hb a b hA hB hd hr).exec_eq hh
  · exact (AbsentCause.hcLoadG hr).exec_eq hh
  · exact (AbsentCause.hcLoadHt hr).exec_eq hh
  · have hcause : AbsentCause s i := absentCause_of_exec hx ⟨v, hv⟩
    rw [hcause.exec_eq hh] at hx
    cases hx
    refine ⟨rfl, ?_⟩
    cases hcause with
    | bvCreate n hr => exact .inl ⟨n, rfl, hr⟩
    | bmCreate r c hr => exact .inr (.inl ⟨r, c, rfl, hr⟩)
    | bmFromData b8 n hr => exact .inr (.inr (.inl ⟨b8, n, rfl, hr⟩))
    | bmMultiply ha hb a b hA hB hd hr => exact .inr (.inr (.inr (.inl ⟨ha, hb, a, b, rfl, hA, hB, hr⟩)))
    | hcLoadG hr => exact .inr (.inr (.inr (.inr (.inl ⟨rfl, hr⟩))))
    | hcLoadHt hr => exact .inr (.inr (.inr (.inr (.inr ⟨rfl, hr⟩))))

/-- Settles O57: each submitted nibble answers with its codeword, and the block is as it was but for its ports. -/
theorem hostEncoderWritesCodewords : Obligations.HostEncoderWritesCodewords := fun bs _ hh => hostEncode_eq bs hh

/-- Settles O58: the encoded stream is received with no flipped bit. -/
theorem hostRoundTrip : Obligations.HostRoundTrip := by
  intro cfg bs s hh
  obtain ⟨o, hencode⟩ := hostEncode_eq bs hh
  obtain ⟨h, t, hdecode, hcorrected, huncorrected⟩ := hostDecode_of_streamReceived cfg
    (streamReceived_encodedStream bs) (HostDecoder.start cfg) (s := s.withOut o) hh
  exact ⟨_, _, h, t, hencode, encodedStream_length bs, hdecode, hcorrected, huncorrected⟩

/-- Settles O59: the encoded stream is received with one flipped bit. -/
theorem hostRecoversOneFlippedBit : Obligations.HostRecoversOneFlippedBit := by
  intro cfg bs s p k hh hp
  obtain ⟨o, hencode⟩ := hostEncode_eq bs hh
  obtain ⟨h, t, hdecode, hcorrected, huncorrected⟩ := hostDecode_of_streamReceived cfg
    (streamReceived_set bs hp k) (HostDecoder.start cfg) (s := s.withOut o) hh
  exact ⟨_, _, h, t, hencode, hdecode, hcorrected, huncorrected⟩

/-- Settles O60: the lane with the double error keeps its nibble, and the other lane decodes. -/
theorem hostRetainsOnDoubleError : Obligations.HostRetainsOnDoubleError := by
  refine fun h s prev mLo mHi a b hh hab => ⟨fun hprev => ?_, fun hprev => ?_⟩
  · have hlane := laneDecodes_double prev mLo hab
    rw [← hprev] at hlane
    obtain ⟨o, ho⟩ := hostDecodePair_eq hlane (laneDecodes_codeword h.upper mHi) hh
    exact ⟨_, _, ho, rfl, rfl, rfl, rfl⟩
  · have hlane := laneDecodes_double prev mHi hab
    rw [← hprev] at hlane
    obtain ⟨o, ho⟩ := hostDecodePair_eq (laneDecodes_codeword h.lower mLo) hlane hh
    exact ⟨_, _, ho, rfl, rfl, rfl, rfl⟩

end Sys2Proof.Machine
end

section
/-! PROOFS. The statement of 70_reset_and_hazards.md: what reset leaves, from any state, and the way out of the halt
(R280). -/

namespace Sys2Proof.Machine

/-! ### What reset leaves of the pool (R280) -/

section
variable (s : State)

@[simp] theorem hostReset_obj (h : Nat) : (hostReset s).obj h = none := by rw [State.obj, hostReset_slot, Slot.fresh]

@[simp] theorem hostReset_gen (h : Nat) : (hostReset s).gen h = 0 := by rw [State.gen, hostReset_slot, Slot.fresh]

@[simp] theorem hostReset_slots_length : (hostReset s).slots.length = s.slots.length := List.length_map _

@[simp] theorem hostReset_usedBytes : (hostReset s).usedBytes = 0 := by simp [State.usedBytes, hostReset]

end

/-! ### The way out of the halt (R238, R280) -/

/-- A step that the host did not begin with reset leaves a halted block halted. -/
theorem step_keeps_halt {s t : State} (hh : s.halted = true) (hr : NotReset s) (hst : step s = .next t) :
    t.halted = true := by
  obtain ⟨n, es, rfl⟩ := step_halted_next hh hr hst
  exact hh

/-! ### The obligation -/

/-- Settles O12: the step of a reset is `hostReset`, whatever the state, and any other step of a halted block keeps the
halt. -/
theorem resetFromAnyState : Obligations.ResetFromAnyState := by
  refine ⟨fun s rest hi => ?_, fun s t hh hst hrunning => ?_⟩
  · exact ⟨hostReset (s.withInbox rest), step_reset hi, fun h => ⟨hostReset_obj _ h, hostReset_gen _ h⟩,
      hostReset_usedBytes _, rfl, rfl, rfl, hostReset_slots_length _, rfl, rfl⟩
  · by_contra hno
    have hhalted : t.halted = true := step_keeps_halt hh (not_exists.mp hno) hst
    simp [hrunning] at hhalted

end Sys2Proof.Machine
end
